-- ==== Sys2Proof/Word.lean ====
section
/-! DEFINITION. The word types of the HFA codec core (spec/00_scope.md R7, R10). -/

namespace Sys2Proof

/-- A byte of `PIX` or `CON` (00 R10). -/
abbrev Byte := BitVec 8

/-- A symbol: "an unsigned 8-bit value, 0 to 255" (00 R7, `SYMW = 8`). -/
abbrev Sym := BitVec 8

/-- A command word: the low 32 bits of a value written to `CMD` (30 R90). -/
abbrev CmdWord := BitVec 32

/-- A table of `NSYM = 256` entries, one for each symbol (00 R7, 10 R43 to R45). -/
abbrev Table (w : Nat) := Vector (BitVec w) 256

end Sys2Proof
end

