-- ==== Sys2Proof/Syntax.lean ====
section
/-! DEFINITION. The seventeen commands (spec/30_encoding.md R93), one constructor for each row of
spec/opcode_table.json. -/

namespace Sys2Proof

/-- A command with its operand (30 R91 to R93). -/
inductive Instr where
  /-- `NOP` (40 R130). -/
  | nop
  /-- `CLR` (40 R131). -/
  | clr
  /-- `ACC sym` (41 R141). -/
  | acc (sym : Sym)
  /-- `STAT` (41 R143). -/
  | stat
  /-- `BUILD` (42 R151). -/
  | build
  /-- `ASSIGN` (43 R171). -/
  | assign
  /-- `WINIT` (44 R192). -/
  | winit
  /-- `PUTB len` (44 R193); the field `w[5:0]` holds 0 to 63, of which 33 to 63 are ill-formed (30 R94). -/
  | putb (len : BitVec 6)
  /-- `PUTS sym` (44 R194). -/
  | puts (sym : Sym)
  /-- `FIN` (44 R195). -/
  | fin
  /-- `RINIT` (45 R212). -/
  | rinit
  /-- `GETB` (45 R213). -/
  | getb
  /-- `GETS` (45 R214). -/
  | gets
  /-- `PARSE` (46 R235). -/
  | parse
  /-- `DECODE` (46 R236). -/
  | decode
  /-- `WRHDR` (46 R233). -/
  | wrhdr
  /-- `ENCODE` (46 R234). -/
  | encode
deriving DecidableEq, Repr

end Sys2Proof
end

