-- ==== Sys2Proof/WellFormed.lean ====
section
/-! DEFINITION. Which commands have an encoding (spec/30_encoding.md R91, R94): a symbol is any value 0 to 255, a
length is at most 32. -/

namespace Sys2Proof

/-- "In format L `w[7:6]` must be 0 and `len = w[5:0]` must be at most 32" (30 R91); the other formats admit every
value of their operand. -/
def Instr.wellFormed : Instr → Bool
  | .nop => true
  | .clr => true
  | .acc _ => true
  | .stat => true
  | .build => true
  | .assign => true
  | .winit => true
  | .putb len => decide (len.toNat ≤ 32)
  | .puts _ => true
  | .fin => true
  | .rinit => true
  | .getb => true
  | .gets => true
  | .parse => true
  | .decode => true
  | .wrhdr => true
  | .encode => true

end Sys2Proof
end

