-- ==== Sys2Proof/Decode.lean ====
section
/-! DEFINITION. The decoder of command words, total on the 2^32 words (spec/30_encoding.md R96), and the encoder. -/

namespace Sys2Proof

/-- Why a word is illegal (30 R94), in the order of the tests (30 R96, 60 R277). All three raise `IllegalCommand`. -/
inductive IllegalWord where
  /-- Step 1: the opcode is none of the seventeen of 30 R93. -/
  | unassignedOpcode
  /-- Step 2: `w[23:8] != 0`. -/
  | reservedBits
  /-- Step 3: `w[7:0]` is not an operand of the command's format. -/
  | operandRange
deriving DecidableEq, Repr

/-- The three formats of 30 R91, each with what its operand makes. -/
inductive Format where
  /-- Format Z: no operand. -/
  | z (i : Instr)
  /-- Format S: `imm` is the symbol. -/
  | s (mk : Sym → Instr)
  /-- Format L: `w[5:0]` is the length. -/
  | l (mk : BitVec 6 → Instr)

/-- The opcode map of 30 R93. -/
def formatOf (op : BitVec 8) : Option Format :=
  match op.toNat with
  | 0x00 => some (.z .nop)
  | 0x01 => some (.z .clr)
  | 0x10 => some (.s .acc)
  | 0x11 => some (.z .stat)
  | 0x20 => some (.z .build)
  | 0x30 => some (.z .assign)
  | 0x40 => some (.z .winit)
  | 0x41 => some (.l .putb)
  | 0x42 => some (.s .puts)
  | 0x43 => some (.z .fin)
  | 0x50 => some (.z .rinit)
  | 0x51 => some (.z .getb)
  | 0x52 => some (.z .gets)
  | 0x60 => some (.z .parse)
  | 0x61 => some (.z .decode)
  | 0x62 => some (.z .wrhdr)
  | 0x63 => some (.z .encode)
  | _ => none

/-- The field `op = w[31:24]` (30 R90). -/
def opField (w : CmdWord) : BitVec 8 := w.extractLsb' 24 8

/-- The field `rsv = w[23:8]` (30 R90). -/
def rsvField (w : CmdWord) : BitVec 16 := w.extractLsb' 8 16

/-- The field `imm = w[7:0]` (30 R90). -/
def immField (w : CmdWord) : BitVec 8 := w.extractLsb' 0 8

/-- Step 3 of 30 R96: the operand by the format. -/
def operandOf (imm : BitVec 8) : Format → Except IllegalWord Instr
  | .z i => if imm = 0 then .ok i else .error .operandRange
  | .s mk => .ok (mk imm)
  | .l mk =>
    if imm.extractLsb' 6 2 = 0 ∧ (imm.extractLsb' 0 6).toNat ≤ 32 then .ok (mk (imm.extractLsb' 0 6))
    else .error .operandRange

/-- "Decoding is total and proceeds in this order on the 32-bit word" (30 R96): the opcode, the reserved bits, the
operand. No test reads any state. -/
def decodeWord (w : CmdWord) : Except IllegalWord Instr :=
  match formatOf (opField w) with
  | none => .error .unassignedOpcode
  | some f => if rsvField w ≠ 0 then .error .reservedBits else operandOf (immField w) f

/-- The opcode of a command (30 R93). -/
def opcodeOf : Instr → BitVec 8
  | .nop => 0x00
  | .clr => 0x01
  | .acc _ => 0x10
  | .stat => 0x11
  | .build => 0x20
  | .assign => 0x30
  | .winit => 0x40
  | .putb _ => 0x41
  | .puts _ => 0x42
  | .fin => 0x43
  | .rinit => 0x50
  | .getb => 0x51
  | .gets => 0x52
  | .parse => 0x60
  | .decode => 0x61
  | .wrhdr => 0x62
  | .encode => 0x63

/-- The operand byte `w[7:0]` of a command (30 R91, R92): nothing is scaled or sign-extended. -/
def immOf : Instr → BitVec 8
  | .nop => 0
  | .clr => 0
  | .acc sym => sym
  | .stat => 0
  | .build => 0
  | .assign => 0
  | .winit => 0
  | .putb len => len.setWidth 8
  | .puts sym => sym
  | .fin => 0
  | .rinit => 0
  | .getb => 0
  | .gets => 0
  | .parse => 0
  | .decode => 0
  | .wrhdr => 0
  | .encode => 0

/-- "The word is `(op << 24) | operand`" (30 R97). -/
def encodeInstr (i : Instr) : CmdWord :=
  ((opcodeOf i).setWidth 32 <<< 24) ||| (immOf i).setWidth 32

/-- The host's probe: the command the decoder reads from the word `w` of `nbits` bits; the table gives every row one
word of 32 bits, and bits above `nbits` are 0. -/
def decodeTableWord (nbits w : Nat) : Option Instr :=
  match decodeWord (BitVec.ofNat 32 (w % 2 ^ nbits)) with
  | .ok i => some i
  | .error _ => none

end Sys2Proof
end

