-- ==== Sys2Proof/Config.lean ====
section
/-! DEFINITION. What an implementation of the block fixes and the spec leaves open (spec/93_implementation_defined.md
part 2): the bound `MAX_SAMPLES`, the bytes the memories hold after a reset, the fields of `STATUS` while busy. -/

namespace Sys2Proof

/-- The two byte memories (10 R47, R48). -/
inductive MemId where
  | pix
  | con
deriving DecidableEq, Repr

/-- The open parameters and free values of the block. Every operation takes them as an argument, so that a lemma
holds for every implementation; `Config.params` is the one at hand. -/
structure Params where
  /-- `MAX_SAMPLES - 1`; the type holds the constraint `1 <= MAX_SAMPLES <= 2^32 - 1` of 00 R8. -/
  maxSamplesPred : Fin (4294967294 + 1)
  /-- The byte of a memory at an address after the reset of a given number, while nothing has written it:
  "each byte is a free draw, under no law" (93 U1, 10 R51). -/
  draw : MemId → Nat → Nat → Byte
  /-- `ERR`, `CV`, `WFIN` as a read of `STATUS` shows them while `BUSY = 1`, one value for each read (93 U5). -/
  busyFields : Nat → BitVec 6

/-- `MAX_SAMPLES` (00 R8). -/
def Params.maxSamples (p : Params) : Nat := p.maxSamplesPred.val + 1

/-- `CONCAP = 535 + 4 × MAX_SAMPLES` (00 R8). -/
def Params.conCap (p : Params) : Nat := 4 * p.maxSamples + 535

/-- The number of bytes of a memory (10 R47, R48). -/
def Params.memSize (p : Params) : MemId → Nat
  | .pix => p.maxSamples
  | .con => p.conCap

/-- `MAX_SAMPLES - 1` of the block at hand: the spec gives no value (00 R8, 92 D4). No body: nothing can be proved
of it but its range. -/
opaque Config.maxSamplesPred : Fin (4294967294 + 1)

/-- The free bytes of the memories after a reset (93 U1). No body: a claim holds for every draw. -/
opaque Config.draw : MemId → Nat → Nat → Byte

/-- The free fields of `STATUS` while busy (93 U5). No body. -/
opaque Config.busyFields : Nat → BitVec 6

/-- The implementation at hand. -/
def Config.params : Params where
  maxSamplesPred := Config.maxSamplesPred
  draw := Config.draw
  busyFields := Config.busyFields

end Sys2Proof
end

