-- ==== Sys2Proof/Machine/State.lean ====
section
/-! DEFINITION. The state of the machine as plain data (spec/10_state.md R20), the events that drive it, the reasons a
step can stop, and the state after reset (R51). -/

namespace Sys2Proof.Machine

/-- A byte memory as the cells something has written: addresses strictly rising, no entry equal to the free draw that
an unlisted address reads as (log 5). -/
abbrev Memory := List Host.Cell

/-- The three tables as `TblRead` names them (10 R46). -/
inductive TableId where
  | freq
  | len
  | code
deriving DecidableEq, Repr

/-- What can happen to the block from outside (10 R20, 20 R61, 70 R300): five host actions, and reset. -/
inductive Event where
  /-- `RegRead(n)` (10 R24). -/
  | regRead (n : Nat)
  /-- `RegWrite(n, v)` (10 R24); `n = 1` is the command port. -/
  | regWrite (n : Nat) (v : BitVec 64)
  /-- `TblRead(T, i)` (10 R46). -/
  | tblRead (t : TableId) (i : Nat)
  /-- `HostRead(M, a)` (20 R61). -/
  | memRead (m : MemId) (a : Nat)
  /-- `HostWrite(M, a, b)` (20 R61). -/
  | memWrite (m : MemId) (a : Nat) (b : Byte)
  /-- The platform asserts the reset line (70 R300). -/
  | reset
deriving DecidableEq, Repr

/-- The seven error kinds a command can end with (60 R270). They are results, not faults (60 R286). -/
inductive ErrKind where
  | emptyInput
  | codeLengthOverflow
  | formatMismatch
  | truncatedStream
  | dimensionOverflow
  | illegalCommand
  | stateError
deriving DecidableEq, Repr

/-- Reasons the machine stops with a fault. There is none: every command word in every state has a defined next state
(60 R286, log 20). -/
inductive Fault where
deriving DecidableEq, Repr

/-- Reasons the model gives no move. -/
inductive Refusal where
  /-- An arm of `exec` without a meaning. No arm raises it in this model. Safe: the run stops. -/
  | notModelled (mnemonic : String)
  /-- A host action other than a poll of `STATUS` while `BUSY = 1`: "has no meaning in this spec" (70 R305, 93 U4).
  Raised by `perform`. Safe: no run reaches `BUSY = 1` (log 7). -/
  | hostActionWhileBusy
  /-- `HostRead` or `HostWrite` outside the memory: "not an action the host can perform" (20 R61, 93 U6). Raised by
  `perform`. Safe: the run stops (log 8). -/
  | noSuchAddress (m : MemId) (a : Nat)
deriving DecidableEq, Repr

/-- The whole architectural state (10 R20): the registers of R23 (but `ID`, a constant, and `CMD`, which holds
nothing), the three tables, the two byte memories; and three fields of the model's own (`epoch`, `script`, `reads`). -/
structure State where
  /-- `STATUS` bits 3 to 0: the result code of the most recent command (10 R27). -/
  err : BitVec 4
  /-- `STATUS` bit 4, code valid (10 R40). -/
  cv : Bool
  /-- `STATUS` bit 5, writer finalised (10 R41). -/
  wfin : Bool
  /-- `STATUS` bit 6 (10 R42); false in every state a run reaches (log 7). -/
  busy : Bool
  /-- Register 3 (10 R28). -/
  width : BitVec 32
  /-- Register 4 (10 R28). -/
  height : BitVec 32
  /-- Register 5 (10 R29). -/
  layout : BitVec 8
  /-- Register 6 (10 R30). -/
  conlen : BitVec 64
  /-- Register 7 (10 R31). -/
  total : BitVec 32
  /-- Register 8 (10 R32). -/
  wbase : BitVec 64
  /-- Register 9 (10 R33). -/
  wbits : BitVec 64
  /-- Register 10 (10 R34). -/
  wacc : BitVec 8
  /-- Register 11 (10 R35). -/
  wdata : BitVec 32
  /-- Register 12 (10 R36). -/
  rbase : BitVec 64
  /-- Register 13 (10 R37). -/
  rvalid : BitVec 64
  /-- Register 14 (10 R38). -/
  rpos : BitVec 64
  /-- Register 15 (10 R39). -/
  rdata : BitVec 8
  /-- The frequency table (10 R43). -/
  freq : Table 32
  /-- The code length table (10 R44). -/
  len : Table 8
  /-- The code pattern table (10 R45). -/
  code : Table 32
  /-- The pixel memory (10 R47). -/
  pix : Memory
  /-- The container memory (10 R48). -/
  con : Memory
  /-- The model's own: how many resets the run has seen, which picks the free draws of the memories (log 5). -/
  epoch : Nat
  /-- The model's own: the events still to come, first one first (log 1). -/
  script : List Event
  /-- The model's own: the values the host has read, newest first (log 3). -/
  reads : List (BitVec 64)
deriving DecidableEq, Repr

/-- The machine right after reset (10 R51, 70 R301): every register and table entry 0, nothing known of the memories'
bytes. The block is idle until the host acts (70 R302). -/
def State.reset : State where
  err := 0
  cv := false
  wfin := false
  busy := false
  width := 0
  height := 0
  layout := 0
  conlen := 0
  total := 0
  wbase := 0
  wbits := 0
  wacc := 0
  wdata := 0
  rbase := 0
  rvalid := 0
  rpos := 0
  rdata := 0
  freq := Vector.replicate 256 0
  len := Vector.replicate 256 0
  code := Vector.replicate 256 0
  pix := []
  con := []
  epoch := 0
  script := []
  reads := []

end Sys2Proof.Machine
end

