-- ==== Sys2Proof/Machine/Flags.lean ====
section
/-! DEFINITION. `STATUS` and the result codes (spec/10_state.md R27, R40 to R42; spec/60_exceptions.md R270). -/

namespace Sys2Proof.Machine

/-- The result code of an error kind (60 R270); 0 is success. -/
def ErrKind.code : ErrKind → BitVec 4
  | .emptyInput => 1
  | .codeLengthOverflow => 2
  | .formatMismatch => 3
  | .truncatedStream => 4
  | .dimensionOverflow => 5
  | .illegalCommand => 6
  | .stateError => 7

/-- `STATUS` bits 5 to 0: `WFIN`, `CV`, `ERR` (10 R27); unspecified while busy (70 R305, 93 U5). -/
def statusFields (p : Params) (s : State) : BitVec 6 :=
  if s.busy then p.busyFields s.reads.length
  else BitVec.ofBool s.wfin ++ BitVec.ofBool s.cv ++ s.err

/-- `STATUS` as a read returns it: `BUSY` in bit 6, bits 63 to 7 read 0 (10 R27, R42). -/
def statusWord (p : Params) (s : State) : BitVec 64 :=
  (BitVec.ofBool s.busy ++ statusFields p s).setWidth 64

end Sys2Proof.Machine
end

