-- ==== Sys2Proof/Machine/Ops.lean ====
section
/-! DEFINITION. The named operations over tables, memories and registers, ending a command with a result, and the
loop of a macro command. -/

namespace Sys2Proof.Machine

/-! ### Numbers and bytes (spec/00_scope.md R9, R10) -/

/-- `MAXLEN`, the greatest admitted code length (00 R7). -/
def maxLen : Nat := 32

/-- `MAGIC`, in container order (00 R7, 30 R101). -/
def magic : List Byte := [0x48, 0x55, 0x46, 0x31]

/-- What `ID` always reads (10 R25). -/
def idValue : BitVec 64 := 0x48554631

/-- The number of bytes that hold `n` bits (00 R9). -/
def ceil8 (n : Nat) : Nat := (n + 7) / 8

/-- `le(b_0, b_1, ...)`: least significant byte first (00 R10, 20 R64). -/
def leVal : List Byte → Nat
  | [] => 0
  | b :: bs => b.toNat + 256 * leVal bs

/-- `LE_n(v)`: the `n` low bytes of `v`, least significant first (00 R10, 20 R64). -/
def leBytes : Nat → Nat → List Byte
  | 0, _ => []
  | n + 1, v => BitVec.ofNat 8 v :: leBytes n (v / 256)

/-! ### Tables (spec/10_state.md R43 to R46) -/

/-- The symbols 0 to 255 in ascending order. -/
def allSyms : List Sym := (List.range 256).map (BitVec.ofNat 8)

/-- `T[s]` (00 R11). -/
def tableGet {w : Nat} (t : Table w) (x : Sym) : BitVec w := t[x.toNat]'x.isLt

/-- `T[s] <- v` (00 R11). -/
def tableSet {w : Nat} (t : Table w) (x : Sym) (v : BitVec w) : Table w := t.set x.toNat v x.isLt

/-- The table whose entry at each symbol is given. -/
def tableOf {w : Nat} (f : Sym → BitVec w) : Table w := Vector.ofFn fun i => f (BitVec.ofFin i)

/-- The table of zeros. -/
def tableZero (w : Nat) : Table w := Vector.replicate 256 0

/-- The symbols with a non-zero value, in ascending order: the present symbols of a frequency table (42 R152), the
symbols with a code of a length table (43 R172, 30 R102). -/
def presentSyms (f : Sym → Nat) : List Sym := allSyms.filter fun x => f x ≠ 0

/-- "exists s" with the property. -/
def someSym (q : Sym → Bool) : Bool := allSyms.any q

/-- The sum over all symbols `s` in 0..255. -/
def sumSyms (f : Sym → Nat) : Nat := (allSyms.map f).sum

/-! ### Byte memories -/

/-- `M[a]`: the byte written last, else what the memory held after reset, `d a` (log 5). -/
def memRead (d : Nat → Byte) : Memory → Nat → Byte
  | [], a => d a
  | c :: cs, a => if c.1 = a then c.2 else memRead d cs a

/-- Drops what is listed at address `a`. -/
def memErase (m : Memory) (a : Nat) : Memory := m.filter fun c => c.1 ≠ a

/-- Lists `b` at `a`, in the place the rising order gives it. -/
def memInsert : Memory → Nat → Byte → Memory
  | [], a, b => [(a, b)]
  | c :: cs, a, b => if a < c.1 then (a, b) :: c :: cs else c :: memInsert cs a b

/-- `M[a] <- b`, keeping the canonical form: a byte equal to what an unlisted address reads as is not listed. -/
def memWrite (d : Nat → Byte) (m : Memory) (a : Nat) (b : Byte) : Memory :=
  if b = d a then memErase m a else memInsert (memErase m a) a b

/-- The canonical form: addresses strictly rising and inside the memory of `n` bytes, no entry equal to what an
unlisted address reads as. -/
abbrev Memory.wf (d : Nat → Byte) (n : Nat) (m : Memory) : Prop :=
  m.Pairwise (fun c e => c.1 < e.1) ∧ ∀ c ∈ m, c.1 < n ∧ c.2 ≠ d c.1

/-- What an unlisted byte of a memory reads as in a state: the free draw of the latest reset (10 R51, 93 U1). -/
def fresh (p : Params) (s : State) (m : MemId) : Nat → Byte := p.draw m s.epoch

/-- `PIX[a]` (20 R62). -/
def pixByte (p : Params) (s : State) (a : Nat) : Byte := memRead (fresh p s .pix) s.pix a

/-- `CON[a]` (20 R63). -/
def conByte (p : Params) (s : State) (a : Nat) : Byte := memRead (fresh p s .con) s.con a

/-- `M[a]` of either memory (20 R61). -/
def memByte (p : Params) (s : State) : MemId → Nat → Byte
  | .pix => pixByte p s
  | .con => conByte p s

/-- `PIX[a] <- b`; an address the memory does not have is never written (20 R62, log 14). -/
def setPix (p : Params) (s : State) (a : Nat) (b : Byte) : State :=
  if a < p.maxSamples then { s with pix := memWrite (fresh p s .pix) s.pix a b } else s

/-- `CON[a] <- b`; "an access is performed only when `a < CONCAP`" (20 R63, log 14). -/
def setCon (p : Params) (s : State) (a : Nat) (b : Byte) : State :=
  if a < p.conCap then { s with con := memWrite (fresh p s .con) s.con a b } else s

/-- `M[a] <- b` of either memory (20 R61). -/
def setMem (p : Params) (s : State) : MemId → Nat → Byte → State
  | .pix => setPix p s
  | .con => setCon p s

/-- `CON[a .. a+n-1]` (00 R11). -/
def conBytes (p : Params) (s : State) (a n : Nat) : List Byte :=
  (List.range n).map fun i => conByte p s (a + i)

/-- `CON[a], CON[a+1], ... <- bs`. -/
def storeCon (p : Params) : State → Nat → List Byte → State
  | s, _, [] => s
  | s, a, b :: bs => storeCon p (setCon p s a b) (a + 1) bs

/-! ### Registers (spec/10_state.md R24) -/

/-- `RegRead(n)`: the register zero-extended to 64 bits; `CMD` and numbers above 15 read 0. -/
def regRead (p : Params) (s : State) (n : Nat) : BitVec 64 :=
  match n with
  | 0 => idValue
  | 1 => 0
  | 2 => statusWord p s
  | 3 => s.width.setWidth 64
  | 4 => s.height.setWidth 64
  | 5 => s.layout.setWidth 64
  | 6 => s.conlen
  | 7 => s.total.setWidth 64
  | 8 => s.wbase
  | 9 => s.wbits
  | 10 => s.wacc.setWidth 64
  | 11 => s.wdata.setWidth 64
  | 12 => s.rbase
  | 13 => s.rvalid
  | 14 => s.rpos
  | 15 => s.rdata.setWidth 64
  | _ => 0

/-- `RegWrite(n, v)` for `n` other than `CMD`: an RW register takes `v` truncated to its width, an RO register and a
number above 15 take nothing. -/
def regStore (s : State) (n : Nat) (v : BitVec 64) : State :=
  match n with
  | 3 => { s with width := v.setWidth 32 }
  | 4 => { s with height := v.setWidth 32 }
  | 5 => { s with layout := v.setWidth 8 }
  | 6 => { s with conlen := v }
  | 8 => { s with wbase := v }
  | 11 => { s with wdata := v.setWidth 32 }
  | 12 => { s with rbase := v }
  | 13 => { s with rvalid := v }
  | _ => s

/-- `TblRead(T, i)`: the entry zero-extended to 64 bits; an index above 255 reads 0 (10 R46). -/
def tblRead (s : State) (t : TableId) (i : Nat) : BitVec 64 :=
  if i < 256 then
    match t with
    | .freq => (tableGet s.freq (BitVec.ofNat 8 i)).setWidth 64
    | .len => (tableGet s.len (BitVec.ofNat 8 i)).setWidth 64
    | .code => (tableGet s.code (BitVec.ofNat 8 i)).setWidth 64
  else 0

/-! ### Ending a command (spec/00_scope.md R12, spec/60_exceptions.md R273) -/

/-- Taking an error: `STATUS.ERR` becomes the kind's code and nothing else changes (60 R273). Nothing is entered and
nothing is saved (60 R272, R274), so there is no return from it either (60 R275). -/
def raise (k : ErrKind) (s : State) : State := { s with err := k.code }

/-- Ends a command begun in `s`: "a command that ends without `raise` sets `STATUS.ERR <- 0`" and commits its changes;
a command that raises leaves all but `ERR` as before (00 R12). -/
def finish (s : State) : Except ErrKind State → Host.Outcome State Fault Refusal
  | .ok t => .next { t with err := 0 }
  | .error k => .next (raise k s)

/-- `for i in 0 .. n-1: f i`, ending at the first error (00 R13). -/
def loop {σ : Type} : Nat → (Nat → σ → Except ErrKind σ) → σ → Except ErrKind σ
  | 0, _, a => .ok a
  | n + 1, f, a => (loop n f a).bind (f n)

end Sys2Proof.Machine
end

