-- ==== Sys2Proof/Machine/Operands.lean ====
section
/-! DEFINITION. The operands of the commands: the fields of the command word (spec/30_encoding.md R92), the sample
count (spec/46_container_codec.md R231), the addressing forms (spec/20_memory.md R77), stream bits (R65). -/

namespace Sys2Proof.Machine

/-- `PUTB`'s operand: "`len = zext(w[5:0])`" (30 R92). -/
def lenOperand (len : BitVec 6) : Nat := len.toNat

/-- `PUTB`'s pattern `WDATA[len-1 : 0]` (44 R193). -/
def patternOperand (s : State) (n : Nat) : Nat := s.wdata.toNat % 2 ^ n

/-- A layout code is legal when it is 1, 3 or 4 (10 R29). -/
abbrev legalLayout (l : Nat) : Prop := l = 1 ∨ l = 3 ∨ l = 4

/-- `SampleCount(w, h, l)` (46 R231): the layout test first, then the exact product against the bound. -/
def sampleCount (p : Params) (w h l : Nat) : Except ErrKind Nat :=
  if legalLayout l then
    if w * h * l > p.maxSamples then .error .dimensionOverflow else .ok (w * h * l)
  else .error .formatMismatch

/-- `SampleCount(WIDTH, HEIGHT, LAYOUT)`. -/
def imageCount (p : Params) (s : State) : Except ErrKind Nat :=
  sampleCount p s.width.toNat s.height.toNat s.layout.toNat

/-- Addressing form (c) of 20 R77: the byte of `CON` with stream bit `q` of the writer. -/
def writerAddr (s : State) (q : Nat) : Nat := s.wbase.toNat + q / 8

/-- Addressing form (d) of 20 R77: the byte of `CON` with stream bit `q` of the reader. -/
def readerAddr (s : State) (q : Nat) : Nat := s.rbase.toNat + q / 8

/-- Stream bit `q` of a stream whose first byte is at `CON[base]`: "bit `7 - (p mod 8)` of byte
`CON[B + (p div 8)]`" (20 R65). -/
def conBit (p : Params) (s : State) (base q : Nat) : Bool :=
  (conByte p s (base + q / 8)).getLsbD (7 - q % 8)

/-- `LEN[x]` as a number. -/
def lenOf (s : State) (x : Sym) : Nat := (tableGet s.len x).toNat

/-- `CODE[x]` as a number. -/
def codeOf (s : State) (x : Sym) : Nat := (tableGet s.code x).toNat

/-- `FREQ[x]` as a number. -/
def freqOf (s : State) (x : Sym) : Nat := (tableGet s.freq x).toNat

end Sys2Proof.Machine
end

