-- ==== Sys2Proof/Machine/Assigner.lean ====
section
/-! DEFINITION. The canonical code assigner: `ASSIGN` (spec/43_canonical_assigner.md). -/

namespace Sys2Proof.Machine

/-- The Kraft sum times `2^32`: `K = sum over s with LEN[s] != 0 of 2^(32 - LEN[s])` (43 R171, R173). -/
def kraftSum (f : Sym → Nat) : Nat := sumSyms fun x => if f x = 0 then 0 else 2 ^ (maxLen - f x)

/-- Order by the key `(LEN[s], s)` (43 R172). -/
abbrev canonBefore (f : Sym → Nat) (x y : Sym) : Prop := f x < f y ∨ (f x = f y ∧ x.toNat < y.toNat)

/-- Puts a symbol in its place in a sorted list. -/
def canonInsert (f : Sym → Nat) (x : Sym) : List Sym → List Sym
  | [] => [x]
  | y :: ys => if canonBefore f x y then x :: y :: ys else y :: canonInsert f x ys

/-- `P`: "the list of all s with LEN[s] != 0, sorted ascending by the key (LEN[s], s)" (43 R172). -/
def canonOrder (f : Sym → Nat) : List Sym := (presentSyms f).foldr (canonInsert f) []

/-- `C[s] <- (C[p] + 1) << (LEN[s] - LEN[p])` along `P`, from the symbol `q` whose code is `c` on (43 R172). -/
def codesAfter (f : Sym → Nat) (q : Sym) (c : Nat) : List Sym → List (Sym × Nat)
  | [] => []
  | x :: xs => (x, (c + 1) * 2 ^ (f x - f q)) :: codesAfter f x ((c + 1) * 2 ^ (f x - f q)) xs

/-- `CanonicalCodes(LEN)` along `P`: the first symbol has code 0 (43 R172). -/
def codeList (f : Sym → Nat) : List (Sym × Nat) :=
  match canonOrder f with
  | [] => []
  | x :: xs => (x, 0) :: codesAfter f x 0 xs

/-- `CanonicalCodes(LEN)` (43 R172); 0 for a symbol without a code. -/
def canonicalCode (f : Sym → Nat) (x : Sym) : Nat := ((codeList f).lookup x).getD 0

/-- `ASSIGN` (43 R171): the length test, the Kraft test, then `CODE` and `CV <- 1`. -/
def assignCmd (s : State) : Except ErrKind State :=
  if someSym fun x => lenOf s x > maxLen then .error .codeLengthOverflow
  else if kraftSum (lenOf s) > 2 ^ maxLen then .error .formatMismatch
  else .ok { s with
    code := tableOf fun x => BitVec.ofNat 32 (canonicalCode (lenOf s) x)
    cv := true }

/-- `ASSIGN` (43 R171). -/
def execAssign (s : State) : Host.Outcome State Fault Refusal := finish s (assignCmd s)

end Sys2Proof.Machine
end

