-- ==== Sys2Proof/Machine/Reader.lean ====
section
/-! DEFINITION. The bitstream reader: `RINIT`, `GETB`, `GETS` (spec/45_bitstream_reader.md). -/

namespace Sys2Proof.Machine

/-- `Bit(q)` (45 R211): the valid-bit test, then the address test, then stream bit `q`. -/
def readBit (p : Params) (s : State) (q : Nat) : Except ErrKind Bool :=
  if q ≥ s.rvalid.toNat then .error .truncatedStream
  else if readerAddr s q ≥ p.conCap then .error .stateError
  else .ok (conBit p s s.rbase.toNat q)

/-- "`(k, v)` is a leaf for s": the symbol with `LEN[s] = k` and `CODE[s] = v` (43 R175). It is unique when `CV = 1` in
every state a run reaches; elsewhere the least one is taken (log 11). -/
def leafAt (s : State) (k v : Nat) : Option Sym := allSyms.find? fun x => lenOf s x = k ∧ codeOf s x = v

/-- Some code is longer than `k` bits and begins with `(k, v)` (43 R175). -/
def innerAt (s : State) (k v : Nat) : Bool :=
  someSym fun x => lenOf s x > k ∧ codeOf s x / 2 ^ (lenOf s x - k) = v

/-- The loop of `GETS` (45 R214) from the node `(k, v)` on: the bit must be there, then a leaf ends the walk, then a
dead node is refused. The first argument bounds the turns left; no length is above 255, so 256 turns always do. -/
def walk (p : Params) (s : State) : Nat → Nat → Nat → Except ErrKind (Sym × Nat)
  | 0, _, _ => .error .formatMismatch
  | fuel + 1, k, v =>
    (readBit p s (s.rpos.toNat + k)).bind fun b =>
      match leafAt s (k + 1) (2 * v + b.toNat) with
      | some x => .ok (x, k + 1)
      | none =>
        if innerAt s (k + 1) (2 * v + b.toNat) then walk p s fuel (k + 1) (2 * v + b.toNat)
        else .error .formatMismatch

/-- The reader initialised: `RPOS <- 0; RDATA <- 0` (45 R212). -/
def readerInit (s : State) : State := { s with rpos := 0, rdata := 0 }

/-- `GETB` (45 R213). -/
def getbCmd (p : Params) (s : State) : Except ErrKind State :=
  (readBit p s s.rpos.toNat).bind fun b =>
    .ok { s with rdata := BitVec.ofNat 8 b.toNat, rpos := BitVec.ofNat 64 (s.rpos.toNat + 1) }

/-- `GETS` (45 R214): walks from the root `(0, 0)`; nothing is consumed on an error. -/
def getsCmd (p : Params) (s : State) : Except ErrKind State :=
  if s.cv = false then .error .stateError
  else (walk p s 256 0 0).bind fun r =>
    .ok { s with rdata := r.1, rpos := BitVec.ofNat 64 (s.rpos.toNat + r.2) }

/-- `RINIT` (45 R212). -/
def execRinit (s : State) : Host.Outcome State Fault Refusal := finish s (.ok (readerInit s))

/-- `GETB` (45 R213). -/
def execGetb (s : State) : Host.Outcome State Fault Refusal := finish s (getbCmd Config.params s)

/-- `GETS` (45 R214). -/
def execGets (s : State) : Host.Outcome State Fault Refusal := finish s (getsCmd Config.params s)

end Sys2Proof.Machine
end

