-- ==== Sys2Proof/Machine/Statistics.lean ====
section
/-! DEFINITION. The frequency accumulator: `ACC` and `STAT` (spec/41_symbol_statistics.md). -/

namespace Sys2Proof.Machine

/-- `ACC sym` (41 R141). In states that break R50(a), which no run reaches, the counters wrap (log 10). -/
def accCmd (p : Params) (sym : Sym) (s : State) : Except ErrKind State :=
  if s.total.toNat = p.maxSamples then .error .dimensionOverflow
  else .ok { s with
    freq := tableSet s.freq sym (tableGet s.freq sym + 1)
    total := s.total + 1 }

/-- The table after `for s: FREQ[s] <- 0` and `for i in 0..n-1: FREQ[PIX[i]] <- FREQ[PIX[i]] + 1` (41 R143). -/
def countPix (p : Params) (s : State) : Nat → Table 32
  | 0 => tableZero 32
  | n + 1 => tableSet (countPix p s n) (pixByte p s n) (tableGet (countPix p s n) (pixByte p s n) + 1)

/-- `STAT` (41 R143): `FREQ` is replaced by the counts of `PIX[0 .. N-1]`, `TOTAL` by `N`. -/
def statCmd (p : Params) (s : State) : Except ErrKind State :=
  (imageCount p s).bind fun n =>
    if n = 0 then .error .emptyInput
    else .ok { s with freq := countPix p s n, total := BitVec.ofNat 32 n }

/-- `ACC sym` (41 R141). -/
def execAcc (sym : Sym) (s : State) : Host.Outcome State Fault Refusal := finish s (accCmd Config.params sym s)

/-- `STAT` (41 R143). -/
def execStat (s : State) : Host.Outcome State Fault Refusal := finish s (statCmd Config.params s)

end Sys2Proof.Machine
end

