-- ==== Sys2Proof/Machine/TreeBuilder.lean ====
section
/-! DEFINITION. The Huffman tree builder: `BUILD` (spec/42_tree_builder.md). The tree lives only inside the command
(10 R49). -/

namespace Sys2Proof.Machine

/-- A node with what is under it: "kind = leaf(s) or internal(left, right)" (42 R152). -/
inductive HTree where
  | leaf (x : Sym)
  | node (left right : HTree)
deriving DecidableEq, Repr

/-- A member of the pool (42 R152). -/
structure PoolItem where
  /-- The sum of the frequencies under the node, an exact natural (42 R153). -/
  weight : Nat
  /-- The order of construction, leaves first in symbol order. -/
  index : Nat
  /-- The node. -/
  tree : HTree
deriving DecidableEq, Repr

/-- "Keys are compared lexicographically" (42 R152): `(w1, i1) < (w2, i2)`. -/
abbrev keyBefore (a b : PoolItem) : Prop := a.weight < b.weight ∨ (a.weight = b.weight ∧ a.index < b.index)

/-- The item of least key among `a` and the list, and the others. -/
def takeLeast (a : PoolItem) : List PoolItem → PoolItem × List PoolItem
  | [] => (a, [])
  | b :: bs =>
    if keyBefore b a then ((takeLeast b bs).1, a :: (takeLeast b bs).2)
    else ((takeLeast a bs).1, b :: (takeLeast a bs).2)

/-- The internal node over `a` and `b`: weight the sum, the next index, first extracted is left (42 R152). -/
def mergeItems (next : Nat) (a b : PoolItem) : PoolItem where
  weight := a.weight + b.weight
  index := next
  tree := .node a.tree b.tree

/-- The internal node over the item `a` and the least of the others (42 R152); alone, `a` stays. -/
def mergeWith (next : Nat) (a : PoolItem) : List PoolItem → List PoolItem
  | [] => [a]
  | b :: bs => mergeItems next a (takeLeast b bs).1 :: (takeLeast b bs).2

/-- One turn of `repeat`: the two items of least key are replaced by their internal node (42 R152). -/
def mergeOnce (next : Nat) : List PoolItem → List PoolItem
  | [] => []
  | a :: as => mergeWith next (takeLeast a as).1 (takeLeast a as).2

/-- `repeat k times`, the internal nodes taking the indices from `next` on (42 R152). -/
def mergePool : Nat → Nat → List PoolItem → List PoolItem
  | 0, _, pool => pool
  | k + 1, next, pool => mergePool k (next + 1) (mergeOnce next pool)

/-- The leaves of the present symbols, indexed from `next` on (42 R152). -/
def leafItems (f : Sym → Nat) : Nat → List Sym → List PoolItem
  | _, [] => []
  | next, x :: xs => { weight := f x, index := next, tree := .leaf x } :: leafItems f (next + 1) xs

/-- The symbols under a node with the number of edges from a root `d` edges above it (42 R152). -/
def leafDepths : HTree → Nat → List (Sym × Nat)
  | .leaf x, d => [(x, d)]
  | .node l r, d => leafDepths l (d + 1) ++ leafDepths r (d + 1)

/-- The pool after the `n - 1` merges of 42 R152: the root alone, when a symbol is present. -/
def rootPool (f : Sym → Nat) : List PoolItem :=
  mergePool ((presentSyms f).length - 1) (presentSyms f).length (leafItems f 0 (presentSyms f))

/-- `HuffmanLengths(FREQ)`: each leaf's depth under the root (42 R152), 1 for a lone present symbol (42 R154), 0 for an
absent one. With no symbol present, which `BUILD` excludes in every state a run reaches, all are 0 (log 9). -/
def huffmanLengths (f : Sym → Nat) (x : Sym) : Nat :=
  match rootPool f with
  | [] => 0
  | root :: _ =>
    match root.tree with
    | .leaf y => if x = y then 1 else 0
    | .node l r => ((leafDepths (.node l r) 0).lookup x).getD 0

/-- `BUILD` (42 R151): `LEN` from `FREQ`, `CV <- 0`. -/
def buildCmd (s : State) : Except ErrKind State :=
  if s.total = 0 then .error .emptyInput
  else .ok { s with
    len := tableOf fun x => BitVec.ofNat 8 (huffmanLengths (freqOf s) x)
    cv := false }

/-- `BUILD` (42 R151). -/
def execBuild (s : State) : Host.Outcome State Fault Refusal := finish s (buildCmd s)

end Sys2Proof.Machine
end

