-- ==== Sys2Proof/Machine/Writer.lean ====
section
/-! DEFINITION. The bitstream writer: `WINIT`, `PUTB`, `PUTS`, `FIN` (spec/44_bitstream_writer.md). -/

namespace Sys2Proof.Machine

/-- `WACC | (b << (7 - k))` with `k = WBITS mod 8` (44 R191). -/
def accWith (s : State) (b : Bool) : BitVec 8 :=
  s.wacc ||| BitVec.ofNat 8 (b.toNat * 2 ^ (7 - s.wbits.toNat % 8))

/-- The cursor one bit further, with a new partial byte (44 R191). -/
def advance (s : State) (acc : BitVec 8) : State :=
  { s with wbits := BitVec.ofNat 64 (s.wbits.toNat + 1), wacc := acc }

/-- One turn of the loop of `Append` (44 R191): the bit enters `WACC` below those already there; when it fills the
byte, `CON[WBASE + (WBITS div 8) - 1] <- WACC` with the new `WBITS`, and `WACC <- 0`. -/
def pushBit (p : Params) (s : State) (b : Bool) : State :=
  if (s.wbits.toNat + 1) % 8 = 0 then
    advance (setCon p s (s.wbase.toNat + (s.wbits.toNat + 1) / 8 - 1) (accWith s b)) 0
  else advance s (accWith s b)

/-- `for i in n-1, n-2, ..., 0`: the low `n` bits of `v`, most significant first (44 R191). -/
def pushBits (p : Params) (v : Nat) : Nat → State → State
  | 0, s => s
  | n + 1, s => pushBits p v n (pushBit p s (v.testBit n))

/-- `Append(v, n)` (44 R191): the capacity test precedes every change. -/
def append (p : Params) (v n : Nat) (s : State) : Except ErrKind State :=
  if s.wbase.toNat + ceil8 (s.wbits.toNat + n) > p.conCap then .error .stateError
  else .ok (pushBits p v n s)

/-- The writer initialised: `WBITS <- 0; WACC <- 0; WFIN <- 0` (44 R192). -/
def writerInit (s : State) : State := { s with wbits := 0, wacc := 0, wfin := false }

/-- `PUTB len` (44 R193). A length above 32 has no encoding (30 R94); as a term it raises `IllegalCommand` (log 12). -/
def putbCmd (p : Params) (len : BitVec 6) (s : State) : Except ErrKind State :=
  if lenOperand len > 32 then .error .illegalCommand
  else if s.wfin then .error .stateError
  else append p (patternOperand s (lenOperand len)) (lenOperand len) s

/-- `PUTS sym` (44 R194). -/
def putsCmd (p : Params) (sym : Sym) (s : State) : Except ErrKind State :=
  if s.cv = false then .error .stateError
  else if lenOf s sym = 0 then .error .stateError
  else if s.wfin then .error .stateError
  else append p (codeOf s sym) (lenOf s sym) s

/-- `WFIN <- 1` (44 R195). -/
def finalise (s : State) : State := { s with wfin := true }

/-- `FIN` (44 R195): stores the partial byte, if there is one, and sets `WFIN`. -/
def finCmd (p : Params) (s : State) : Except ErrKind State :=
  if s.wfin then .error .stateError
  else if s.wbits.toNat % 8 = 0 then .ok (finalise s)
  else if writerAddr s s.wbits.toNat ≥ p.conCap then .error .stateError
  else .ok (finalise (setCon p s (writerAddr s s.wbits.toNat) s.wacc))

/-- `WINIT` (44 R192). -/
def execWinit (s : State) : Host.Outcome State Fault Refusal := finish s (.ok (writerInit s))

/-- `PUTB len` (44 R193). -/
def execPutb (len : BitVec 6) (s : State) : Host.Outcome State Fault Refusal :=
  finish s (putbCmd Config.params len s)

/-- `PUTS sym` (44 R194). -/
def execPuts (sym : Sym) (s : State) : Host.Outcome State Fault Refusal :=
  finish s (putsCmd Config.params sym s)

/-- `FIN` (44 R195). -/
def execFin (s : State) : Host.Outcome State Fault Refusal := finish s (finCmd Config.params s)

end Sys2Proof.Machine
end

