-- ==== Sys2Proof/Machine/Container.lean ====
section
/-! DEFINITION. The container codec: `WRHDR`, `ENCODE`, `PARSE`, `DECODE` (spec/46_container_codec.md), over the layout
of spec/30_encoding.md R100. -/

namespace Sys2Proof.Machine

/-! ### The encode side -/

/-- The symbols with a code, in ascending order: the pairs of 30 R102. -/
def codedSyms (s : State) : List Sym := presentSyms (lenOf s)

/-- `vbc = sum over s of FREQ[s] × LEN[s]` (46 R232). -/
def validBitCount (s : State) : Nat := sumSyms fun x => freqOf s x * lenOf s x

/-- The symbol-length pairs: symbol byte, length byte, by ascending symbol (30 R100, R102). -/
def pairBytes (s : State) : List Byte := (codedSyms s).flatMap fun x => [x, tableGet s.len x]

/-- `H`: magic, width, height, layout, count, pairs, valid-bit count (46 R233, 30 R100). -/
def headerBytes (s : State) : List Byte :=
  magic ++ leBytes 4 s.width.toNat ++ leBytes 4 s.height.toNat ++ leBytes 1 s.layout.toNat
    ++ leBytes 2 (codedSyms s).length ++ pairBytes s ++ leBytes 8 (validBitCount s)

/-- `23 + 2n`: the offset of the payload in a container of `n` pairs (30 R100). -/
def payloadOffset (n : Nat) : Nat := 23 + 2 * n

/-- The writer pointed at the payload of a container of `n` pairs and `vbc` valid bits (46 R233). -/
def pointWriter (n vbc : Nat) (s : State) : State :=
  writerInit { s with
    wbase := BitVec.ofNat 64 (payloadOffset n)
    conlen := BitVec.ofNat 64 (payloadOffset n + ceil8 vbc) }

/-- `WRHDR` (46 R233), its tests in the order of 60 R277. -/
def wrhdrCmd (p : Params) (s : State) : Except ErrKind State :=
  if s.cv = false then .error .stateError
  else (imageCount p s).bind fun n =>
    if s.total = 0 then .error .emptyInput
    else if n ≠ s.total.toNat then .error .stateError
    else if someSym fun x => ¬ (freqOf s x ≠ 0 ↔ lenOf s x ≠ 0) then .error .stateError
    else .ok (pointWriter (codedSyms s).length (validBitCount s) (storeCon p s 0 (headerBytes s)))

/-- `for i in 0 .. n-1: do PUTS(PIX[i])` (46 R234). -/
def putImage (p : Params) (n : Nat) (s : State) : Except ErrKind State :=
  loop n (fun i t => putsCmd p (pixByte p t i) t) s

/-- `ENCODE` (46 R234): `STAT`, `BUILD`, `ASSIGN`, `WRHDR`, a `PUTS` for each sample, `FIN`. -/
def encodeCmd (p : Params) (s : State) : Except ErrKind State :=
  (statCmd p s).bind fun s1 =>
  (buildCmd s1).bind fun s2 =>
  (assignCmd s2).bind fun s3 =>
  (wrhdrCmd p s3).bind fun s4 =>
  (putImage p s4.total.toNat s4).bind fun s5 =>
  finCmd p s5

/-! ### The decode side -/

/-- What `PARSE` has collected from the pairs so far: the table `L` and `prev`, which starts at -1 (46 R235). -/
abbrev PairScan := Table 8 × Int

/-- `sy` of pair `j` (46 R235). -/
def pairSym (p : Params) (s : State) (j : Nat) : Byte := conByte p s (15 + 2 * j)

/-- `ln` of pair `j` (46 R235). -/
def pairLen (p : Params) (s : State) (j : Nat) : Byte := conByte p s (16 + 2 * j)

/-- Pair `j` (46 R235): strictly ascending symbol, length not 0. -/
def parsePair (p : Params) (s : State) (j : Nat) (a : PairScan) : Except ErrKind PairScan :=
  if ((pairSym p s j).toNat : Int) ≤ a.2 then .error .formatMismatch
  else if pairLen p s j = 0 then .error .formatMismatch
  else .ok (tableSet a.1 (pairSym p s j) (pairLen p s j), ((pairSym p s j).toNat : Int))

/-- The loop over the `n` pairs (46 R235). -/
def parsePairs (p : Params) (s : State) (n : Nat) : Except ErrKind PairScan :=
  loop n (parsePair p s) (tableZero 8, -1)

/-- The header fields at their fixed offsets (30 R100). -/
def hdrWidth (p : Params) (s : State) : Nat := leVal (conBytes p s 4 4)
/-- See `hdrWidth`. -/
def hdrHeight (p : Params) (s : State) : Nat := leVal (conBytes p s 8 4)
/-- See `hdrWidth`. -/
def hdrLayout (p : Params) (s : State) : Nat := leVal (conBytes p s 12 1)
/-- See `hdrWidth`. -/
def hdrCount (p : Params) (s : State) : Nat := leVal (conBytes p s 13 2)
/-- `vbc <- le(CON[15 + 2n .. 22 + 2n])` (46 R235). -/
def hdrBits (p : Params) (s : State) (n : Nat) : Nat := leVal (conBytes p s (15 + 2 * n) 8)

/-- The end of `PARSE`: the payload test, then all the writes (46 R235). -/
def parseLoad (p : Params) (s : State) (n : Nat) (lens : Table 8) : Except ErrKind State :=
  if s.conlen.toNat - payloadOffset n < ceil8 (hdrBits p s n) then .error .truncatedStream
  else .ok { s with
    width := BitVec.ofNat 32 (hdrWidth p s)
    height := BitVec.ofNat 32 (hdrHeight p s)
    layout := BitVec.ofNat 8 (hdrLayout p s)
    len := lens
    cv := false
    rbase := BitVec.ofNat 64 (payloadOffset n)
    rvalid := BitVec.ofNat 64 (hdrBits p s n)
    rpos := 0
    rdata := 0 }

/-- `PARSE` (46 R235), its tests in the order of the pseudocode; no byte at or above `CONLEN` is read. -/
def parseCmd (p : Params) (s : State) : Except ErrKind State :=
  if s.conlen.toNat > p.conCap then .error .stateError
  else if s.conlen.toNat < 4 ∨ conBytes p s 0 4 ≠ magic then .error .formatMismatch
  else if s.conlen.toNat < 15 then .error .formatMismatch
  else (sampleCount p (hdrWidth p s) (hdrHeight p s) (hdrLayout p s)).bind fun total =>
    if hdrCount p s = 0 ∧ total > 0 then .error .formatMismatch
    else if hdrCount p s > 256 then .error .formatMismatch
    else if s.conlen.toNat < payloadOffset (hdrCount p s) then .error .formatMismatch
    else (parsePairs p s (hdrCount p s)).bind fun a => parseLoad p s (hdrCount p s) a.1

/-- `for i in 0 .. n-1: do GETS; PIX[i] <- RDATA` (46 R236). -/
def getImage (p : Params) (n : Nat) (s : State) : Except ErrKind State :=
  loop n (fun i t => (getsCmd p t).bind fun u => .ok (setPix p u i u.rdata)) s

/-- `DECODE` (46 R236): `PARSE`, `ASSIGN`, then a `GETS` and a store for each sample. -/
def decodeCmd (p : Params) (s : State) : Except ErrKind State :=
  (parseCmd p s).bind fun s1 =>
  (assignCmd s1).bind fun s2 =>
  getImage p (s2.width.toNat * s2.height.toNat * s2.layout.toNat) s2

/-! ### The meanings -/

/-- `WRHDR` (46 R233). -/
def execWrhdr (s : State) : Host.Outcome State Fault Refusal := finish s (wrhdrCmd Config.params s)

/-- `ENCODE` (46 R234). -/
def execEncode (s : State) : Host.Outcome State Fault Refusal := finish s (encodeCmd Config.params s)

/-- `PARSE` (46 R235). -/
def execParse (s : State) : Host.Outcome State Fault Refusal := finish s (parseCmd Config.params s)

/-- `DECODE` (46 R236). -/
def execDecode (s : State) : Host.Outcome State Fault Refusal := finish s (decodeCmd Config.params s)

end Sys2Proof.Machine
end

