-- ==== Sys2Proof/Machine/Control.lean ====
section
/-! DEFINITION. The control commands `NOP` and `CLR` (spec/40_control.md). -/

namespace Sys2Proof.Machine

/-- `CLR` (40 R131): every register but `ID`, and every entry of the three tables, becomes 0; `PIX` and `CON` keep
their bytes. The model's own fields are no registers of R23 and stay (log 19). -/
def clearBlock (s : State) : State :=
  { State.reset with
    pix := s.pix, con := s.con, epoch := s.epoch, script := s.script, reads := s.reads }

/-- `NOP` (40 R130): only `STATUS.ERR <- 0`. -/
def execNop (s : State) : Host.Outcome State Fault Refusal := finish s (.ok s)

/-- `CLR` (40 R131). -/
def execClr (s : State) : Host.Outcome State Fault Refusal := finish s (.ok (clearBlock s))

end Sys2Proof.Machine
end

