-- ==== Sys2Proof/Machine/Dispatch.lean ====
section
/-! DEFINITION. One arm for each command. -/

namespace Sys2Proof.Machine

def exec (i : Instr) (s : State) : Host.Outcome State Fault Refusal :=
  match i with
  | .nop => Sys2Proof.Machine.execNop s
  | .clr => Sys2Proof.Machine.execClr s
  | .acc sym => Sys2Proof.Machine.execAcc sym s
  | .stat => Sys2Proof.Machine.execStat s
  | .build => Sys2Proof.Machine.execBuild s
  | .assign => Sys2Proof.Machine.execAssign s
  | .winit => Sys2Proof.Machine.execWinit s
  | .putb len => Sys2Proof.Machine.execPutb len s
  | .puts sym => Sys2Proof.Machine.execPuts sym s
  | .fin => Sys2Proof.Machine.execFin s
  | .rinit => Sys2Proof.Machine.execRinit s
  | .getb => Sys2Proof.Machine.execGetb s
  | .gets => Sys2Proof.Machine.execGets s
  | .parse => Sys2Proof.Machine.execParse s
  | .decode => Sys2Proof.Machine.execDecode s
  | .wrhdr => Sys2Proof.Machine.execWrhdr s
  | .encode => Sys2Proof.Machine.execEncode s

end Sys2Proof.Machine
end

