-- ==== Sys2Proof/Machine/HostPort.lean ====
section
/-! DEFINITION. The host's side of the block: what each event of the script does (spec/10_state.md R24, R46,
spec/20_memory.md R61, spec/70_reset_and_hazards.md R300, R301, R305). -/

namespace Sys2Proof.Machine

/-- The bits of a value written to `CMD` that are the command word: "bits 63 to 32 of `v` are ignored" (10 R24). -/
def commandWord (v : BitVec 64) : CmdWord := v.setWidth 32

/-- A write to `CMD` (10 R24, 30 R96): an illegal word raises `IllegalCommand`, a legal one is executed. -/
def runCommand (w : CmdWord) (s : State) : Host.Outcome State Fault Refusal :=
  match decodeWord w with
  | .ok i => exec i s
  | .error _ => .next (raise .illegalCommand s)

/-- The host takes a value; a read has no other effect (10 R24, 20 R67; log 3). -/
def hostTakes (v : BitVec 64) (s : State) : State := { s with reads := v :: s.reads }

/-- Reset (70 R301): every register and table at its reset value, every byte of `PIX` and `CON` a new draw. The script
and the host's own record go on (log 6). -/
def resetBlock (s : State) : State :=
  { State.reset with epoch := s.epoch + 1, script := s.script, reads := s.reads }

/-- Is the event allowed while `BUSY = 1`? Only a poll of `STATUS` (70 R305), and reset (70 R301). -/
def allowedBusy : Event → Bool
  | .regRead n => n == 2
  | .reset => true
  | _ => false

/-- What an event does to an idle block (10 R24, R46, 20 R61). -/
def performIdle (p : Params) (e : Event) (s : State) : Host.Outcome State Fault Refusal :=
  match e with
  | .regRead n => .next (hostTakes (regRead p s n) s)
  | .regWrite n v => if n = 1 then runCommand (commandWord v) s else .next (regStore s n v)
  | .tblRead t i => .next (hostTakes (tblRead s t i) s)
  | .memRead m a =>
    if a < p.memSize m then .next (hostTakes ((memByte p s m a).setWidth 64) s) else .refused (.noSuchAddress m a)
  | .memWrite m a b =>
    if a < p.memSize m then .next (setMem p s m a b) else .refused (.noSuchAddress m a)
  | .reset => .next (resetBlock s)

/-- What an event does. -/
def perform (e : Event) (s : State) : Host.Outcome State Fault Refusal :=
  if s.busy && !allowedBusy e then .refused .hostActionWhileBusy else performIdle Config.params e s

/-- One step of the machine: the next event of the script happens; with none left the block is idle and keeps its
state (60 R285, 70 R302; log 2). -/
def stepEvent (s : State) : Host.Outcome State Fault Refusal :=
  match s.script with
  | [] => .next s
  | e :: rest => perform e { s with script := rest }

/-- The host's next action is to write the word `w` (of `nbits` bits) to `CMD`, when the block is not busy (log 1). -/
def withCommand (s : State) (nbits w : Nat) : State :=
  { s with busy := false, script := .regWrite 1 (BitVec.ofNat 64 (w % 2 ^ nbits)) :: s.script }

end Sys2Proof.Machine
end

