-- ==== Sys2Proof/Machine/Step.lean ====
section
/-! DEFINITION. One step of the machine, and the host's probe that places a command. -/

namespace Sys2Proof.Machine

/-- One step: the next event of the script (log 1). -/
def step (s : State) : Host.Outcome State Fault Refusal := stepEvent s

/-- `s` with a write of the word `w` to `CMD` as the host's next action: where this machine takes its next command
from (log 1). -/
def State.withFetchWord (s : State) (nbits w : Nat) : State := withCommand s nbits w

end Sys2Proof.Machine
end

