-- ==== Sys2Proof/Safety.lean ====
section
/-! DEFINITION. The terms the claims are stated in: the invariants of spec/10_state.md R50 and the model's own, what a
stream and a container in `CON` are, what a run of commands is. -/

namespace Sys2Proof.Machine

/-! ### Invariants -/

/-- 10 R50(a): "`TOTAL = sum of FREQ[s] for s in 0..255`, and `TOTAL <= MAX_SAMPLES`". -/
def CountsOk (p : Params) (s : State) : Prop :=
  s.total.toNat = sumSyms (freqOf s) ∧ s.total.toNat ≤ p.maxSamples

/-- 10 R50(b): "the bit positions of `WACC` not yet filled are zero". -/
def PartialOk (s : State) : Prop := ∀ j, j < 8 - s.wbits.toNat % 8 → s.wacc.getLsbD j = false

/-- 10 R40: `CV = 1` means that "`CODE` holds the canonical code of `LEN`, every `LEN[s] <= 32`, and the Kraft sum of
`LEN` is at most 1". -/
def CodeOk (s : State) : Prop :=
  s.cv = true → (∀ x, lenOf s x ≤ 32) ∧ kraftSum (lenOf s) ≤ 2 ^ 32 ∧
    ∀ x, codeOf s x = canonicalCode (lenOf s) x

/-- 10 R50(c). -/
def CodeBounded (s : State) : Prop :=
  s.cv = true → (∀ x, lenOf s x ≤ 32) ∧ kraftSum (lenOf s) ≤ 2 ^ 32 ∧
    (∀ x, lenOf s x ≠ 0 → codeOf s x < 2 ^ lenOf s x) ∧ ∀ x, lenOf s x = 0 → codeOf s x = 0

/-- 10 R50(d), its part about the writer: "`WBITS <= 8 × CONCAP`". -/
def CursorOk (p : Params) (s : State) : Prop := s.wbits.toNat ≤ 8 * p.conCap

/-- Both memories are in the canonical form, inside their ranges (log 5). -/
def MemOk (p : Params) (s : State) : Prop :=
  Memory.wf (fresh p s .pix) p.maxSamples s.pix ∧ Memory.wf (fresh p s .con) p.conCap s.con

/-- 10 R42: "the bit always reads 0 between steps"; 60 R270: "Codes 8 to 15 are never produced". -/
def StatusOk (s : State) : Prop := s.busy = false ∧ s.err.toNat ≤ 7

/-- All of them. -/
structure Inv (p : Params) (s : State) : Prop where
  counts : CountsOk p s
  unfilled : PartialOk s
  code : CodeOk s
  cursor : CursorOk p s
  mem : MemOk p s
  status : StatusOk s

/-! ### Streams (spec/20_memory.md R65, spec/30_encoding.md R104) -/

/-- The `n` low bits of `v`, most significant first: the order in which a pattern is laid down (20 R65). -/
def patternBits (v n : Nat) : List Bool := (List.range n).map fun i => v.testBit (n - 1 - i)

/-- The canonical code of `x` under the lengths `f`, as the bit string `C[s][LEN[s]-1 : 0]` (43 R172). -/
def codeBits (f : Sym → Nat) (x : Sym) : List Bool := patternBits (canonicalCode f x) (f x)

/-- The concatenation of the codes of a sequence of symbols (30 R103). -/
def streamOf (f : Sym → Nat) (xs : List Sym) : List Bool := xs.flatMap (codeBits f)

/-- The stream of `CON` from byte `base` on begins with these bits. -/
def HoldsBits (p : Params) (s : State) (base : Nat) (bits : List Bool) : Prop :=
  ∀ q (h : q < bits.length), conBit p s base q = bits[q]

/-- Bit `q < WBITS` of the writer's stream: in `CON` when its byte is full, else still in `WACC` (70 R307). -/
def writerBit (p : Params) (s : State) (q : Nat) : Bool :=
  if q / 8 < s.wbits.toNat / 8 then conBit p s s.wbase.toNat q else s.wacc.getLsbD (7 - q % 8)

/-- What `Append(v, n)` does to a state, `STATUS.ERR` aside (44 R191): the `n` low bits of `v` follow the bits already
there; only the bytes that become full are stored; nothing else changes but `WBITS` and `WACC`. -/
structure Appended (p : Params) (v n : Nat) (s t : State) : Prop where
  others : t = { s with wbits := t.wbits, wacc := t.wacc, con := t.con, err := t.err }
  cursor : t.wbits.toNat = s.wbits.toNat + n
  kept : ∀ q, q < s.wbits.toNat → writerBit p t q = writerBit p s q
  added : ∀ j, j < n → writerBit p t (s.wbits.toNat + j) = v.testBit (n - 1 - j)
  unfilled : PartialOk t
  bytes : ∀ a, a < writerAddr s s.wbits.toNat ∨ writerAddr s (s.wbits.toNat + n) ≤ a →
    conByte p t a = conByte p s a

/-- A sequence of `Append(v, n)` (44 R196). -/
def appendAll (p : Params) : List (Nat × Nat) → State → Except ErrKind State
  | [], s => .ok s
  | w :: ws, s => (append p w.1 w.2 s).bind (appendAll p ws)

/-- A sequence of `PUTS` (45 R215). -/
def putAll (p : Params) : List Sym → State → Except ErrKind State
  | [], s => .ok s
  | x :: xs, s => (putsCmd p x s).bind (putAll p xs)

/-- `n` times `GETS`, with the symbols in the order read (45 R215). -/
def getAll (p : Params) : Nat → State → Except ErrKind (List Sym × State)
  | 0, s => .ok ([], s)
  | n + 1, s => (getsCmd p s).bind fun t => (getAll p n t).bind fun r => .ok (t.rdata :: r.1, r.2)

/-- The value of the first `k` bits from the reader's cursor on: the node `(k, v)` they lead to (43 R175). -/
def nodeValue (p : Params) (s : State) : Nat → Nat
  | 0 => 0
  | k + 1 => 2 * nodeValue p s k + (conBit p s s.rbase.toNat (s.rpos.toNat + k)).toNat

/-! ### Images and containers (spec/30_encoding.md R100 to R103) -/

/-- `WIDTH × HEIGHT × LAYOUT` (00 R14). -/
def sampleTotal (s : State) : Nat := s.width.toNat * s.height.toNat * s.layout.toNat

/-- `PIX[0], ..., PIX[n-1]`. -/
def pixels (p : Params) (s : State) (n : Nat) : List Sym := (List.range n).map (pixByte p s)

/-- How often each symbol occurs in `PIX[0 .. n-1]` (41 R143). -/
def pixCount (p : Params) (s : State) (n : Nat) (x : Sym) : Nat := (pixels p s n).count x

/-- The header, the code table and the valid-bit count of `CON` are those of the lengths `f` (30 R100 to R102): what
`PARSE` asks of a container (46 R235). -/
structure HoldsHeader (p : Params) (s : State) (f : Sym → Nat) : Prop where
  fits : s.conlen.toNat ≤ p.conCap
  magic : conBytes p s 0 4 = Sys2Proof.Machine.magic
  layout : legalLayout (hdrLayout p s)
  bound : hdrWidth p s * hdrHeight p s * hdrLayout p s ≤ p.maxSamples
  count : hdrCount p s = (presentSyms f).length
  lengths : ∀ x, f x < 256
  pairs : conBytes p s 15 (2 * (presentSyms f).length) =
    (presentSyms f).flatMap fun x => [x, BitVec.ofNat 8 (f x)]
  empty : hdrCount p s = 0 → hdrWidth p s * hdrHeight p s * hdrLayout p s = 0
  whole : payloadOffset (presentSyms f).length + ceil8 (hdrBits p s (presentSyms f).length) ≤ s.conlen.toNat

/-- `CON[0 .. CONLEN-1]` is a container of the image `img` under the code lengths `f` (30 R100 to R103). -/
structure HoldsContainer (p : Params) (s : State) (f : Sym → Nat) (img : List Sym) : Prop where
  header : HoldsHeader p s f
  admitted : ∀ x, f x ≤ 32
  kraft : kraftSum f ≤ 2 ^ 32
  samples : hdrWidth p s * hdrHeight p s * hdrLayout p s = img.length
  coded : ∀ x ∈ img, f x ≠ 0
  valid : (streamOf f img).length ≤ hdrBits p s (presentSyms f).length
  payload : HoldsBits p s (payloadOffset (presentSyms f).length) (streamOf f img)

/-! ### The tree builder without a tree (spec/42_tree_builder.md R155) -/

/-- The symbols under a node. -/
def symsUnder : HTree → List Sym
  | .leaf x => [x]
  | .node l r => symsUnder l ++ symsUnder r

/-- The number of internal nodes of a tree (42 R156(a)). -/
def innerCount : HTree → Nat
  | .leaf _ => 0
  | .node l r => innerCount l + innerCount r + 1

/-- The pool of 42 R152 after `k` merges. -/
def poolAfter (f : Sym → Nat) (k : Nat) : List PoolItem :=
  mergePool k (presentSyms f).length (leafItems f 0 (presentSyms f))

/-- The symbols under the two items that one turn of `repeat` takes out of the pool (42 R155). -/
def mergedSyms : List PoolItem → List Sym
  | [] => []
  | a :: as =>
    match (takeLeast a as).2 with
    | [] => []
    | b :: bs => symsUnder (takeLeast a as).1.tree ++ symsUnder (takeLeast b bs).1.tree

/-- "Each merge ... adds 1 to `depth[s]` for every symbol `s` under either" (42 R155). -/
def mergeDepths : Nat → Nat → List PoolItem → (Sym → Nat) → Sym → Nat
  | 0, _, _, depth => depth
  | k + 1, next, pool, depth =>
    mergeDepths k (next + 1) (mergeOnce next pool) fun x =>
      if x ∈ mergedSyms pool then depth x + 1 else depth x

/-! ### Results and runs of commands -/

/-- The kinds 60 R271 lists for a command, legal words only. -/
def kindsOf : Instr → List ErrKind
  | .nop => []
  | .clr => []
  | .acc _ => [.dimensionOverflow]
  | .stat => [.formatMismatch, .dimensionOverflow, .emptyInput]
  | .build => [.emptyInput]
  | .assign => [.codeLengthOverflow, .formatMismatch]
  | .winit => []
  | .putb _ => [.stateError]
  | .puts _ => [.stateError]
  | .fin => [.stateError]
  | .rinit => []
  | .getb => [.truncatedStream, .stateError]
  | .gets => [.stateError, .truncatedStream, .formatMismatch]
  | .parse => [.stateError, .formatMismatch, .dimensionOverflow, .truncatedStream]
  | .decode => [.stateError, .formatMismatch, .dimensionOverflow, .truncatedStream, .codeLengthOverflow]
  | .wrhdr => [.stateError, .formatMismatch, .dimensionOverflow, .emptyInput]
  | .encode => [.formatMismatch, .dimensionOverflow, .emptyInput, .codeLengthOverflow]

/-- What a command may change, by the columns "registers written" and the tables and memories marked w of 20 R76, and
of a memory only the bytes that the command's own rule stores (44 R191, R195; 46 R233, R234, R236); everything else is
as before. The three fields of the model's own never change. -/
def Frame (p : Params) (i : Instr) (s t : State) : Prop :=
  match i with
  | .nop => t = { s with err := t.err }
  | .clr =>
    t.pix = s.pix ∧ t.con = s.con ∧ t.epoch = s.epoch ∧ t.script = s.script ∧ t.reads = s.reads
  | .acc _ => t = { s with freq := t.freq, total := t.total, err := t.err }
  | .stat => t = { s with freq := t.freq, total := t.total, err := t.err }
  | .build => t = { s with len := t.len, cv := t.cv, err := t.err }
  | .assign => t = { s with code := t.code, cv := t.cv, err := t.err }
  | .winit => t = { s with wbits := t.wbits, wacc := t.wacc, wfin := t.wfin, err := t.err }
  | .putb n =>
    t = { s with wbits := t.wbits, wacc := t.wacc, con := t.con, err := t.err } ∧
    ∀ a, a < writerAddr s s.wbits.toNat ∨ writerAddr s (s.wbits.toNat + n.toNat) ≤ a → conByte p t a = conByte p s a
  | .puts x =>
    t = { s with wbits := t.wbits, wacc := t.wacc, con := t.con, err := t.err } ∧
    ∀ a, a < writerAddr s s.wbits.toNat ∨ writerAddr s (s.wbits.toNat + lenOf s x) ≤ a → conByte p t a = conByte p s a
  | .fin =>
    t = { s with wfin := t.wfin, con := t.con, err := t.err } ∧
    ∀ a, s.wbits.toNat % 8 = 0 ∨ a ≠ writerAddr s s.wbits.toNat → conByte p t a = conByte p s a
  | .rinit => t = { s with rpos := t.rpos, rdata := t.rdata, err := t.err }
  | .getb => t = { s with rpos := t.rpos, rdata := t.rdata, err := t.err }
  | .gets => t = { s with rpos := t.rpos, rdata := t.rdata, err := t.err }
  | .parse =>
    t = { s with
      width := t.width, height := t.height, layout := t.layout, cv := t.cv, rbase := t.rbase, rvalid := t.rvalid
      rpos := t.rpos, rdata := t.rdata, len := t.len, err := t.err }
  | .decode =>
    t = { s with
      width := t.width, height := t.height, layout := t.layout, cv := t.cv, rbase := t.rbase, rvalid := t.rvalid
      rpos := t.rpos, rdata := t.rdata, len := t.len, code := t.code, pix := t.pix, err := t.err } ∧
    ∀ a, sampleTotal t ≤ a → pixByte p t a = pixByte p s a
  | .wrhdr =>
    t = { s with
      conlen := t.conlen, wbase := t.wbase, wbits := t.wbits, wacc := t.wacc, wfin := t.wfin, con := t.con
      err := t.err } ∧
    ∀ a, payloadOffset (codedSyms s).length ≤ a → conByte p t a = conByte p s a
  | .encode =>
    t = { s with
      total := t.total, cv := t.cv, conlen := t.conlen, wbase := t.wbase, wbits := t.wbits, wacc := t.wacc
      wfin := t.wfin, freq := t.freq, len := t.len, code := t.code, con := t.con, err := t.err } ∧
    ∀ a, t.conlen.toNat ≤ a → conByte p t a = conByte p s a

/-- Commands executed one after the other, whatever their results. -/
def execAll : List Instr → State → Host.Outcome State Fault Refusal
  | [], s => .next s
  | i :: is, s =>
    match exec i s with
    | .next t => execAll is t
    | .fault r => .fault r
    | .refused r => .refused r

end Sys2Proof.Machine
end

