-- ==== Sys2Proof/Certificates/Slice0/Obligations.lean ====
section
/-! DEFINITION. The statements for the provers, about the machine and not about a program. Every one is for the
implementation at hand, `Config.params`, whose parameters are open: so for every `MAX_SAMPLES` and every content of
the memories after reset. -/

open Sys2Proof Sys2Proof.Machine

/-! ### The command word (spec/30_encoding.md part A) -/

/-- 30 R91, R93, R97: the word of a command decodes to that command, with its operand at every value. -/
def Obligations.DecodeOfEncodeIsTheCommand : Prop :=
  ∀ i : Instr, i.wellFormed = true → decodeWord (encodeInstr i) = .ok i

/-- 30 R94, R96: a word that decodes is the word of the command it decodes to: each legal word has one meaning and each
command one word. -/
def Obligations.EncodeOfDecodedWordIsTheWord : Prop :=
  ∀ (w : CmdWord) (i : Instr), decodeWord w = .ok i → i.wellFormed = true ∧ encodeInstr i = w

/-- 30 R94: which words are illegal, written from the numbers of the word, and what executing one does in any state. -/
def Obligations.IllegalWordsRaiseIllegalCommand : Prop :=
  (∀ w : CmdWord, (∃ e, decodeWord w = .error e) ↔
    (w.toNat / 2 ^ 24 ∉ [0x00, 0x01, 0x10, 0x11, 0x20, 0x30, 0x40, 0x41, 0x42, 0x43, 0x50, 0x51, 0x52, 0x60, 0x61,
        0x62, 0x63] ∨
      w.toNat / 2 ^ 8 % 2 ^ 16 ≠ 0 ∨
      (w.toNat / 2 ^ 24 ∈ [0x00, 0x01, 0x11, 0x20, 0x30, 0x40, 0x43, 0x50, 0x51, 0x52, 0x60, 0x61, 0x62, 0x63] ∧
        w.toNat % 2 ^ 8 ≠ 0) ∨
      (w.toNat / 2 ^ 24 = 0x41 ∧ (w.toNat / 2 ^ 6 % 2 ^ 2 ≠ 0 ∨ w.toNat % 2 ^ 6 > 32)))) ∧
  ∀ (w : CmdWord) (e : IllegalWord), decodeWord w = .error e →
    ∀ s : State, runCommand w s = .next { s with err := 6 }

/-- 30 R93 and 95 T4: words written out from the table decode to their commands, their neighbours are refused. -/
def Obligations.WordsOfTheTableDecode : Prop :=
  decodeWord 0x00000000 = .ok .nop ∧ decodeWord 0x01000000 = .ok .clr ∧ decodeWord 0x1000000A = .ok (.acc 10) ∧
  decodeWord 0x11000000 = .ok .stat ∧ decodeWord 0x20000000 = .ok .build ∧ decodeWord 0x30000000 = .ok .assign ∧
  decodeWord 0x40000000 = .ok .winit ∧ decodeWord 0x41000020 = .ok (.putb 32) ∧
  decodeWord 0x4200001E = .ok (.puts 30) ∧ decodeWord 0x43000000 = .ok .fin ∧ decodeWord 0x50000000 = .ok .rinit ∧
  decodeWord 0x51000000 = .ok .getb ∧ decodeWord 0x52000000 = .ok .gets ∧ decodeWord 0x60000000 = .ok .parse ∧
  decodeWord 0x61000000 = .ok .decode ∧ decodeWord 0x62000000 = .ok .wrhdr ∧ decodeWord 0x63000000 = .ok .encode ∧
  decodeWord 0x64000000 = .error .unassignedOpcode ∧ decodeWord 0x10000100 = .error .reservedBits ∧
  decodeWord 0x00000001 = .error .operandRange ∧ decodeWord 0x41000021 = .error .operandRange ∧
  decodeWord 0x41000040 = .error .operandRange

/-! ### Steps and host actions -/

/-- 10 R24, 30 R96: a step whose event is a write of a legal word to `CMD` is `exec` of the command, on the state with
the event taken off the script; bits 63 to 32 of the value are ignored; an illegal word sets `ERR` only. That the host's
actions stand in a script is the model's choice (log 1). -/
def Obligations.StepRunsTheDecodedCommand : Prop :=
  ∀ (s : State) (v : BitVec 64) (rest : List Event), s.busy = false → s.script = .regWrite 1 v :: rest →
    (∀ i, decodeWord (v.setWidth 32) = .ok i → step s = exec i { s with script := rest }) ∧
    ∀ e, decodeWord (v.setWidth 32) = .error e → step s = .next { s with script := rest, err := 6 }

/-- 60 R286, 70 R302: a step of a block that is not busy has a next state, unless the host's action is an access
outside a memory, which is refused (the model's choice of a stop, log 8); with nothing left to happen the state stays
(the model's choice, log 2). -/
def Obligations.StepAnswersUnlessOutsideAMemory : Prop :=
  ∀ s : State, s.busy = false →
    (s.script = [] ∧ step s = .next s) ∨
    (∃ e rest t, s.script = e :: rest ∧ step s = .next t ∧ t.script = rest) ∨
    ∃ m a rest, Config.params.memSize m ≤ a ∧
      (s.script = .memRead m a :: rest ∨ ∃ b, s.script = .memWrite m a b :: rest) ∧
      step s = .refused (.noSuchAddress m a)

/-- 10 R24: `RegRead` of each register, `RegWrite` of each register but `CMD`. The record of what was read is the
model's own (log 3). -/
def Obligations.HostRegisterAccess : Prop :=
  ∀ (s : State) (rest : List Event), s.busy = false →
    (∀ n, s.script = .regRead n :: rest →
      ∃ v, step s = .next { s with script := rest, reads := v :: s.reads } ∧
        (n = 0 → v = 0x48554631) ∧ (n = 1 → v = 0) ∧
        (n = 2 → v.toNat = s.err.toNat + 16 * s.cv.toNat + 32 * s.wfin.toNat) ∧
        (n = 3 → v.toNat = s.width.toNat) ∧ (n = 4 → v.toNat = s.height.toNat) ∧
        (n = 5 → v.toNat = s.layout.toNat) ∧ (n = 6 → v = s.conlen) ∧ (n = 7 → v.toNat = s.total.toNat) ∧
        (n = 8 → v = s.wbase) ∧ (n = 9 → v = s.wbits) ∧ (n = 10 → v.toNat = s.wacc.toNat) ∧
        (n = 11 → v.toNat = s.wdata.toNat) ∧ (n = 12 → v = s.rbase) ∧ (n = 13 → v = s.rvalid) ∧
        (n = 14 → v = s.rpos) ∧ (n = 15 → v.toNat = s.rdata.toNat) ∧ (n > 15 → v = 0)) ∧
    (∀ n v, n ≠ 1 → s.script = .regWrite n v :: rest →
      ∃ t, step s = .next t ∧
        t = { s with
          script := rest, width := t.width, height := t.height, layout := t.layout, conlen := t.conlen
          wbase := t.wbase, wdata := t.wdata, rbase := t.rbase, rvalid := t.rvalid } ∧
        t.width = (if n = 3 then v.setWidth 32 else s.width) ∧
        t.height = (if n = 4 then v.setWidth 32 else s.height) ∧
        t.layout = (if n = 5 then v.setWidth 8 else s.layout) ∧
        t.conlen = (if n = 6 then v else s.conlen) ∧
        t.wbase = (if n = 8 then v else s.wbase) ∧
        t.wdata = (if n = 11 then v.setWidth 32 else s.wdata) ∧
        t.rbase = (if n = 12 then v else s.rbase) ∧
        t.rvalid = (if n = 13 then v else s.rvalid))

/-- 10 R46: `TblRead`, and no host action but a command changes a table. The record of what was read is the model's
own (log 3). -/
def Obligations.HostTableAccess : Prop :=
  ∀ (s : State) (rest : List Event), s.busy = false →
    (∀ T i, s.script = .tblRead T i :: rest →
      ∃ v, step s = .next { s with script := rest, reads := v :: s.reads } ∧
        (i ≥ 256 → v = 0) ∧
        ∀ x : Sym, x.toNat = i →
          v.toNat = match T with
            | .freq => freqOf s x
            | .len => lenOf s x
            | .code => codeOf s x) ∧
    (∀ e t, s.script = e :: rest → (∀ v, e ≠ .regWrite 1 v) → e ≠ .reset → step s = .next t →
      t.freq = s.freq ∧ t.len = s.len ∧ t.code = s.code)

/-- 20 R61: `HostRead` and `HostWrite` inside a memory, and that they are no action outside it. The record of what was
read (log 3) and the refusal outside (log 8) are the model's own. -/
def Obligations.HostMemoryAccess : Prop :=
  ∀ (s : State) (rest : List Event) (m : MemId) (a : Nat), s.busy = false →
    (a < Config.params.memSize m → s.script = .memRead m a :: rest →
      step s = .next { s with
        script := rest, reads := (memByte Config.params s m a).setWidth 64 :: s.reads }) ∧
    (∀ b, a < Config.params.memSize m → s.script = .memWrite m a b :: rest →
      ∃ t, step s = .next t ∧ t = { s with script := rest, pix := t.pix, con := t.con } ∧
        ∀ m' a', memByte Config.params t m' a' =
          if m' = m ∧ a' = a then b else memByte Config.params s m' a') ∧
    (Config.params.memSize m ≤ a → (s.script = .memRead m a :: rest ∨ ∃ b, s.script = .memWrite m a b :: rest) →
      step s = .refused (.noSuchAddress m a))

/-- 10 R51, 70 R301: what reset leaves, in the machine right after reset and after a reset in any state, busy or not.
The bytes of the memories are the free draws of the latest reset (log 5): no value is claimed of them. That the script
and the host's record of reads go on is the model's choice (log 6). -/
def Obligations.ResetClearsRegistersAndTables : Prop :=
  ∀ (s : State) (rest : List Event), s.script = .reset :: rest →
    ∃ t, step s = .next t ∧ t.script = rest ∧ t.reads = s.reads ∧
      ∀ (u : State) (k : Nat), (u = State.reset ∧ k = 0 ∨ u = t ∧ k = s.epoch + 1) →
        regRead Config.params u 0 = 0x48554631 ∧ (∀ n, n ≠ 0 → regRead Config.params u n = 0) ∧
        (∀ x, freqOf u x = 0 ∧ lenOf u x = 0 ∧ codeOf u x = 0) ∧ u.busy = false ∧
        ∀ m a, memByte Config.params u m a = Config.draw m k a

/-! ### Results (spec/60_exceptions.md) -/

/-- 60 R273: a command that ends with an error kind changes `STATUS.ERR` to the kind's code and nothing else; also
`ENCODE` and `DECODE`. -/
def Obligations.FailedCommandChangesOnlyErr : Prop :=
  ∀ (i : Instr) (s t : State), exec i s = .next t → t.err ≠ 0 →
    t = { s with err := t.err } ∧ ∃ k : ErrKind, t.err = k.code

/-- 60 R286: every command in every state has a next state. -/
def Obligations.EveryCommandHasANextState : Prop :=
  ∀ (i : Instr) (s : State), ∃ t, exec i s = .next t

/-- 60 R271: "A kind not listed for a command is never raised by it." -/
def Obligations.ErrorKindsOfEachCommand : Prop :=
  ∀ (i : Instr) (s t : State), i.wellFormed = true → exec i s = .next t →
    t.err = 0 ∨ ∃ k ∈ kindsOf i, t.err = k.code

/-- 20 R76: what each command may change; of a memory, only the bytes its rule stores, at the addresses the meaning
computes (44 R191, R195; 46 R233, R234, R236). -/
def Obligations.CommandsChangeOnlyTheirColumns : Prop :=
  ∀ (i : Instr) (s t : State), exec i s = .next t → Frame Config.params i s t

/-- 70 R304: the first commands on the reset state, whatever `PIX` and `CON` hold and whatever is still to come. -/
def Obligations.FirstCommandsOnTheResetState : Prop :=
  ∀ (pix con : Memory) (epoch : Nat) (script : List Event) (reads : List (BitVec 64)),
    let F : State := { State.reset with pix := pix, con := con, epoch := epoch, script := script, reads := reads }
    exec .nop F = .next F ∧ exec .clr F = .next F ∧ exec .winit F = .next F ∧ exec .rinit F = .next F ∧
    exec (.putb 0) F = .next F ∧ exec .assign F = .next { F with cv := true } ∧
    exec .fin F = .next { F with wfin := true } ∧
    (∀ x, ∃ t, exec (.acc x) F = .next t ∧ t = { F with freq := t.freq, total := 1 } ∧
      ∀ y, freqOf t y = if y = x then 1 else 0) ∧
    exec .build F = .next { F with err := 1 } ∧ exec .stat F = .next { F with err := 3 } ∧
    exec .encode F = .next { F with err := 3 } ∧ exec .parse F = .next { F with err := 3 } ∧
    exec .decode F = .next { F with err := 3 } ∧ (∀ x, exec (.puts x) F = .next { F with err := 7 }) ∧
    exec .gets F = .next { F with err := 7 } ∧ exec .wrhdr F = .next { F with err := 7 } ∧
    exec .getb F = .next { F with err := 4 }

/-! ### Invariants (spec/10_state.md R50) -/

/-- The machine right after reset meets the invariants: those of 10 R50, and the canonical form of both memories,
which is the model's own choice (log 5). -/
def Obligations.ResetMeetsTheInvariants : Prop := Inv Config.params State.reset

/-- 10 R50(a), (b), (c), (d), R40, R42 and the canonical form of the memories (the model's own, log 5): every step, from every state that meets
them, whatever the host does, leaves a state that meets them. -/
def Obligations.StepKeepsTheInvariants : Prop :=
  ∀ s t : State, Inv Config.params s → step s = .next t → Inv Config.params t

/-- The canonical form of both memories (the model's own choice, log 5) on its own. -/
def Obligations.StepKeepsTheMemoriesCanonical : Prop :=
  ∀ s t : State, MemOk Config.params s → step s = .next t → MemOk Config.params t

/-- 10 R50(c): what `CV = 1` says of the entries, from what it says of the code (R40). -/
def Obligations.ValidCodeIsBounded : Prop := ∀ s : State, CodeOk s → CodeBounded s

/-- 10 R50(d): "whenever a reader command succeeded, `RPOS <= RVALID` at that time". -/
def Obligations.ReaderCursorStaysInsideTheStream : Prop :=
  ∀ (i : Instr) (s t : State), i ∈ [Instr.getb, .gets, .parse, .decode] → exec i s = .next t → t.err = 0 →
    t.rpos.toNat ≤ t.rvalid.toNat

/-! ### Control, and the two initialisations -/

/-- 40 R130, R131, 44 R192, 45 R212: `NOP`, `CLR`, `WINIT`, `RINIT` in every state. -/
def Obligations.ControlCommandsEffect : Prop :=
  ∀ s : State,
    exec .nop s = .next { s with err := 0 } ∧
    exec .clr s = .next {
      err := 0, cv := false, wfin := false, busy := false, width := 0, height := 0, layout := 0, conlen := 0
      total := 0, wbase := 0, wbits := 0, wacc := 0, wdata := 0, rbase := 0, rvalid := 0, rpos := 0, rdata := 0
      freq := Vector.replicate 256 0, len := Vector.replicate 256 0, code := Vector.replicate 256 0
      pix := s.pix, con := s.con, epoch := s.epoch, script := s.script, reads := s.reads } ∧
    exec .winit s = .next { s with wbits := 0, wacc := 0, wfin := false, err := 0 } ∧
    exec .rinit s = .next { s with rpos := 0, rdata := 0, err := 0 }

/-! ### The frequency accumulator (spec/41_symbol_statistics.md) -/

/-- 41 R141: `ACC` adds one to one count and to `TOTAL`, exactly (R142), or refuses at the bound. -/
def Obligations.AccCountsOneSymbol : Prop :=
  ∀ (s : State) (x : Sym), CountsOk Config.params s →
    (s.total.toNat ≠ Config.params.maxSamples →
      ∃ t, exec (.acc x) s = .next t ∧ t = { s with freq := t.freq, total := t.total, err := 0 } ∧
        t.total.toNat = s.total.toNat + 1 ∧
        ∀ y, freqOf t y = if y = x then freqOf s y + 1 else freqOf s y) ∧
    (s.total.toNat = Config.params.maxSamples → exec (.acc x) s = .next { s with err := 5 })

/-- 41 R140: from the cleared block, `ACC` of each symbol of a sequence leaves in `FREQ` exactly how often each symbol
occurs in it, and in `TOTAL` its length, whatever the order. -/
def Obligations.AccSequenceCountsItsSymbols : Prop :=
  ∀ (s : State) (xs : List Sym), xs.length ≤ Config.params.maxSamples →
    ∃ t, execAll (.clr :: xs.map .acc) s = .next t ∧ t.err = 0 ∧ t.total.toNat = xs.length ∧
      ∀ y, freqOf t y = xs.count y

/-- 41 R143: `STAT` replaces `FREQ` by the counts of the image, or refuses, in the order of its errors. -/
def Obligations.StatCountsTheImage : Prop :=
  ∀ s : State,
    (legalLayout s.layout.toNat → sampleTotal s ≤ Config.params.maxSamples → sampleTotal s ≠ 0 →
      ∃ t, exec .stat s = .next t ∧ t = { s with freq := t.freq, total := t.total, err := 0 } ∧
        t.total.toNat = sampleTotal s ∧ ∀ x, freqOf t x = pixCount Config.params s (sampleTotal s) x) ∧
    (¬ legalLayout s.layout.toNat → exec .stat s = .next { s with err := 3 }) ∧
    (legalLayout s.layout.toNat → sampleTotal s > Config.params.maxSamples →
      exec .stat s = .next { s with err := 5 }) ∧
    (legalLayout s.layout.toNat → sampleTotal s = 0 → exec .stat s = .next { s with err := 1 })

/-! ### The tree builder (spec/42_tree_builder.md) -/

/-- 42 R151: `BUILD` writes the Huffman lengths into the 8-bit entries without loss and clears `CV`, or refuses an empty
table. -/
def Obligations.BuildWritesHuffmanLengths : Prop :=
  ∀ s : State,
    (s.total ≠ 0 →
      ∃ t, exec .build s = .next t ∧ t = { s with len := t.len, cv := false, err := 0 } ∧
        ∀ x, lenOf t x = huffmanLengths (freqOf s) x) ∧
    (s.total = 0 → exec .build s = .next { s with err := 1 })

/-- 42 R152 with its tie-break: the leaves are the present symbols, ascending, with indices 0, 1, ...; each merge takes
the item of least key `(weight, index)`, then the least of the others, and puts back their internal node, first taken
left, with the next index; the length of a symbol is its depth under the root. R156(a), R153: one root, whose weight is
the sum of the counts, every present symbol once among its leaves, one internal node fewer than leaves. -/
def Obligations.HuffmanTreeShape : Prop :=
  ∀ f : Sym → Nat, presentSyms f ≠ [] →
    (presentSyms f).Pairwise (fun x y => x.toNat < y.toNat) ∧ (∀ x, x ∈ presentSyms f ↔ f x ≠ 0) ∧
    poolAfter f 0 = ((presentSyms f).zipIdx.map fun e => { weight := f e.1, index := e.2, tree := .leaf e.1 }) ∧
    (∀ k, k + 1 < (presentSyms f).length →
      ∃ a b rest, (poolAfter f k).Perm (a :: b :: rest) ∧ (∀ c ∈ b :: rest, keyBefore a c) ∧
        (∀ c ∈ rest, keyBefore b c) ∧
        (poolAfter f (k + 1)).Perm
          ({ weight := a.weight + b.weight, index := (presentSyms f).length + k, tree := .node a.tree b.tree } ::
            rest)) ∧
    rootPool f = poolAfter f ((presentSyms f).length - 1) ∧
    (∀ root, rootPool f = [root] → (presentSyms f).length ≥ 2 →
      ∀ x d, (x, d) ∈ leafDepths root.tree 0 → huffmanLengths f x = d) ∧
    ∃ root, rootPool f = [root] ∧ root.weight = sumSyms f ∧ (symsUnder root.tree).Perm (presentSyms f) ∧
      innerCount root.tree + 1 = (presentSyms f).length

/-- 42 R151(c), R154, R156(c): exactly the present symbols have a length; a lone one has 1; of two or more each has at
most `n - 1`. -/
def Obligations.HuffmanLengthBounds : Prop :=
  ∀ (f : Sym → Nat) (x : Sym),
    (huffmanLengths f x = 0 ↔ f x = 0) ∧
    (f x ≠ 0 → (presentSyms f).length = 1 → huffmanLengths f x = 1) ∧
    ((presentSyms f).length ≥ 2 → huffmanLengths f x ≤ (presentSyms f).length - 1)

/-- 42 R156(b), 46 R244: the Kraft sum of the lengths, times `2^256`, is `2^256` for two or more present symbols and half
of it for one. -/
def Obligations.HuffmanKraftSum : Prop :=
  ∀ f : Sym → Nat,
    ((presentSyms f).length ≥ 2 →
      sumSyms (fun x => if huffmanLengths f x = 0 then 0 else 2 ^ (256 - huffmanLengths f x)) = 2 ^ 256) ∧
    ((presentSyms f).length = 1 →
      sumSyms (fun x => if huffmanLengths f x = 0 then 0 else 2 ^ (256 - huffmanLengths f x)) = 2 ^ 255)

/-- 42 R155: the depth of a leaf is the number of merges its item took part in. -/
def Obligations.HuffmanLengthsCountMerges : Prop :=
  ∀ (f : Sym → Nat) (x : Sym), (presentSyms f).length ≥ 2 →
    huffmanLengths f x =
      mergeDepths ((presentSyms f).length - 1) (presentSyms f).length (leafItems f 0 (presentSyms f))
        (fun _ => 0) x

/-- 42 R156(d), which the spec marks as general knowledge that "a model may prove": a symbol of strictly greater
frequency never has a strictly longer code. -/
def Obligations.FrequentSymbolsAreNotLonger : Prop :=
  ∀ (f : Sym → Nat) (x y : Sym), f y ≠ 0 → f y < f x → huffmanLengths f x ≤ huffmanLengths f y

/-! ### The canonical code assigner (spec/43_canonical_assigner.md) -/

/-- 43 R171: `ASSIGN` writes the canonical code into the 32-bit entries without loss and sets `CV`, or refuses, the
length test first. -/
def Obligations.AssignWritesCanonicalCodes : Prop :=
  ∀ s : State,
    ((∀ x, lenOf s x ≤ 32) → kraftSum (lenOf s) ≤ 2 ^ 32 →
      ∃ t, exec .assign s = .next t ∧ t = { s with code := t.code, cv := true, err := 0 } ∧
        ∀ x, codeOf t x = canonicalCode (lenOf s) x) ∧
    ((∃ x, lenOf s x > 32) → exec .assign s = .next { s with err := 2 }) ∧
    ((∀ x, lenOf s x ≤ 32) → kraftSum (lenOf s) > 2 ^ 32 → exec .assign s = .next { s with err := 3 })

/-- 43 R172: the list `P` is the symbols with a code, sorted by `(LEN, symbol)`; its first symbol has code 0, each next
one the code before it plus 1, shifted left by the difference of the lengths; a symbol without a length has 0. -/
def Obligations.CanonicalCodesAreConsecutive : Prop :=
  ∀ f : Sym → Nat,
    (canonOrder f).Pairwise (fun x y => f x < f y ∨ (f x = f y ∧ x.toNat < y.toNat)) ∧
    (∀ x, x ∈ canonOrder f ↔ f x ≠ 0) ∧
    (∀ x, f x = 0 → canonicalCode f x = 0) ∧
    (∀ x, (canonOrder f)[0]? = some x → canonicalCode f x = 0) ∧
    ∀ i x y, (canonOrder f)[i]? = some x → (canonOrder f)[i + 1]? = some y →
      canonicalCode f y = (canonicalCode f x + 1) * 2 ^ (f y - f x)

/-- 43 R173: under the two tests of `ASSIGN` every code fits its length; padded to 32 bits it is the sum of the Kraft
terms before it. -/
def Obligations.CanonicalCodesFit : Prop :=
  ∀ f : Sym → Nat, (∀ x, f x ≤ 32) → kraftSum f ≤ 2 ^ 32 →
    (∀ x, f x ≠ 0 → canonicalCode f x < 2 ^ f x) ∧
    ∀ i x, (canonOrder f)[i]? = some x →
      canonicalCode f x * 2 ^ (32 - f x) = (((canonOrder f).take i).map fun y => 2 ^ (32 - f y)).sum

/-- 43 R174(a) to (d): distinct, a prefix code, shorter codes numerically first, the first symbol all zero. -/
def Obligations.CanonicalCodeIsAPrefixCode : Prop :=
  ∀ (f : Sym → Nat) (x y : Sym), (∀ z, f z ≤ 32) → kraftSum f ≤ 2 ^ 32 → f x ≠ 0 → f y ≠ 0 →
    (x ≠ y → f x = f y → canonicalCode f x ≠ canonicalCode f y) ∧
    (x ≠ y → ¬ (codeBits f x).IsPrefix (codeBits f y)) ∧
    (f x < f y → canonicalCode f x * 2 ^ (32 - f x) < canonicalCode f y * 2 ^ (32 - f y)) ∧
    ((∀ z, f z ≠ 0 → z = x ∨ f x < f z ∨ (f x = f z ∧ x.toNat < z.toNat)) → canonicalCode f x = 0)

/-! ### The bitstream writer (spec/44_bitstream_writer.md) -/

/-- 44 R193, R191: where `PUTB` succeeds it appends the low `len` bits of `WDATA`, most significant first. The partial
byte is as R50(b) says. -/
def Obligations.PutbAppendsTheLowBits : Prop :=
  ∀ (s : State) (len : BitVec 6), len.toNat ≤ 32 → s.wfin = false → PartialOk s →
    s.wbase.toNat + ceil8 (s.wbits.toNat + len.toNat) ≤ Config.params.conCap →
    ∃ t, exec (.putb len) s = .next t ∧ t.err = 0 ∧
      Appended Config.params (s.wdata.toNat % 2 ^ len.toNat) len.toNat s t

/-- 44 R194, R191: where `PUTS` succeeds it appends the code of the symbol. -/
def Obligations.PutsAppendsTheCode : Prop :=
  ∀ (s : State) (x : Sym), s.cv = true → lenOf s x ≠ 0 → s.wfin = false → PartialOk s →
    s.wbase.toNat + ceil8 (s.wbits.toNat + lenOf s x) ≤ Config.params.conCap →
    ∃ t, exec (.puts x) s = .next t ∧ t.err = 0 ∧ Appended Config.params (codeOf s x) (lenOf s x) s t

/-- 44 R193, R194, R195: when the writer's commands refuse. A length above 32 has no encoding and is `IllegalCommand`
as a term (log 12). -/
def Obligations.WriterRefusals : Prop :=
  ∀ s : State,
    (∀ len : BitVec 6, len.toNat > 32 → exec (.putb len) s = .next { s with err := 6 }) ∧
    (∀ len : BitVec 6, len.toNat ≤ 32 →
      (s.wfin = true ∨ s.wbase.toNat + ceil8 (s.wbits.toNat + len.toNat) > Config.params.conCap) →
      exec (.putb len) s = .next { s with err := 7 }) ∧
    (∀ x, (s.cv = false ∨ lenOf s x = 0 ∨ s.wfin = true ∨
        s.wbase.toNat + ceil8 (s.wbits.toNat + lenOf s x) > Config.params.conCap) →
      exec (.puts x) s = .next { s with err := 7 }) ∧
    ((s.wfin = true ∨
        (s.wbits.toNat % 8 ≠ 0 ∧ s.wbase.toNat + s.wbits.toNat / 8 ≥ Config.params.conCap)) →
      exec .fin s = .next { s with err := 7 })

/-- 44 R195: `FIN` stores the partial byte, if there is one, at `WBASE + (WBITS div 8)`, and sets `WFIN`. -/
def Obligations.FinStoresThePartialByte : Prop :=
  ∀ s : State, s.wfin = false →
    (s.wbits.toNat % 8 = 0 → exec .fin s = .next { s with wfin := true, err := 0 }) ∧
    (s.wbits.toNat % 8 ≠ 0 → s.wbase.toNat + s.wbits.toNat / 8 < Config.params.conCap →
      ∃ t, exec .fin s = .next t ∧ t = { s with wfin := true, con := t.con, err := 0 } ∧
        ∀ a, conByte Config.params t a =
          if a = s.wbase.toNat + s.wbits.toNat / 8 then s.wacc else conByte Config.params s a)

/-- 44 R196: the stream a sequence of successful appends and a successful `FIN` leave in `CON`. -/
def Obligations.WriterStreamIsTheConcatenation : Prop :=
  ∀ (p : Params) (s t u : State) (ws : List (Nat × Nat)),
    appendAll p ws (writerInit s) = .ok t → finCmd p t = .ok u →
    u.wbits.toNat = (ws.map Prod.snd).sum ∧
    HoldsBits p u s.wbase.toNat (ws.flatMap fun w => patternBits w.1 w.2) ∧
    (∀ q, u.wbits.toNat ≤ q → q < 8 * ceil8 u.wbits.toNat → conBit p u s.wbase.toNat q = false) ∧
    ∀ a, a < s.wbase.toNat ∨ s.wbase.toNat + ceil8 u.wbits.toNat ≤ a → conByte p u a = conByte p s a

/-! ### The bitstream reader (spec/45_bitstream_reader.md) -/

/-- 45 R213: `GETB`, its success and its two errors. -/
def Obligations.GetbReadsOneBit : Prop :=
  ∀ s : State,
    (s.rpos.toNat < s.rvalid.toNat → s.rbase.toNat + s.rpos.toNat / 8 < Config.params.conCap →
      ∃ t, exec .getb s = .next t ∧ t = { s with rdata := t.rdata, rpos := t.rpos, err := 0 } ∧
        t.rpos.toNat = s.rpos.toNat + 1 ∧
        t.rdata = if (conByte Config.params s (s.rbase.toNat + s.rpos.toNat / 8)).getLsbD (7 - s.rpos.toNat % 8)
          then 1 else 0) ∧
    (s.rpos.toNat ≥ s.rvalid.toNat → exec .getb s = .next { s with err := 4 }) ∧
    (s.rpos.toNat < s.rvalid.toNat → s.rbase.toNat + s.rpos.toNat / 8 ≥ Config.params.conCap →
      exec .getb s = .next { s with err := 7 })

/-- 45 R214, 43 R175: where the bits from the cursor on are the code of a symbol, `GETS` reads that symbol and no bit
more. -/
def Obligations.GetsReadsOneSymbol : Prop :=
  ∀ (s : State) (x : Sym), CodeOk s → s.cv = true → lenOf s x ≠ 0 →
    (∀ j, j < lenOf s x → s.rpos.toNat + j < s.rvalid.toNat ∧
      readerAddr s (s.rpos.toNat + j) < Config.params.conCap ∧
      conBit Config.params s s.rbase.toNat (s.rpos.toNat + j) = (codeOf s x).testBit (lenOf s x - 1 - j)) →
    ∃ t, exec .gets s = .next t ∧ t = { s with rdata := x, rpos := t.rpos, err := 0 } ∧
      t.rpos.toNat = s.rpos.toNat + lenOf s x

/-- 45 R214: when `GETS` refuses: no valid code; or after `m` bits that lead only to inner nodes the next bit is not
there, or not in `CON`, or leads to a dead node. -/
def Obligations.GetsRefusals : Prop :=
  ∀ (s : State) (m : Nat),
    (s.cv = false → exec .gets s = .next { s with err := 7 }) ∧
    (s.cv = true →
      (∀ k, k < m → s.rpos.toNat + k < s.rvalid.toNat ∧ readerAddr s (s.rpos.toNat + k) < Config.params.conCap) →
      (∀ k, 1 ≤ k → k ≤ m →
        (∀ x, ¬ (lenOf s x = k ∧ codeOf s x = nodeValue Config.params s k)) ∧
        ∃ x, lenOf s x > k ∧ codeOf s x / 2 ^ (lenOf s x - k) = nodeValue Config.params s k) →
      (s.rpos.toNat + m ≥ s.rvalid.toNat → exec .gets s = .next { s with err := 4 }) ∧
      (s.rpos.toNat + m < s.rvalid.toNat → readerAddr s (s.rpos.toNat + m) ≥ Config.params.conCap →
        exec .gets s = .next { s with err := 7 }) ∧
      (s.rpos.toNat + m < s.rvalid.toNat → readerAddr s (s.rpos.toNat + m) < Config.params.conCap →
        (∀ x, ¬ (lenOf s x = m + 1 ∧ codeOf s x = nodeValue Config.params s (m + 1))) →
        (∀ x, lenOf s x > m + 1 →
          codeOf s x / 2 ^ (lenOf s x - (m + 1)) ≠ nodeValue Config.params s (m + 1)) →
        exec .gets s = .next { s with err := 3 }))

/-- 45 R215: the reader returns the symbols the writer wrote, ends at `RVALID`, and then refuses. -/
def Obligations.ReaderReturnsWhatWasWritten : Prop :=
  ∀ (p : Params) (s t u : State) (xs : List Sym), CodeOk s → s.cv = true →
    putAll p xs (writerInit s) = .ok t → finCmd p t = .ok u →
    ∃ v, getAll p xs.length (readerInit { u with rbase := u.wbase, rvalid := u.wbits }) = .ok (xs, v) ∧
      v.rpos = v.rvalid ∧ getsCmd p v = .error .truncatedStream

/-! ### The container codec (spec/46_container_codec.md) -/

/-- 46 R233, 30 R100 to R102: `WRHDR` writes the header, the pairs and the valid-bit count, read back here field by
field, and points the writer at the payload; nothing else changes. -/
def Obligations.WrhdrWritesTheHeader : Prop :=
  ∀ s : State, s.cv = true → legalLayout s.layout.toNat → sampleTotal s ≤ Config.params.maxSamples → s.total ≠ 0 →
    sampleTotal s = s.total.toNat → (∀ x, freqOf s x ≠ 0 ↔ lenOf s x ≠ 0) →
    ∃ t, exec .wrhdr s = .next t ∧
      t = { s with
        conlen := t.conlen, wbase := t.wbase, wbits := 0, wacc := 0, wfin := false, con := t.con, err := 0 } ∧
      t.wbase.toNat = 23 + 2 * (presentSyms (lenOf s)).length ∧
      t.conlen.toNat = t.wbase.toNat + ceil8 (sumSyms fun x => freqOf s x * lenOf s x) ∧
      conBytes Config.params t 0 4 = [0x48, 0x55, 0x46, 0x31] ∧
      hdrWidth Config.params t = s.width.toNat ∧ hdrHeight Config.params t = s.height.toNat ∧
      hdrLayout Config.params t = s.layout.toNat ∧ hdrCount Config.params t = (presentSyms (lenOf s)).length ∧
      conBytes Config.params t 15 (2 * (presentSyms (lenOf s)).length) =
        ((presentSyms (lenOf s)).flatMap fun x => [x, tableGet s.len x]) ∧
      hdrBits Config.params t (presentSyms (lenOf s)).length = (sumSyms fun x => freqOf s x * lenOf s x) ∧
      ∀ a, t.wbase.toNat ≤ a → conByte Config.params t a = conByte Config.params s a

/-- 46 R233, 60 R277: the result of `WRHDR`, its tests in order. -/
def Obligations.WrhdrResult : Prop :=
  ∀ s t : State, exec .wrhdr s = .next t →
    t.err =
      if s.cv = false then 7
      else if ¬ legalLayout s.layout.toNat then 3
      else if sampleTotal s > Config.params.maxSamples then 5
      else if s.total = 0 then 1
      else if sampleTotal s ≠ s.total.toNat then 7
      else if ∃ x ∈ allSyms, ¬ (freqOf s x ≠ 0 ↔ lenOf s x ≠ 0) then 7
      else 0

/-- 46 R235: where `CON` holds the header of some lengths, `PARSE` loads them. -/
def Obligations.ParseLoadsTheHeader : Prop :=
  ∀ (s : State) (f : Sym → Nat), HoldsHeader Config.params s f →
    ∃ t, exec .parse s = .next t ∧
      t = { s with
        width := t.width, height := t.height, layout := t.layout, len := t.len, cv := false, rbase := t.rbase
        rvalid := t.rvalid, rpos := 0, rdata := 0, err := 0 } ∧
      t.width.toNat = hdrWidth Config.params s ∧ t.height.toNat = hdrHeight Config.params s ∧
      t.layout.toNat = hdrLayout Config.params s ∧ (∀ x, lenOf t x = f x) ∧
      t.rbase.toNat = 23 + 2 * (presentSyms f).length ∧
      t.rvalid.toNat = hdrBits Config.params s (presentSyms f).length

/-- 46 R235: `PARSE` accepts a container only if its header, table and count are those of some lengths. -/
def Obligations.ParseAcceptsOnlyHeaders : Prop :=
  ∀ s t : State, exec .parse s = .next t → t.err = 0 → HoldsHeader Config.params s (lenOf t)

/-- 46 R235, 60 R277: the result of `PARSE`, its tests in order. -/
def Obligations.ParseResult : Prop :=
  ∀ s t : State, exec .parse s = .next t →
    t.err =
      if s.conlen.toNat > Config.params.conCap then 7
      else if s.conlen.toNat < 4 ∨ conBytes Config.params s 0 4 ≠ [0x48, 0x55, 0x46, 0x31] then 3
      else if s.conlen.toNat < 15 then 3
      else if ¬ legalLayout (hdrLayout Config.params s) then 3
      else if hdrWidth Config.params s * hdrHeight Config.params s * hdrLayout Config.params s >
        Config.params.maxSamples then 5
      else if hdrCount Config.params s = 0 ∧
        hdrWidth Config.params s * hdrHeight Config.params s * hdrLayout Config.params s > 0 then 3
      else if hdrCount Config.params s > 256 then 3
      else if s.conlen.toNat < 23 + 2 * hdrCount Config.params s then 3
      else if ∃ j < hdrCount Config.params s,
        pairLen Config.params s j = 0 ∨
          (0 < j ∧ (pairSym Config.params s j).toNat ≤ (pairSym Config.params s (j - 1)).toNat) then 3
      else if s.conlen.toNat - (23 + 2 * hdrCount Config.params s) <
        ceil8 (hdrBits Config.params s (hdrCount Config.params s)) then 4
      else 0

/-- 46 R234, R232: an image with a legal layout, 1 to `MAX_SAMPLES` samples and no code depth above 32 is encoded:
`CON[0 .. CONLEN-1]` is its container, and every register of R234 corner case (a) has its value. -/
def Obligations.EncodeMakesTheContainer : Prop :=
  ∀ s : State, legalLayout s.layout.toNat → 1 ≤ sampleTotal s → sampleTotal s ≤ Config.params.maxSamples →
    (∀ x, huffmanLengths (pixCount Config.params s (sampleTotal s)) x ≤ 32) →
    ∃ t, exec .encode s = .next t ∧ t.err = 0 ∧ Frame Config.params .encode s t ∧ t.cv = true ∧ t.wfin = true ∧
      t.total.toNat = sampleTotal s ∧
      (∀ x, freqOf t x = pixCount Config.params s (sampleTotal s) x) ∧
      (∀ x, lenOf t x = huffmanLengths (freqOf t) x) ∧ (∀ x, codeOf t x = canonicalCode (lenOf t) x) ∧
      t.wbits.toNat = (sumSyms fun x => freqOf t x * lenOf t x) ∧
      t.wacc = (if t.wbits.toNat % 8 = 0 then 0 else conByte Config.params t (writerAddr t t.wbits.toNat)) ∧
      sampleTotal s ≤ t.wbits.toNat ∧ t.wbits.toNat ≤ 32 * sampleTotal s ∧
      t.wbase.toNat = 23 + 2 * (presentSyms (freqOf t)).length ∧
      t.conlen.toNat = t.wbase.toNat + ceil8 t.wbits.toNat ∧
      HoldsContainer Config.params t (lenOf t) (pixels Config.params s (sampleTotal s)) ∧
      hdrWidth Config.params t = s.width.toNat ∧ hdrHeight Config.params t = s.height.toNat ∧
      hdrLayout Config.params t = s.layout.toNat ∧
      hdrBits Config.params t (presentSyms (lenOf t)).length = t.wbits.toNat ∧
      (∀ q, t.wbits.toNat ≤ q → q < 8 * ceil8 t.wbits.toNat →
        conBit Config.params t t.wbase.toNat q = false) ∧
      ∀ a, t.conlen.toNat ≤ a → conByte Config.params t a = conByte Config.params s a

/-- 46 R246: the result of `ENCODE`: no other kind, in this order. -/
def Obligations.EncodeResult : Prop :=
  ∀ s t : State, exec .encode s = .next t →
    t.err =
      if ¬ legalLayout s.layout.toNat then 3
      else if sampleTotal s > Config.params.maxSamples then 5
      else if sampleTotal s = 0 then 1
      else if ∃ x ∈ allSyms, huffmanLengths (pixCount Config.params s (sampleTotal s)) x > 32 then 2
      else 0

/-- 46 R234, 00 R13: a successful `ENCODE` does what its micro commands do one after the other. -/
def Obligations.EncodeIsItsMicroCommands : Prop :=
  ∀ s t : State, exec .encode s = .next t → t.err = 0 →
    execAll ([.stat, .build, .assign, .wrhdr] ++
      (pixels Config.params s (sampleTotal s)).map .puts ++ [.fin]) s = .next t

/-- 70 R303(c), 46 R241: the flow of micro commands, from the cleared block with the image's dimensions, the symbols
accumulated in any order and put in sample order, makes the container that `ENCODE` makes. -/
def Obligations.MicroFlowMakesTheSameContainer : Prop :=
  ∀ (s t : State) (ys : List Sym), exec .encode s = .next t → t.err = 0 →
    ys.Perm (pixels Config.params s (sampleTotal s)) →
    ∃ u, execAll (ys.map .acc ++ [.build, .assign, .wrhdr] ++
        (pixels Config.params s (sampleTotal s)).map .puts ++ [.fin])
        { clearBlock s with width := s.width, height := s.height, layout := s.layout } = .next u ∧
      u.err = 0 ∧ u.conlen = t.conlen ∧
      ∀ a, a < t.conlen.toNat → conByte Config.params u a = conByte Config.params t a

/-- 46 R236: where `CON` holds a container of an image, `DECODE` writes that image to `PIX` and its code to the tables. -/
def Obligations.DecodeReadsTheContainer : Prop :=
  ∀ (s : State) (f : Sym → Nat) (img : List Sym), HoldsContainer Config.params s f img →
    ∃ t, exec .decode s = .next t ∧ t.err = 0 ∧ Frame Config.params .decode s t ∧ t.cv = true ∧
      t.width.toNat = hdrWidth Config.params s ∧ t.height.toNat = hdrHeight Config.params s ∧
      t.layout.toNat = hdrLayout Config.params s ∧ (∀ x, lenOf t x = f x) ∧
      (∀ x, codeOf t x = canonicalCode f x) ∧ t.rbase.toNat = 23 + 2 * (presentSyms f).length ∧
      t.rvalid.toNat = hdrBits Config.params s (presentSyms f).length ∧
      t.rpos.toNat = (streamOf f img).length ∧ t.rdata = img.getLast?.getD 0 ∧
      pixels Config.params t img.length = img ∧
      ∀ a, img.length ≤ a → pixByte Config.params t a = pixByte Config.params s a

/-- 46 R247, R236, 60 R277: the kinds of `DECODE`; `StateError` only for `CONLEN > CONCAP`, never `EmptyInput`; and which
kind: as `PARSE`, then as `ASSIGN`, then as `GETS` for sample 0, 1, ...: the first of them that fails gives the result. -/
def Obligations.DecodeErrorKinds : Prop :=
  ∀ s t : State, exec .decode s = .next t →
    t.err ∈ [(0 : BitVec 4), 2, 3, 4, 5, 7] ∧ (t.err = 7 ↔ s.conlen.toNat > Config.params.conCap) ∧
    ∃ u v, exec .parse s = .next u ∧ exec .assign u = .next v ∧
      (u.err ≠ 0 → t.err = u.err) ∧
      (u.err = 0 → v.err ≠ 0 → t.err = v.err) ∧
      (u.err = 0 → v.err = 0 →
        (∀ k xs w x, k < sampleTotal v → getAll Config.params k v = .ok (xs, w) → exec .gets w = .next x →
          x.err ≠ 0 → t.err = x.err) ∧
        ∀ xs w, getAll Config.params (sampleTotal v) v = .ok (xs, w) → t.err = 0)

/-- 46 R240: the round trip. Every image with a legal layout, 1 to `MAX_SAMPLES` samples and no code depth above 32 is
encoded; and after a successful `ENCODE` a `DECODE` on any state that holds the same `CONLEN` and container bytes, the
one right after it among them, restores the image and its dimensions. -/
def Obligations.DecodeAfterEncodeRestoresTheImage : Prop :=
  ∀ s : State,
    (legalLayout s.layout.toNat → 1 ≤ sampleTotal s → sampleTotal s ≤ Config.params.maxSamples →
      (∀ x, huffmanLengths (pixCount Config.params s (sampleTotal s)) x ≤ 32) →
      ∃ t, exec .encode s = .next t ∧ t.err = 0) ∧
    ∀ t r : State, exec .encode s = .next t → t.err = 0 → r.conlen = t.conlen →
      (∀ a, a < t.conlen.toNat → conByte Config.params r a = conByte Config.params t a) →
      ∃ u, exec .decode r = .next u ∧ u.err = 0 ∧ u.width = s.width ∧ u.height = s.height ∧
        u.layout = s.layout ∧ pixels Config.params u (sampleTotal s) = pixels Config.params s (sampleTotal s)

/-- 46 R241: the container is a function of the dimensions and the image alone. -/
def Obligations.EncodeDependsOnTheImageOnly : Prop :=
  ∀ s s' t t' : State, s.width = s'.width → s.height = s'.height → s.layout = s'.layout →
    pixels Config.params s (sampleTotal s) = pixels Config.params s' (sampleTotal s) →
    exec .encode s = .next t → exec .encode s' = .next t' →
    t.err = t'.err ∧ (t.err = 0 → t.conlen = t'.conlen ∧
      ∀ a, a < t.conlen.toNat → conByte Config.params t a = conByte Config.params t' a)

/-- 30 R107: `DECODE` needs nothing but `CONLEN` and `CON[0 .. CONLEN-1]`. -/
def Obligations.DecodeDependsOnTheContainerOnly : Prop :=
  ∀ s s' t t' : State, s.conlen = s'.conlen →
    (∀ a, a < s.conlen.toNat → conByte Config.params s a = conByte Config.params s' a) →
    exec .decode s = .next t → exec .decode s' = .next t' →
    t.err = t'.err ∧ (t.err = 0 →
      t.width = t'.width ∧ t.height = t'.height ∧ t.layout = t'.layout ∧ t.len = t'.len ∧ t.code = t'.code ∧
      t.rbase = t'.rbase ∧ t.rvalid = t'.rvalid ∧ t.rpos = t'.rpos ∧ t.rdata = t'.rdata ∧
      pixels Config.params t (sampleTotal t) = pixels Config.params t' (sampleTotal t))

/-- 46 R242: any truncation of an encoded container is refused: `TruncatedStream` where it leaves the header whole,
`FormatMismatch` where it cuts into it; nothing else changes. -/
def Obligations.TruncatedContainerIsRefused : Prop :=
  ∀ (s t : State) (c : Nat), exec .encode s = .next t → t.err = 0 → c < t.conlen.toNat →
    exec .decode { t with conlen := BitVec.ofNat 64 c } =
      .next { t with conlen := BitVec.ofNat 64 c, err := if c < t.wbase.toNat then 3 else 4 }

/-- 46 R243: the image of one symbol. -/
def Obligations.SingleSymbolImage : Prop :=
  ∀ (s : State) (x : Sym), legalLayout s.layout.toNat → 1 ≤ sampleTotal s →
    sampleTotal s ≤ Config.params.maxSamples →
    (∀ i, i < sampleTotal s → pixByte Config.params s i = x) →
    ∃ t, exec .encode s = .next t ∧ t.err = 0 ∧ freqOf t x = sampleTotal s ∧ lenOf t x = 1 ∧ codeOf t x = 0 ∧
      hdrCount Config.params t = 1 ∧ hdrBits Config.params t 1 = sampleTotal s ∧
      t.conlen.toNat = 25 + ceil8 (sampleTotal s) ∧
      (∀ a, 25 ≤ a → a < t.conlen.toNat → conByte Config.params t a = 0) ∧
      ∃ u, exec .decode t = .next u ∧ u.err = 0 ∧
        ∀ i, i < sampleTotal s → pixByte Config.params u i = x

/-- 46 R245: among images of the same size those of one symbol have the smallest container. Stated of the result of
`ENCODE` for all parameters, as an image of two symbols needs `MAX_SAMPLES` above 1. -/
def Obligations.UniformImagesAreSmallest : Prop :=
  ∀ (p : Params) (s t : State), encodeCmd p s = .ok t →
    t.conlen.toNat = 23 + 2 * (presentSyms (freqOf t)).length + ceil8 t.wbits.toNat ∧
    ((∀ i j, i < sampleTotal s → j < sampleTotal s → pixByte p s i = pixByte p s j) →
      t.conlen.toNat = 25 + ceil8 (sampleTotal s) ∧ (sampleTotal s = 100 * 100 → t.conlen.toNat = 1275)) ∧
    ((∃ i j, i < sampleTotal s ∧ j < sampleTotal s ∧ pixByte p s i ≠ pixByte p s j) →
      t.conlen.toNat ≥ 27 + ceil8 (sampleTotal s))
end

