-- ==== Sys2Proof/Laws/State.lean ====
section
/-! SUPPORT. One lemma for each field of the state and each operation that makes a new state: what the field is
afterwards. With these no proof unfolds a record update. -/

namespace Sys2Proof.Machine

/-! ### `raise` -/

@[simp] theorem raise_err (k : ErrKind) (s : State) : (raise k s).err = k.code := rfl
@[simp] theorem raise_cv (k : ErrKind) (s : State) : (raise k s).cv = s.cv := rfl
@[simp] theorem raise_wfin (k : ErrKind) (s : State) : (raise k s).wfin = s.wfin := rfl
@[simp] theorem raise_busy (k : ErrKind) (s : State) : (raise k s).busy = s.busy := rfl
@[simp] theorem raise_width (k : ErrKind) (s : State) : (raise k s).width = s.width := rfl
@[simp] theorem raise_height (k : ErrKind) (s : State) : (raise k s).height = s.height := rfl
@[simp] theorem raise_layout (k : ErrKind) (s : State) : (raise k s).layout = s.layout := rfl
@[simp] theorem raise_conlen (k : ErrKind) (s : State) : (raise k s).conlen = s.conlen := rfl
@[simp] theorem raise_total (k : ErrKind) (s : State) : (raise k s).total = s.total := rfl
@[simp] theorem raise_wbase (k : ErrKind) (s : State) : (raise k s).wbase = s.wbase := rfl
@[simp] theorem raise_wbits (k : ErrKind) (s : State) : (raise k s).wbits = s.wbits := rfl
@[simp] theorem raise_wacc (k : ErrKind) (s : State) : (raise k s).wacc = s.wacc := rfl
@[simp] theorem raise_wdata (k : ErrKind) (s : State) : (raise k s).wdata = s.wdata := rfl
@[simp] theorem raise_rbase (k : ErrKind) (s : State) : (raise k s).rbase = s.rbase := rfl
@[simp] theorem raise_rvalid (k : ErrKind) (s : State) : (raise k s).rvalid = s.rvalid := rfl
@[simp] theorem raise_rpos (k : ErrKind) (s : State) : (raise k s).rpos = s.rpos := rfl
@[simp] theorem raise_rdata (k : ErrKind) (s : State) : (raise k s).rdata = s.rdata := rfl
@[simp] theorem raise_freq (k : ErrKind) (s : State) : (raise k s).freq = s.freq := rfl
@[simp] theorem raise_len (k : ErrKind) (s : State) : (raise k s).len = s.len := rfl
@[simp] theorem raise_code (k : ErrKind) (s : State) : (raise k s).code = s.code := rfl
@[simp] theorem raise_pix (k : ErrKind) (s : State) : (raise k s).pix = s.pix := rfl
@[simp] theorem raise_con (k : ErrKind) (s : State) : (raise k s).con = s.con := rfl
@[simp] theorem raise_epoch (k : ErrKind) (s : State) : (raise k s).epoch = s.epoch := rfl
@[simp] theorem raise_script (k : ErrKind) (s : State) : (raise k s).script = s.script := rfl
@[simp] theorem raise_reads (k : ErrKind) (s : State) : (raise k s).reads = s.reads := rfl

/-! ### `writerInit` -/

@[simp] theorem writerInit_err (s : State) : (writerInit s).err = s.err := rfl
@[simp] theorem writerInit_cv (s : State) : (writerInit s).cv = s.cv := rfl
@[simp] theorem writerInit_wfin (s : State) : (writerInit s).wfin = false := rfl
@[simp] theorem writerInit_busy (s : State) : (writerInit s).busy = s.busy := rfl
@[simp] theorem writerInit_width (s : State) : (writerInit s).width = s.width := rfl
@[simp] theorem writerInit_height (s : State) : (writerInit s).height = s.height := rfl
@[simp] theorem writerInit_layout (s : State) : (writerInit s).layout = s.layout := rfl
@[simp] theorem writerInit_conlen (s : State) : (writerInit s).conlen = s.conlen := rfl
@[simp] theorem writerInit_total (s : State) : (writerInit s).total = s.total := rfl
@[simp] theorem writerInit_wbase (s : State) : (writerInit s).wbase = s.wbase := rfl
@[simp] theorem writerInit_wbits (s : State) : (writerInit s).wbits = 0 := rfl
@[simp] theorem writerInit_wacc (s : State) : (writerInit s).wacc = 0 := rfl
@[simp] theorem writerInit_wdata (s : State) : (writerInit s).wdata = s.wdata := rfl
@[simp] theorem writerInit_rbase (s : State) : (writerInit s).rbase = s.rbase := rfl
@[simp] theorem writerInit_rvalid (s : State) : (writerInit s).rvalid = s.rvalid := rfl
@[simp] theorem writerInit_rpos (s : State) : (writerInit s).rpos = s.rpos := rfl
@[simp] theorem writerInit_rdata (s : State) : (writerInit s).rdata = s.rdata := rfl
@[simp] theorem writerInit_freq (s : State) : (writerInit s).freq = s.freq := rfl
@[simp] theorem writerInit_len (s : State) : (writerInit s).len = s.len := rfl
@[simp] theorem writerInit_code (s : State) : (writerInit s).code = s.code := rfl
@[simp] theorem writerInit_pix (s : State) : (writerInit s).pix = s.pix := rfl
@[simp] theorem writerInit_con (s : State) : (writerInit s).con = s.con := rfl
@[simp] theorem writerInit_epoch (s : State) : (writerInit s).epoch = s.epoch := rfl
@[simp] theorem writerInit_script (s : State) : (writerInit s).script = s.script := rfl
@[simp] theorem writerInit_reads (s : State) : (writerInit s).reads = s.reads := rfl

/-! ### `readerInit` -/

@[simp] theorem readerInit_err (s : State) : (readerInit s).err = s.err := rfl
@[simp] theorem readerInit_cv (s : State) : (readerInit s).cv = s.cv := rfl
@[simp] theorem readerInit_wfin (s : State) : (readerInit s).wfin = s.wfin := rfl
@[simp] theorem readerInit_busy (s : State) : (readerInit s).busy = s.busy := rfl
@[simp] theorem readerInit_width (s : State) : (readerInit s).width = s.width := rfl
@[simp] theorem readerInit_height (s : State) : (readerInit s).height = s.height := rfl
@[simp] theorem readerInit_layout (s : State) : (readerInit s).layout = s.layout := rfl
@[simp] theorem readerInit_conlen (s : State) : (readerInit s).conlen = s.conlen := rfl
@[simp] theorem readerInit_total (s : State) : (readerInit s).total = s.total := rfl
@[simp] theorem readerInit_wbase (s : State) : (readerInit s).wbase = s.wbase := rfl
@[simp] theorem readerInit_wbits (s : State) : (readerInit s).wbits = s.wbits := rfl
@[simp] theorem readerInit_wacc (s : State) : (readerInit s).wacc = s.wacc := rfl
@[simp] theorem readerInit_wdata (s : State) : (readerInit s).wdata = s.wdata := rfl
@[simp] theorem readerInit_rbase (s : State) : (readerInit s).rbase = s.rbase := rfl
@[simp] theorem readerInit_rvalid (s : State) : (readerInit s).rvalid = s.rvalid := rfl
@[simp] theorem readerInit_rpos (s : State) : (readerInit s).rpos = 0 := rfl
@[simp] theorem readerInit_rdata (s : State) : (readerInit s).rdata = 0 := rfl
@[simp] theorem readerInit_freq (s : State) : (readerInit s).freq = s.freq := rfl
@[simp] theorem readerInit_len (s : State) : (readerInit s).len = s.len := rfl
@[simp] theorem readerInit_code (s : State) : (readerInit s).code = s.code := rfl
@[simp] theorem readerInit_pix (s : State) : (readerInit s).pix = s.pix := rfl
@[simp] theorem readerInit_con (s : State) : (readerInit s).con = s.con := rfl
@[simp] theorem readerInit_epoch (s : State) : (readerInit s).epoch = s.epoch := rfl
@[simp] theorem readerInit_script (s : State) : (readerInit s).script = s.script := rfl
@[simp] theorem readerInit_reads (s : State) : (readerInit s).reads = s.reads := rfl

/-! ### `hostTakes` -/

@[simp] theorem hostTakes_err (v : BitVec 64) (s : State) : (hostTakes v s).err = s.err := rfl
@[simp] theorem hostTakes_cv (v : BitVec 64) (s : State) : (hostTakes v s).cv = s.cv := rfl
@[simp] theorem hostTakes_wfin (v : BitVec 64) (s : State) : (hostTakes v s).wfin = s.wfin := rfl
@[simp] theorem hostTakes_busy (v : BitVec 64) (s : State) : (hostTakes v s).busy = s.busy := rfl
@[simp] theorem hostTakes_width (v : BitVec 64) (s : State) : (hostTakes v s).width = s.width := rfl
@[simp] theorem hostTakes_height (v : BitVec 64) (s : State) : (hostTakes v s).height = s.height := rfl
@[simp] theorem hostTakes_layout (v : BitVec 64) (s : State) : (hostTakes v s).layout = s.layout := rfl
@[simp] theorem hostTakes_conlen (v : BitVec 64) (s : State) : (hostTakes v s).conlen = s.conlen := rfl
@[simp] theorem hostTakes_total (v : BitVec 64) (s : State) : (hostTakes v s).total = s.total := rfl
@[simp] theorem hostTakes_wbase (v : BitVec 64) (s : State) : (hostTakes v s).wbase = s.wbase := rfl
@[simp] theorem hostTakes_wbits (v : BitVec 64) (s : State) : (hostTakes v s).wbits = s.wbits := rfl
@[simp] theorem hostTakes_wacc (v : BitVec 64) (s : State) : (hostTakes v s).wacc = s.wacc := rfl
@[simp] theorem hostTakes_wdata (v : BitVec 64) (s : State) : (hostTakes v s).wdata = s.wdata := rfl
@[simp] theorem hostTakes_rbase (v : BitVec 64) (s : State) : (hostTakes v s).rbase = s.rbase := rfl
@[simp] theorem hostTakes_rvalid (v : BitVec 64) (s : State) : (hostTakes v s).rvalid = s.rvalid := rfl
@[simp] theorem hostTakes_rpos (v : BitVec 64) (s : State) : (hostTakes v s).rpos = s.rpos := rfl
@[simp] theorem hostTakes_rdata (v : BitVec 64) (s : State) : (hostTakes v s).rdata = s.rdata := rfl
@[simp] theorem hostTakes_freq (v : BitVec 64) (s : State) : (hostTakes v s).freq = s.freq := rfl
@[simp] theorem hostTakes_len (v : BitVec 64) (s : State) : (hostTakes v s).len = s.len := rfl
@[simp] theorem hostTakes_code (v : BitVec 64) (s : State) : (hostTakes v s).code = s.code := rfl
@[simp] theorem hostTakes_pix (v : BitVec 64) (s : State) : (hostTakes v s).pix = s.pix := rfl
@[simp] theorem hostTakes_con (v : BitVec 64) (s : State) : (hostTakes v s).con = s.con := rfl
@[simp] theorem hostTakes_epoch (v : BitVec 64) (s : State) : (hostTakes v s).epoch = s.epoch := rfl
@[simp] theorem hostTakes_script (v : BitVec 64) (s : State) : (hostTakes v s).script = s.script := rfl
@[simp] theorem hostTakes_reads (v : BitVec 64) (s : State) : (hostTakes v s).reads = v :: s.reads := rfl

/-! ### `clearBlock` -/

@[simp] theorem clearBlock_err (s : State) : (clearBlock s).err = 0 := rfl
@[simp] theorem clearBlock_cv (s : State) : (clearBlock s).cv = false := rfl
@[simp] theorem clearBlock_wfin (s : State) : (clearBlock s).wfin = false := rfl
@[simp] theorem clearBlock_busy (s : State) : (clearBlock s).busy = false := rfl
@[simp] theorem clearBlock_width (s : State) : (clearBlock s).width = 0 := rfl
@[simp] theorem clearBlock_height (s : State) : (clearBlock s).height = 0 := rfl
@[simp] theorem clearBlock_layout (s : State) : (clearBlock s).layout = 0 := rfl
@[simp] theorem clearBlock_conlen (s : State) : (clearBlock s).conlen = 0 := rfl
@[simp] theorem clearBlock_total (s : State) : (clearBlock s).total = 0 := rfl
@[simp] theorem clearBlock_wbase (s : State) : (clearBlock s).wbase = 0 := rfl
@[simp] theorem clearBlock_wbits (s : State) : (clearBlock s).wbits = 0 := rfl
@[simp] theorem clearBlock_wacc (s : State) : (clearBlock s).wacc = 0 := rfl
@[simp] theorem clearBlock_wdata (s : State) : (clearBlock s).wdata = 0 := rfl
@[simp] theorem clearBlock_rbase (s : State) : (clearBlock s).rbase = 0 := rfl
@[simp] theorem clearBlock_rvalid (s : State) : (clearBlock s).rvalid = 0 := rfl
@[simp] theorem clearBlock_rpos (s : State) : (clearBlock s).rpos = 0 := rfl
@[simp] theorem clearBlock_rdata (s : State) : (clearBlock s).rdata = 0 := rfl
@[simp] theorem clearBlock_freq (s : State) : (clearBlock s).freq = tableZero 32 := rfl
@[simp] theorem clearBlock_len (s : State) : (clearBlock s).len = tableZero 8 := rfl
@[simp] theorem clearBlock_code (s : State) : (clearBlock s).code = tableZero 32 := rfl
@[simp] theorem clearBlock_pix (s : State) : (clearBlock s).pix = s.pix := rfl
@[simp] theorem clearBlock_con (s : State) : (clearBlock s).con = s.con := rfl
@[simp] theorem clearBlock_epoch (s : State) : (clearBlock s).epoch = s.epoch := rfl
@[simp] theorem clearBlock_script (s : State) : (clearBlock s).script = s.script := rfl
@[simp] theorem clearBlock_reads (s : State) : (clearBlock s).reads = s.reads := rfl

/-! ### `resetBlock` -/

@[simp] theorem resetBlock_err (s : State) : (resetBlock s).err = 0 := rfl
@[simp] theorem resetBlock_cv (s : State) : (resetBlock s).cv = false := rfl
@[simp] theorem resetBlock_wfin (s : State) : (resetBlock s).wfin = false := rfl
@[simp] theorem resetBlock_busy (s : State) : (resetBlock s).busy = false := rfl
@[simp] theorem resetBlock_width (s : State) : (resetBlock s).width = 0 := rfl
@[simp] theorem resetBlock_height (s : State) : (resetBlock s).height = 0 := rfl
@[simp] theorem resetBlock_layout (s : State) : (resetBlock s).layout = 0 := rfl
@[simp] theorem resetBlock_conlen (s : State) : (resetBlock s).conlen = 0 := rfl
@[simp] theorem resetBlock_total (s : State) : (resetBlock s).total = 0 := rfl
@[simp] theorem resetBlock_wbase (s : State) : (resetBlock s).wbase = 0 := rfl
@[simp] theorem resetBlock_wbits (s : State) : (resetBlock s).wbits = 0 := rfl
@[simp] theorem resetBlock_wacc (s : State) : (resetBlock s).wacc = 0 := rfl
@[simp] theorem resetBlock_wdata (s : State) : (resetBlock s).wdata = 0 := rfl
@[simp] theorem resetBlock_rbase (s : State) : (resetBlock s).rbase = 0 := rfl
@[simp] theorem resetBlock_rvalid (s : State) : (resetBlock s).rvalid = 0 := rfl
@[simp] theorem resetBlock_rpos (s : State) : (resetBlock s).rpos = 0 := rfl
@[simp] theorem resetBlock_rdata (s : State) : (resetBlock s).rdata = 0 := rfl
@[simp] theorem resetBlock_freq (s : State) : (resetBlock s).freq = tableZero 32 := rfl
@[simp] theorem resetBlock_len (s : State) : (resetBlock s).len = tableZero 8 := rfl
@[simp] theorem resetBlock_code (s : State) : (resetBlock s).code = tableZero 32 := rfl
@[simp] theorem resetBlock_pix (s : State) : (resetBlock s).pix = [] := rfl
@[simp] theorem resetBlock_con (s : State) : (resetBlock s).con = [] := rfl
@[simp] theorem resetBlock_epoch (s : State) : (resetBlock s).epoch = s.epoch + 1 := rfl
@[simp] theorem resetBlock_script (s : State) : (resetBlock s).script = s.script := rfl
@[simp] theorem resetBlock_reads (s : State) : (resetBlock s).reads = s.reads := rfl

/-! ### `State.reset` -/

@[simp] theorem reset_err  : State.reset.err = 0 := rfl
@[simp] theorem reset_cv  : State.reset.cv = false := rfl
@[simp] theorem reset_wfin  : State.reset.wfin = false := rfl
@[simp] theorem reset_busy  : State.reset.busy = false := rfl
@[simp] theorem reset_width  : State.reset.width = 0 := rfl
@[simp] theorem reset_height  : State.reset.height = 0 := rfl
@[simp] theorem reset_layout  : State.reset.layout = 0 := rfl
@[simp] theorem reset_conlen  : State.reset.conlen = 0 := rfl
@[simp] theorem reset_total  : State.reset.total = 0 := rfl
@[simp] theorem reset_wbase  : State.reset.wbase = 0 := rfl
@[simp] theorem reset_wbits  : State.reset.wbits = 0 := rfl
@[simp] theorem reset_wacc  : State.reset.wacc = 0 := rfl
@[simp] theorem reset_wdata  : State.reset.wdata = 0 := rfl
@[simp] theorem reset_rbase  : State.reset.rbase = 0 := rfl
@[simp] theorem reset_rvalid  : State.reset.rvalid = 0 := rfl
@[simp] theorem reset_rpos  : State.reset.rpos = 0 := rfl
@[simp] theorem reset_rdata  : State.reset.rdata = 0 := rfl
@[simp] theorem reset_freq  : State.reset.freq = tableZero 32 := rfl
@[simp] theorem reset_len  : State.reset.len = tableZero 8 := rfl
@[simp] theorem reset_code  : State.reset.code = tableZero 32 := rfl
@[simp] theorem reset_pix  : State.reset.pix = [] := rfl
@[simp] theorem reset_con  : State.reset.con = [] := rfl
@[simp] theorem reset_epoch  : State.reset.epoch = 0 := rfl
@[simp] theorem reset_script  : State.reset.script = [] := rfl
@[simp] theorem reset_reads  : State.reset.reads = [] := rfl

/-! ### `setPix` -/

@[simp] theorem setPix_err (p : Params) (s : State) (a : Nat) (b : Byte) :
    (setPix p s a b).err = s.err := by
  unfold setPix; split <;> rfl
@[simp] theorem setPix_cv (p : Params) (s : State) (a : Nat) (b : Byte) :
    (setPix p s a b).cv = s.cv := by
  unfold setPix; split <;> rfl
@[simp] theorem setPix_wfin (p : Params) (s : State) (a : Nat) (b : Byte) :
    (setPix p s a b).wfin = s.wfin := by
  unfold setPix; split <;> rfl
@[simp] theorem setPix_busy (p : Params) (s : State) (a : Nat) (b : Byte) :
    (setPix p s a b).busy = s.busy := by
  unfold setPix; split <;> rfl
@[simp] theorem setPix_width (p : Params) (s : State) (a : Nat) (b : Byte) :
    (setPix p s a b).width = s.width := by
  unfold setPix; split <;> rfl
@[simp] theorem setPix_height (p : Params) (s : State) (a : Nat) (b : Byte) :
    (setPix p s a b).height = s.height := by
  unfold setPix; split <;> rfl
@[simp] theorem setPix_layout (p : Params) (s : State) (a : Nat) (b : Byte) :
    (setPix p s a b).layout = s.layout := by
  unfold setPix; split <;> rfl
@[simp] theorem setPix_conlen (p : Params) (s : State) (a : Nat) (b : Byte) :
    (setPix p s a b).conlen = s.conlen := by
  unfold setPix; split <;> rfl
@[simp] theorem setPix_total (p : Params) (s : State) (a : Nat) (b : Byte) :
    (setPix p s a b).total = s.total := by
  unfold setPix; split <;> rfl
@[simp] theorem setPix_wbase (p : Params) (s : State) (a : Nat) (b : Byte) :
    (setPix p s a b).wbase = s.wbase := by
  unfold setPix; split <;> rfl
@[simp] theorem setPix_wbits (p : Params) (s : State) (a : Nat) (b : Byte) :
    (setPix p s a b).wbits = s.wbits := by
  unfold setPix; split <;> rfl
@[simp] theorem setPix_wacc (p : Params) (s : State) (a : Nat) (b : Byte) :
    (setPix p s a b).wacc = s.wacc := by
  unfold setPix; split <;> rfl
@[simp] theorem setPix_wdata (p : Params) (s : State) (a : Nat) (b : Byte) :
    (setPix p s a b).wdata = s.wdata := by
  unfold setPix; split <;> rfl
@[simp] theorem setPix_rbase (p : Params) (s : State) (a : Nat) (b : Byte) :
    (setPix p s a b).rbase = s.rbase := by
  unfold setPix; split <;> rfl
@[simp] theorem setPix_rvalid (p : Params) (s : State) (a : Nat) (b : Byte) :
    (setPix p s a b).rvalid = s.rvalid := by
  unfold setPix; split <;> rfl
@[simp] theorem setPix_rpos (p : Params) (s : State) (a : Nat) (b : Byte) :
    (setPix p s a b).rpos = s.rpos := by
  unfold setPix; split <;> rfl
@[simp] theorem setPix_rdata (p : Params) (s : State) (a : Nat) (b : Byte) :
    (setPix p s a b).rdata = s.rdata := by
  unfold setPix; split <;> rfl
@[simp] theorem setPix_freq (p : Params) (s : State) (a : Nat) (b : Byte) :
    (setPix p s a b).freq = s.freq := by
  unfold setPix; split <;> rfl
@[simp] theorem setPix_len (p : Params) (s : State) (a : Nat) (b : Byte) :
    (setPix p s a b).len = s.len := by
  unfold setPix; split <;> rfl
@[simp] theorem setPix_code (p : Params) (s : State) (a : Nat) (b : Byte) :
    (setPix p s a b).code = s.code := by
  unfold setPix; split <;> rfl
@[simp] theorem setPix_con (p : Params) (s : State) (a : Nat) (b : Byte) :
    (setPix p s a b).con = s.con := by
  unfold setPix; split <;> rfl
@[simp] theorem setPix_epoch (p : Params) (s : State) (a : Nat) (b : Byte) :
    (setPix p s a b).epoch = s.epoch := by
  unfold setPix; split <;> rfl
@[simp] theorem setPix_script (p : Params) (s : State) (a : Nat) (b : Byte) :
    (setPix p s a b).script = s.script := by
  unfold setPix; split <;> rfl
@[simp] theorem setPix_reads (p : Params) (s : State) (a : Nat) (b : Byte) :
    (setPix p s a b).reads = s.reads := by
  unfold setPix; split <;> rfl

/-! ### `setCon` -/

@[simp] theorem setCon_err (p : Params) (s : State) (a : Nat) (b : Byte) :
    (setCon p s a b).err = s.err := by
  unfold setCon; split <;> rfl
@[simp] theorem setCon_cv (p : Params) (s : State) (a : Nat) (b : Byte) :
    (setCon p s a b).cv = s.cv := by
  unfold setCon; split <;> rfl
@[simp] theorem setCon_wfin (p : Params) (s : State) (a : Nat) (b : Byte) :
    (setCon p s a b).wfin = s.wfin := by
  unfold setCon; split <;> rfl
@[simp] theorem setCon_busy (p : Params) (s : State) (a : Nat) (b : Byte) :
    (setCon p s a b).busy = s.busy := by
  unfold setCon; split <;> rfl
@[simp] theorem setCon_width (p : Params) (s : State) (a : Nat) (b : Byte) :
    (setCon p s a b).width = s.width := by
  unfold setCon; split <;> rfl
@[simp] theorem setCon_height (p : Params) (s : State) (a : Nat) (b : Byte) :
    (setCon p s a b).height = s.height := by
  unfold setCon; split <;> rfl
@[simp] theorem setCon_layout (p : Params) (s : State) (a : Nat) (b : Byte) :
    (setCon p s a b).layout = s.layout := by
  unfold setCon; split <;> rfl
@[simp] theorem setCon_conlen (p : Params) (s : State) (a : Nat) (b : Byte) :
    (setCon p s a b).conlen = s.conlen := by
  unfold setCon; split <;> rfl
@[simp] theorem setCon_total (p : Params) (s : State) (a : Nat) (b : Byte) :
    (setCon p s a b).total = s.total := by
  unfold setCon; split <;> rfl
@[simp] theorem setCon_wbase (p : Params) (s : State) (a : Nat) (b : Byte) :
    (setCon p s a b).wbase = s.wbase := by
  unfold setCon; split <;> rfl
@[simp] theorem setCon_wbits (p : Params) (s : State) (a : Nat) (b : Byte) :
    (setCon p s a b).wbits = s.wbits := by
  unfold setCon; split <;> rfl
@[simp] theorem setCon_wacc (p : Params) (s : State) (a : Nat) (b : Byte) :
    (setCon p s a b).wacc = s.wacc := by
  unfold setCon; split <;> rfl
@[simp] theorem setCon_wdata (p : Params) (s : State) (a : Nat) (b : Byte) :
    (setCon p s a b).wdata = s.wdata := by
  unfold setCon; split <;> rfl
@[simp] theorem setCon_rbase (p : Params) (s : State) (a : Nat) (b : Byte) :
    (setCon p s a b).rbase = s.rbase := by
  unfold setCon; split <;> rfl
@[simp] theorem setCon_rvalid (p : Params) (s : State) (a : Nat) (b : Byte) :
    (setCon p s a b).rvalid = s.rvalid := by
  unfold setCon; split <;> rfl
@[simp] theorem setCon_rpos (p : Params) (s : State) (a : Nat) (b : Byte) :
    (setCon p s a b).rpos = s.rpos := by
  unfold setCon; split <;> rfl
@[simp] theorem setCon_rdata (p : Params) (s : State) (a : Nat) (b : Byte) :
    (setCon p s a b).rdata = s.rdata := by
  unfold setCon; split <;> rfl
@[simp] theorem setCon_freq (p : Params) (s : State) (a : Nat) (b : Byte) :
    (setCon p s a b).freq = s.freq := by
  unfold setCon; split <;> rfl
@[simp] theorem setCon_len (p : Params) (s : State) (a : Nat) (b : Byte) :
    (setCon p s a b).len = s.len := by
  unfold setCon; split <;> rfl
@[simp] theorem setCon_code (p : Params) (s : State) (a : Nat) (b : Byte) :
    (setCon p s a b).code = s.code := by
  unfold setCon; split <;> rfl
@[simp] theorem setCon_pix (p : Params) (s : State) (a : Nat) (b : Byte) :
    (setCon p s a b).pix = s.pix := by
  unfold setCon; split <;> rfl
@[simp] theorem setCon_epoch (p : Params) (s : State) (a : Nat) (b : Byte) :
    (setCon p s a b).epoch = s.epoch := by
  unfold setCon; split <;> rfl
@[simp] theorem setCon_script (p : Params) (s : State) (a : Nat) (b : Byte) :
    (setCon p s a b).script = s.script := by
  unfold setCon; split <;> rfl
@[simp] theorem setCon_reads (p : Params) (s : State) (a : Nat) (b : Byte) :
    (setCon p s a b).reads = s.reads := by
  unfold setCon; split <;> rfl

/-! ### `storeCon` -/

@[simp] theorem storeCon_err (p : Params) (s : State) (a : Nat) (bs : List Byte) :
    (storeCon p s a bs).err = s.err := by
  induction bs generalizing s a with
  | nil => rfl
  | cons b bs ih => exact (ih _ _).trans (setCon_err p s a b)
@[simp] theorem storeCon_cv (p : Params) (s : State) (a : Nat) (bs : List Byte) :
    (storeCon p s a bs).cv = s.cv := by
  induction bs generalizing s a with
  | nil => rfl
  | cons b bs ih => exact (ih _ _).trans (setCon_cv p s a b)
@[simp] theorem storeCon_wfin (p : Params) (s : State) (a : Nat) (bs : List Byte) :
    (storeCon p s a bs).wfin = s.wfin := by
  induction bs generalizing s a with
  | nil => rfl
  | cons b bs ih => exact (ih _ _).trans (setCon_wfin p s a b)
@[simp] theorem storeCon_busy (p : Params) (s : State) (a : Nat) (bs : List Byte) :
    (storeCon p s a bs).busy = s.busy := by
  induction bs generalizing s a with
  | nil => rfl
  | cons b bs ih => exact (ih _ _).trans (setCon_busy p s a b)
@[simp] theorem storeCon_width (p : Params) (s : State) (a : Nat) (bs : List Byte) :
    (storeCon p s a bs).width = s.width := by
  induction bs generalizing s a with
  | nil => rfl
  | cons b bs ih => exact (ih _ _).trans (setCon_width p s a b)
@[simp] theorem storeCon_height (p : Params) (s : State) (a : Nat) (bs : List Byte) :
    (storeCon p s a bs).height = s.height := by
  induction bs generalizing s a with
  | nil => rfl
  | cons b bs ih => exact (ih _ _).trans (setCon_height p s a b)
@[simp] theorem storeCon_layout (p : Params) (s : State) (a : Nat) (bs : List Byte) :
    (storeCon p s a bs).layout = s.layout := by
  induction bs generalizing s a with
  | nil => rfl
  | cons b bs ih => exact (ih _ _).trans (setCon_layout p s a b)
@[simp] theorem storeCon_conlen (p : Params) (s : State) (a : Nat) (bs : List Byte) :
    (storeCon p s a bs).conlen = s.conlen := by
  induction bs generalizing s a with
  | nil => rfl
  | cons b bs ih => exact (ih _ _).trans (setCon_conlen p s a b)
@[simp] theorem storeCon_total (p : Params) (s : State) (a : Nat) (bs : List Byte) :
    (storeCon p s a bs).total = s.total := by
  induction bs generalizing s a with
  | nil => rfl
  | cons b bs ih => exact (ih _ _).trans (setCon_total p s a b)
@[simp] theorem storeCon_wbase (p : Params) (s : State) (a : Nat) (bs : List Byte) :
    (storeCon p s a bs).wbase = s.wbase := by
  induction bs generalizing s a with
  | nil => rfl
  | cons b bs ih => exact (ih _ _).trans (setCon_wbase p s a b)
@[simp] theorem storeCon_wbits (p : Params) (s : State) (a : Nat) (bs : List Byte) :
    (storeCon p s a bs).wbits = s.wbits := by
  induction bs generalizing s a with
  | nil => rfl
  | cons b bs ih => exact (ih _ _).trans (setCon_wbits p s a b)
@[simp] theorem storeCon_wacc (p : Params) (s : State) (a : Nat) (bs : List Byte) :
    (storeCon p s a bs).wacc = s.wacc := by
  induction bs generalizing s a with
  | nil => rfl
  | cons b bs ih => exact (ih _ _).trans (setCon_wacc p s a b)
@[simp] theorem storeCon_wdata (p : Params) (s : State) (a : Nat) (bs : List Byte) :
    (storeCon p s a bs).wdata = s.wdata := by
  induction bs generalizing s a with
  | nil => rfl
  | cons b bs ih => exact (ih _ _).trans (setCon_wdata p s a b)
@[simp] theorem storeCon_rbase (p : Params) (s : State) (a : Nat) (bs : List Byte) :
    (storeCon p s a bs).rbase = s.rbase := by
  induction bs generalizing s a with
  | nil => rfl
  | cons b bs ih => exact (ih _ _).trans (setCon_rbase p s a b)
@[simp] theorem storeCon_rvalid (p : Params) (s : State) (a : Nat) (bs : List Byte) :
    (storeCon p s a bs).rvalid = s.rvalid := by
  induction bs generalizing s a with
  | nil => rfl
  | cons b bs ih => exact (ih _ _).trans (setCon_rvalid p s a b)
@[simp] theorem storeCon_rpos (p : Params) (s : State) (a : Nat) (bs : List Byte) :
    (storeCon p s a bs).rpos = s.rpos := by
  induction bs generalizing s a with
  | nil => rfl
  | cons b bs ih => exact (ih _ _).trans (setCon_rpos p s a b)
@[simp] theorem storeCon_rdata (p : Params) (s : State) (a : Nat) (bs : List Byte) :
    (storeCon p s a bs).rdata = s.rdata := by
  induction bs generalizing s a with
  | nil => rfl
  | cons b bs ih => exact (ih _ _).trans (setCon_rdata p s a b)
@[simp] theorem storeCon_freq (p : Params) (s : State) (a : Nat) (bs : List Byte) :
    (storeCon p s a bs).freq = s.freq := by
  induction bs generalizing s a with
  | nil => rfl
  | cons b bs ih => exact (ih _ _).trans (setCon_freq p s a b)
@[simp] theorem storeCon_len (p : Params) (s : State) (a : Nat) (bs : List Byte) :
    (storeCon p s a bs).len = s.len := by
  induction bs generalizing s a with
  | nil => rfl
  | cons b bs ih => exact (ih _ _).trans (setCon_len p s a b)
@[simp] theorem storeCon_code (p : Params) (s : State) (a : Nat) (bs : List Byte) :
    (storeCon p s a bs).code = s.code := by
  induction bs generalizing s a with
  | nil => rfl
  | cons b bs ih => exact (ih _ _).trans (setCon_code p s a b)
@[simp] theorem storeCon_pix (p : Params) (s : State) (a : Nat) (bs : List Byte) :
    (storeCon p s a bs).pix = s.pix := by
  induction bs generalizing s a with
  | nil => rfl
  | cons b bs ih => exact (ih _ _).trans (setCon_pix p s a b)
@[simp] theorem storeCon_epoch (p : Params) (s : State) (a : Nat) (bs : List Byte) :
    (storeCon p s a bs).epoch = s.epoch := by
  induction bs generalizing s a with
  | nil => rfl
  | cons b bs ih => exact (ih _ _).trans (setCon_epoch p s a b)
@[simp] theorem storeCon_script (p : Params) (s : State) (a : Nat) (bs : List Byte) :
    (storeCon p s a bs).script = s.script := by
  induction bs generalizing s a with
  | nil => rfl
  | cons b bs ih => exact (ih _ _).trans (setCon_script p s a b)
@[simp] theorem storeCon_reads (p : Params) (s : State) (a : Nat) (bs : List Byte) :
    (storeCon p s a bs).reads = s.reads := by
  induction bs generalizing s a with
  | nil => rfl
  | cons b bs ih => exact (ih _ _).trans (setCon_reads p s a b)

/-! ### `advance`, `finalise`, `pointWriter` -/

@[simp] theorem advance_err (s : State) (c : BitVec 8) : (advance s c).err = s.err := rfl
@[simp] theorem advance_cv (s : State) (c : BitVec 8) : (advance s c).cv = s.cv := rfl
@[simp] theorem advance_wfin (s : State) (c : BitVec 8) : (advance s c).wfin = s.wfin := rfl
@[simp] theorem advance_busy (s : State) (c : BitVec 8) : (advance s c).busy = s.busy := rfl
@[simp] theorem advance_width (s : State) (c : BitVec 8) : (advance s c).width = s.width := rfl
@[simp] theorem advance_height (s : State) (c : BitVec 8) : (advance s c).height = s.height := rfl
@[simp] theorem advance_layout (s : State) (c : BitVec 8) : (advance s c).layout = s.layout := rfl
@[simp] theorem advance_conlen (s : State) (c : BitVec 8) : (advance s c).conlen = s.conlen := rfl
@[simp] theorem advance_total (s : State) (c : BitVec 8) : (advance s c).total = s.total := rfl
@[simp] theorem advance_wbase (s : State) (c : BitVec 8) : (advance s c).wbase = s.wbase := rfl
@[simp] theorem advance_wbits (s : State) (c : BitVec 8) :
    (advance s c).wbits = BitVec.ofNat 64 (s.wbits.toNat + 1) := rfl
@[simp] theorem advance_wacc (s : State) (c : BitVec 8) : (advance s c).wacc = c := rfl
@[simp] theorem advance_wdata (s : State) (c : BitVec 8) : (advance s c).wdata = s.wdata := rfl
@[simp] theorem advance_rbase (s : State) (c : BitVec 8) : (advance s c).rbase = s.rbase := rfl
@[simp] theorem advance_rvalid (s : State) (c : BitVec 8) : (advance s c).rvalid = s.rvalid := rfl
@[simp] theorem advance_rpos (s : State) (c : BitVec 8) : (advance s c).rpos = s.rpos := rfl
@[simp] theorem advance_rdata (s : State) (c : BitVec 8) : (advance s c).rdata = s.rdata := rfl
@[simp] theorem advance_freq (s : State) (c : BitVec 8) : (advance s c).freq = s.freq := rfl
@[simp] theorem advance_len (s : State) (c : BitVec 8) : (advance s c).len = s.len := rfl
@[simp] theorem advance_code (s : State) (c : BitVec 8) : (advance s c).code = s.code := rfl
@[simp] theorem advance_pix (s : State) (c : BitVec 8) : (advance s c).pix = s.pix := rfl
@[simp] theorem advance_con (s : State) (c : BitVec 8) : (advance s c).con = s.con := rfl
@[simp] theorem advance_epoch (s : State) (c : BitVec 8) : (advance s c).epoch = s.epoch := rfl
@[simp] theorem advance_script (s : State) (c : BitVec 8) : (advance s c).script = s.script := rfl
@[simp] theorem advance_reads (s : State) (c : BitVec 8) : (advance s c).reads = s.reads := rfl
@[simp] theorem finalise_err (s : State) : (finalise s).err = s.err := rfl
@[simp] theorem finalise_cv (s : State) : (finalise s).cv = s.cv := rfl
@[simp] theorem finalise_wfin (s : State) : (finalise s).wfin = true := rfl
@[simp] theorem finalise_busy (s : State) : (finalise s).busy = s.busy := rfl
@[simp] theorem finalise_width (s : State) : (finalise s).width = s.width := rfl
@[simp] theorem finalise_height (s : State) : (finalise s).height = s.height := rfl
@[simp] theorem finalise_layout (s : State) : (finalise s).layout = s.layout := rfl
@[simp] theorem finalise_conlen (s : State) : (finalise s).conlen = s.conlen := rfl
@[simp] theorem finalise_total (s : State) : (finalise s).total = s.total := rfl
@[simp] theorem finalise_wbase (s : State) : (finalise s).wbase = s.wbase := rfl
@[simp] theorem finalise_wbits (s : State) : (finalise s).wbits = s.wbits := rfl
@[simp] theorem finalise_wacc (s : State) : (finalise s).wacc = s.wacc := rfl
@[simp] theorem finalise_wdata (s : State) : (finalise s).wdata = s.wdata := rfl
@[simp] theorem finalise_rbase (s : State) : (finalise s).rbase = s.rbase := rfl
@[simp] theorem finalise_rvalid (s : State) : (finalise s).rvalid = s.rvalid := rfl
@[simp] theorem finalise_rpos (s : State) : (finalise s).rpos = s.rpos := rfl
@[simp] theorem finalise_rdata (s : State) : (finalise s).rdata = s.rdata := rfl
@[simp] theorem finalise_freq (s : State) : (finalise s).freq = s.freq := rfl
@[simp] theorem finalise_len (s : State) : (finalise s).len = s.len := rfl
@[simp] theorem finalise_code (s : State) : (finalise s).code = s.code := rfl
@[simp] theorem finalise_pix (s : State) : (finalise s).pix = s.pix := rfl
@[simp] theorem finalise_con (s : State) : (finalise s).con = s.con := rfl
@[simp] theorem finalise_epoch (s : State) : (finalise s).epoch = s.epoch := rfl
@[simp] theorem finalise_script (s : State) : (finalise s).script = s.script := rfl
@[simp] theorem finalise_reads (s : State) : (finalise s).reads = s.reads := rfl
@[simp] theorem pointWriter_err (n v : Nat) (s : State) : (pointWriter n v s).err = s.err := rfl
@[simp] theorem pointWriter_cv (n v : Nat) (s : State) : (pointWriter n v s).cv = s.cv := rfl
@[simp] theorem pointWriter_wfin (n v : Nat) (s : State) : (pointWriter n v s).wfin = false := rfl
@[simp] theorem pointWriter_busy (n v : Nat) (s : State) : (pointWriter n v s).busy = s.busy := rfl
@[simp] theorem pointWriter_width (n v : Nat) (s : State) : (pointWriter n v s).width = s.width := rfl
@[simp] theorem pointWriter_height (n v : Nat) (s : State) : (pointWriter n v s).height = s.height := rfl
@[simp] theorem pointWriter_layout (n v : Nat) (s : State) : (pointWriter n v s).layout = s.layout := rfl
@[simp] theorem pointWriter_conlen (n v : Nat) (s : State) :
    (pointWriter n v s).conlen = BitVec.ofNat 64 (payloadOffset n + ceil8 v) := rfl
@[simp] theorem pointWriter_total (n v : Nat) (s : State) : (pointWriter n v s).total = s.total := rfl
@[simp] theorem pointWriter_wbase (n v : Nat) (s : State) :
    (pointWriter n v s).wbase = BitVec.ofNat 64 (payloadOffset n) := rfl
@[simp] theorem pointWriter_wbits (n v : Nat) (s : State) : (pointWriter n v s).wbits = 0 := rfl
@[simp] theorem pointWriter_wacc (n v : Nat) (s : State) : (pointWriter n v s).wacc = 0 := rfl
@[simp] theorem pointWriter_wdata (n v : Nat) (s : State) : (pointWriter n v s).wdata = s.wdata := rfl
@[simp] theorem pointWriter_rbase (n v : Nat) (s : State) : (pointWriter n v s).rbase = s.rbase := rfl
@[simp] theorem pointWriter_rvalid (n v : Nat) (s : State) : (pointWriter n v s).rvalid = s.rvalid := rfl
@[simp] theorem pointWriter_rpos (n v : Nat) (s : State) : (pointWriter n v s).rpos = s.rpos := rfl
@[simp] theorem pointWriter_rdata (n v : Nat) (s : State) : (pointWriter n v s).rdata = s.rdata := rfl
@[simp] theorem pointWriter_freq (n v : Nat) (s : State) : (pointWriter n v s).freq = s.freq := rfl
@[simp] theorem pointWriter_len (n v : Nat) (s : State) : (pointWriter n v s).len = s.len := rfl
@[simp] theorem pointWriter_code (n v : Nat) (s : State) : (pointWriter n v s).code = s.code := rfl
@[simp] theorem pointWriter_pix (n v : Nat) (s : State) : (pointWriter n v s).pix = s.pix := rfl
@[simp] theorem pointWriter_con (n v : Nat) (s : State) : (pointWriter n v s).con = s.con := rfl
@[simp] theorem pointWriter_epoch (n v : Nat) (s : State) : (pointWriter n v s).epoch = s.epoch := rfl
@[simp] theorem pointWriter_script (n v : Nat) (s : State) : (pointWriter n v s).script = s.script := rfl
@[simp] theorem pointWriter_reads (n v : Nat) (s : State) : (pointWriter n v s).reads = s.reads := rfl

/-! ### `pushBit` and `pushBits`, the fields they leave -/

@[simp] theorem pushBit_err (p : Params) (s : State) (b : Bool) :
    (pushBit p s b).err = s.err := by
  unfold pushBit; split <;> simp
@[simp] theorem pushBit_cv (p : Params) (s : State) (b : Bool) :
    (pushBit p s b).cv = s.cv := by
  unfold pushBit; split <;> simp
@[simp] theorem pushBit_wfin (p : Params) (s : State) (b : Bool) :
    (pushBit p s b).wfin = s.wfin := by
  unfold pushBit; split <;> simp
@[simp] theorem pushBit_busy (p : Params) (s : State) (b : Bool) :
    (pushBit p s b).busy = s.busy := by
  unfold pushBit; split <;> simp
@[simp] theorem pushBit_width (p : Params) (s : State) (b : Bool) :
    (pushBit p s b).width = s.width := by
  unfold pushBit; split <;> simp
@[simp] theorem pushBit_height (p : Params) (s : State) (b : Bool) :
    (pushBit p s b).height = s.height := by
  unfold pushBit; split <;> simp
@[simp] theorem pushBit_layout (p : Params) (s : State) (b : Bool) :
    (pushBit p s b).layout = s.layout := by
  unfold pushBit; split <;> simp
@[simp] theorem pushBit_conlen (p : Params) (s : State) (b : Bool) :
    (pushBit p s b).conlen = s.conlen := by
  unfold pushBit; split <;> simp
@[simp] theorem pushBit_total (p : Params) (s : State) (b : Bool) :
    (pushBit p s b).total = s.total := by
  unfold pushBit; split <;> simp
@[simp] theorem pushBit_wbase (p : Params) (s : State) (b : Bool) :
    (pushBit p s b).wbase = s.wbase := by
  unfold pushBit; split <;> simp
@[simp] theorem pushBit_wdata (p : Params) (s : State) (b : Bool) :
    (pushBit p s b).wdata = s.wdata := by
  unfold pushBit; split <;> simp
@[simp] theorem pushBit_rbase (p : Params) (s : State) (b : Bool) :
    (pushBit p s b).rbase = s.rbase := by
  unfold pushBit; split <;> simp
@[simp] theorem pushBit_rvalid (p : Params) (s : State) (b : Bool) :
    (pushBit p s b).rvalid = s.rvalid := by
  unfold pushBit; split <;> simp
@[simp] theorem pushBit_rpos (p : Params) (s : State) (b : Bool) :
    (pushBit p s b).rpos = s.rpos := by
  unfold pushBit; split <;> simp
@[simp] theorem pushBit_rdata (p : Params) (s : State) (b : Bool) :
    (pushBit p s b).rdata = s.rdata := by
  unfold pushBit; split <;> simp
@[simp] theorem pushBit_freq (p : Params) (s : State) (b : Bool) :
    (pushBit p s b).freq = s.freq := by
  unfold pushBit; split <;> simp
@[simp] theorem pushBit_len (p : Params) (s : State) (b : Bool) :
    (pushBit p s b).len = s.len := by
  unfold pushBit; split <;> simp
@[simp] theorem pushBit_code (p : Params) (s : State) (b : Bool) :
    (pushBit p s b).code = s.code := by
  unfold pushBit; split <;> simp
@[simp] theorem pushBit_pix (p : Params) (s : State) (b : Bool) :
    (pushBit p s b).pix = s.pix := by
  unfold pushBit; split <;> simp
@[simp] theorem pushBit_epoch (p : Params) (s : State) (b : Bool) :
    (pushBit p s b).epoch = s.epoch := by
  unfold pushBit; split <;> simp
@[simp] theorem pushBit_script (p : Params) (s : State) (b : Bool) :
    (pushBit p s b).script = s.script := by
  unfold pushBit; split <;> simp
@[simp] theorem pushBit_reads (p : Params) (s : State) (b : Bool) :
    (pushBit p s b).reads = s.reads := by
  unfold pushBit; split <;> simp
@[simp] theorem pushBits_err (p : Params) (v n : Nat) (s : State) :
    (pushBits p v n s).err = s.err := by
  induction n generalizing s with
  | zero => rfl
  | succ n ih => exact (ih _).trans (pushBit_err p s _)
@[simp] theorem pushBits_cv (p : Params) (v n : Nat) (s : State) :
    (pushBits p v n s).cv = s.cv := by
  induction n generalizing s with
  | zero => rfl
  | succ n ih => exact (ih _).trans (pushBit_cv p s _)
@[simp] theorem pushBits_wfin (p : Params) (v n : Nat) (s : State) :
    (pushBits p v n s).wfin = s.wfin := by
  induction n generalizing s with
  | zero => rfl
  | succ n ih => exact (ih _).trans (pushBit_wfin p s _)
@[simp] theorem pushBits_busy (p : Params) (v n : Nat) (s : State) :
    (pushBits p v n s).busy = s.busy := by
  induction n generalizing s with
  | zero => rfl
  | succ n ih => exact (ih _).trans (pushBit_busy p s _)
@[simp] theorem pushBits_width (p : Params) (v n : Nat) (s : State) :
    (pushBits p v n s).width = s.width := by
  induction n generalizing s with
  | zero => rfl
  | succ n ih => exact (ih _).trans (pushBit_width p s _)
@[simp] theorem pushBits_height (p : Params) (v n : Nat) (s : State) :
    (pushBits p v n s).height = s.height := by
  induction n generalizing s with
  | zero => rfl
  | succ n ih => exact (ih _).trans (pushBit_height p s _)
@[simp] theorem pushBits_layout (p : Params) (v n : Nat) (s : State) :
    (pushBits p v n s).layout = s.layout := by
  induction n generalizing s with
  | zero => rfl
  | succ n ih => exact (ih _).trans (pushBit_layout p s _)
@[simp] theorem pushBits_conlen (p : Params) (v n : Nat) (s : State) :
    (pushBits p v n s).conlen = s.conlen := by
  induction n generalizing s with
  | zero => rfl
  | succ n ih => exact (ih _).trans (pushBit_conlen p s _)
@[simp] theorem pushBits_total (p : Params) (v n : Nat) (s : State) :
    (pushBits p v n s).total = s.total := by
  induction n generalizing s with
  | zero => rfl
  | succ n ih => exact (ih _).trans (pushBit_total p s _)
@[simp] theorem pushBits_wbase (p : Params) (v n : Nat) (s : State) :
    (pushBits p v n s).wbase = s.wbase := by
  induction n generalizing s with
  | zero => rfl
  | succ n ih => exact (ih _).trans (pushBit_wbase p s _)
@[simp] theorem pushBits_wdata (p : Params) (v n : Nat) (s : State) :
    (pushBits p v n s).wdata = s.wdata := by
  induction n generalizing s with
  | zero => rfl
  | succ n ih => exact (ih _).trans (pushBit_wdata p s _)
@[simp] theorem pushBits_rbase (p : Params) (v n : Nat) (s : State) :
    (pushBits p v n s).rbase = s.rbase := by
  induction n generalizing s with
  | zero => rfl
  | succ n ih => exact (ih _).trans (pushBit_rbase p s _)
@[simp] theorem pushBits_rvalid (p : Params) (v n : Nat) (s : State) :
    (pushBits p v n s).rvalid = s.rvalid := by
  induction n generalizing s with
  | zero => rfl
  | succ n ih => exact (ih _).trans (pushBit_rvalid p s _)
@[simp] theorem pushBits_rpos (p : Params) (v n : Nat) (s : State) :
    (pushBits p v n s).rpos = s.rpos := by
  induction n generalizing s with
  | zero => rfl
  | succ n ih => exact (ih _).trans (pushBit_rpos p s _)
@[simp] theorem pushBits_rdata (p : Params) (v n : Nat) (s : State) :
    (pushBits p v n s).rdata = s.rdata := by
  induction n generalizing s with
  | zero => rfl
  | succ n ih => exact (ih _).trans (pushBit_rdata p s _)
@[simp] theorem pushBits_freq (p : Params) (v n : Nat) (s : State) :
    (pushBits p v n s).freq = s.freq := by
  induction n generalizing s with
  | zero => rfl
  | succ n ih => exact (ih _).trans (pushBit_freq p s _)
@[simp] theorem pushBits_len (p : Params) (v n : Nat) (s : State) :
    (pushBits p v n s).len = s.len := by
  induction n generalizing s with
  | zero => rfl
  | succ n ih => exact (ih _).trans (pushBit_len p s _)
@[simp] theorem pushBits_code (p : Params) (v n : Nat) (s : State) :
    (pushBits p v n s).code = s.code := by
  induction n generalizing s with
  | zero => rfl
  | succ n ih => exact (ih _).trans (pushBit_code p s _)
@[simp] theorem pushBits_pix (p : Params) (v n : Nat) (s : State) :
    (pushBits p v n s).pix = s.pix := by
  induction n generalizing s with
  | zero => rfl
  | succ n ih => exact (ih _).trans (pushBit_pix p s _)
@[simp] theorem pushBits_epoch (p : Params) (v n : Nat) (s : State) :
    (pushBits p v n s).epoch = s.epoch := by
  induction n generalizing s with
  | zero => rfl
  | succ n ih => exact (ih _).trans (pushBit_epoch p s _)
@[simp] theorem pushBits_script (p : Params) (v n : Nat) (s : State) :
    (pushBits p v n s).script = s.script := by
  induction n generalizing s with
  | zero => rfl
  | succ n ih => exact (ih _).trans (pushBit_script p s _)
@[simp] theorem pushBits_reads (p : Params) (v n : Nat) (s : State) :
    (pushBits p v n s).reads = s.reads := by
  induction n generalizing s with
  | zero => rfl
  | succ n ih => exact (ih _).trans (pushBit_reads p s _)

end Sys2Proof.Machine
end

