-- ==== Sys2Proof/Laws/Table.lean ====
section
/-! SUPPORT. Laws of the tables, of sums over the symbols and of little-endian numbers. -/

namespace Sys2Proof.Machine

/-! ### Reading after writing -/

@[simp] theorem tableGet_tableSet_same {w : Nat} (t : Table w) (x : Sym) (v : BitVec w) :
    tableGet (tableSet t x v) x = v := by
  simp [tableGet, tableSet]

theorem tableGet_tableSet_ne {w : Nat} (t : Table w) {x y : Sym} (v : BitVec w) (h : x ≠ y) :
    tableGet (tableSet t x v) y = tableGet t y := by
  have : x.toNat ≠ y.toNat := fun e => h (BitVec.eq_of_toNat_eq e)
  simp [tableGet, tableSet, this]

theorem tableGet_tableSet {w : Nat} (t : Table w) (x y : Sym) (v : BitVec w) :
    tableGet (tableSet t x v) y = if x = y then v else tableGet t y := by
  split
  · subst_vars; simp
  · exact tableGet_tableSet_ne t v ‹_›

@[simp] theorem tableGet_tableOf {w : Nat} (f : Sym → BitVec w) (x : Sym) : tableGet (tableOf f) x = f x := by
  simp [tableGet, tableOf]

@[simp] theorem tableGet_tableZero (w : Nat) (x : Sym) : tableGet (tableZero w) x = 0 := by
  simp [tableGet, tableZero]

/-- Two tables with equal entries are equal. -/
theorem table_ext {w : Nat} {t u : Table w} (h : ∀ x, tableGet t x = tableGet u x) : t = u := by
  apply Vector.ext
  intro i hi
  have := h (BitVec.ofNat 8 i)
  simpa [tableGet, Nat.mod_eq_of_lt hi] using this

/-! ### The symbols -/

@[simp] theorem mem_allSyms (x : Sym) : x ∈ allSyms :=
  List.mem_map.2 ⟨x.toNat, List.mem_range.2 x.isLt, by simp⟩

/-- "exists s" ranges over all symbols. -/
theorem someSym_iff {P : Sym → Prop} [DecidablePred P] : (someSym fun x => decide (P x)) = true ↔ ∃ x, P x := by
  simp [someSym]

theorem allSyms_nodup : allSyms.Nodup := by
  unfold allSyms
  refine List.Nodup.map_on ?_ List.nodup_range
  intro a ha b hb h
  have h' := congrArg BitVec.toNat h
  simp only [List.mem_range] at ha hb
  simpa [BitVec.toNat_ofNat, Nat.mod_eq_of_lt ha, Nat.mod_eq_of_lt hb] using h'

theorem allSyms_length : allSyms.length = 256 := by simp [allSyms]

/-- The symbols stand in ascending order. -/
theorem allSyms_sorted : allSyms.Pairwise fun x y => x.toNat < y.toNat := by
  unfold allSyms
  rw [List.pairwise_map]
  refine List.Pairwise.imp_of_mem ?_ List.pairwise_lt_range
  intro a b ha hb h
  simp only [List.mem_range] at ha hb
  simpa [BitVec.toNat_ofNat, Nat.mod_eq_of_lt ha, Nat.mod_eq_of_lt hb] using h

theorem mem_presentSyms {f : Sym → Nat} {x : Sym} : x ∈ presentSyms f ↔ f x ≠ 0 := by simp [presentSyms]

theorem presentSyms_nodup (f : Sym → Nat) : (presentSyms f).Nodup := allSyms_nodup.filter _

theorem presentSyms_sorted (f : Sym → Nat) : (presentSyms f).Pairwise fun x y => x.toNat < y.toNat :=
  allSyms_sorted.filter _

theorem presentSyms_length_le (f : Sym → Nat) : (presentSyms f).length ≤ 256 :=
  allSyms_length ▸ List.length_filter_le _ _

/-- Only which symbols are present matters. -/
theorem presentSyms_congr {f g : Sym → Nat} (h : ∀ x, f x ≠ 0 ↔ g x ≠ 0) : presentSyms f = presentSyms g := by
  unfold presentSyms
  exact List.filter_congr fun x _ => by simpa using not_iff_not.1 (h x)

/-! ### Sums over the symbols -/

/-- The sum over the symbols is Mathlib's sum over the finite type, whose lemmas then apply. -/
theorem sumSyms_eq_sum (f : Sym → Nat) : sumSyms f = ∑ x : Sym, f x := by
  have h : (Finset.univ : Finset Sym) = allSyms.toFinset := by
    ext x; simp
  rw [h, List.sum_toFinset f allSyms_nodup]; rfl

theorem sumSyms_congr {f g : Sym → Nat} (h : ∀ x, f x = g x) : sumSyms f = sumSyms g := by
  rw [show f = g from funext h]

@[simp] theorem sumSyms_zero : sumSyms (fun _ => 0) = 0 := by simp [sumSyms_eq_sum]

theorem le_sumSyms (f : Sym → Nat) (x : Sym) : f x ≤ sumSyms f := by
  rw [sumSyms_eq_sum]; exact Finset.single_le_sum (f := f) (fun _ _ => Nat.zero_le _) (Finset.mem_univ x)

theorem sumSyms_le {f g : Sym → Nat} (h : ∀ x, f x ≤ g x) : sumSyms f ≤ sumSyms g := by
  rw [sumSyms_eq_sum, sumSyms_eq_sum]; exact Finset.sum_le_sum fun x _ => h x

theorem sumSyms_add (f g : Sym → Nat) : sumSyms (fun x => f x + g x) = sumSyms f + sumSyms g := by
  simp [sumSyms_eq_sum, Finset.sum_add_distrib]

/-- One entry larger by `k` makes the sum larger by `k`. -/
theorem sumSyms_bump (f : Sym → Nat) (x : Sym) (k : Nat) :
    sumSyms (fun y => if x = y then f y + k else f y) = sumSyms f + k := by
  have h : ∀ y, (if x = y then f y + k else f y) = f y + (if x = y then k else 0) := fun y => by split <;> simp
  rw [sumSyms_congr h, sumSyms_add, sumSyms_eq_sum (fun y => if x = y then k else 0)]
  simp

theorem sumSyms_eq_zero {f : Sym → Nat} : sumSyms f = 0 ↔ ∀ x, f x = 0 := by
  simp [sumSyms_eq_sum]

/-! ### Little-endian numbers (spec/00_scope.md R10) -/

@[simp] theorem leBytes_length (n v : Nat) : (leBytes n v).length = n := by
  induction n generalizing v with
  | zero => rfl
  | succ n ih => simp [leBytes, ih]

/-- `le` undoes `LE_n` on the numbers that `n` bytes hold. -/
theorem leVal_leBytes (n v : Nat) (h : v < 256 ^ n) : leVal (leBytes n v) = v := by
  induction n generalizing v with
  | zero => simp only [pow_zero, Nat.lt_one_iff] at h; simp [leBytes, leVal, h]
  | succ n ih =>
    have h' : v / 256 < 256 ^ n := Nat.div_lt_of_lt_mul (by rw [pow_succ] at h; omega)
    simp only [leBytes, leVal, ih _ h', BitVec.toNat_ofNat]
    omega

theorem leVal_lt (bs : List Byte) : leVal bs < 256 ^ bs.length := by
  induction bs with
  | nil => simp [leVal]
  | cons b bs ih =>
    have hb : b.toNat < 256 := b.isLt
    simp only [leVal, List.length_cons, pow_succ]
    omega

end Sys2Proof.Machine
end

