-- ==== Sys2Proof/Laws/Assigner.lean ====
section
/-! SUPPORT. The order of the symbols by `(LEN, symbol)` and the codes along it (spec/43_canonical_assigner.md R172). -/

namespace Sys2Proof.Machine

variable {f : Sym → Nat}

/-! ### Keys -/

theorem canonBefore_trans {x y z : Sym} (h : canonBefore f x y) (h' : canonBefore f y z) : canonBefore f x z := by
  unfold canonBefore at *; omega

theorem canonBefore_total {x y : Sym} (h : x ≠ y) : canonBefore f x y ∨ canonBefore f y x := by
  have : x.toNat ≠ y.toNat := fun e => h (BitVec.eq_of_toNat_eq e)
  unfold canonBefore; omega

theorem not_canonBefore_self (x : Sym) : ¬ canonBefore f x x := by unfold canonBefore; omega

/-! ### Insertion -/

theorem canonInsert_perm (x : Sym) (l : List Sym) : (canonInsert f x l).Perm (x :: l) := by
  induction l with
  | nil => exact List.Perm.refl _
  | cons y ys ih =>
    unfold canonInsert
    split
    · exact List.Perm.refl _
    · exact (ih.cons y).trans (List.Perm.swap x y ys)

theorem canonInsert_sorted {x : Sym} {l : List Sym} (h : l.Pairwise (canonBefore f)) (hx : x ∉ l) :
    (canonInsert f x l).Pairwise (canonBefore f) := by
  induction l with
  | nil => simp [canonInsert]
  | cons y ys ih =>
    obtain ⟨hy, hys⟩ := List.pairwise_cons.1 h
    unfold canonInsert
    split
    · rename_i hxy
      refine List.pairwise_cons.2 ⟨fun z hz => ?_, h⟩
      rcases List.mem_cons.1 hz with rfl | hz
      · exact hxy
      · exact canonBefore_trans hxy (hy z hz)
    · rename_i hxy
      refine List.pairwise_cons.2 ⟨fun z hz => ?_, ih hys fun h => hx (List.mem_cons_of_mem y h)⟩
      rcases List.mem_cons.1 ((canonInsert_perm x ys).mem_iff.1 hz) with rfl | hz
      · exact (canonBefore_total fun e : z = y => hx (by rw [e]; exact List.mem_cons_self)).resolve_left hxy
      · exact hy z hz

/-- The order is a rearrangement of the symbols with a code. -/
theorem canonOrder_perm (f : Sym → Nat) : (canonOrder f).Perm (presentSyms f) := by
  unfold canonOrder
  induction presentSyms f with
  | nil => exact List.Perm.refl _
  | cons x xs ih => exact (canonInsert_perm x _).trans (ih.cons x)

theorem canonOrder_nodup (f : Sym → Nat) : (canonOrder f).Nodup :=
  (canonOrder_perm f).nodup_iff.2 (presentSyms_nodup f)

theorem foldr_canonInsert_sorted {l : List Sym} (h : l.Nodup) :
    (l.foldr (canonInsert f) []).Pairwise (canonBefore f) ∧ (l.foldr (canonInsert f) []).Perm l := by
  induction l with
  | nil => exact ⟨List.Pairwise.nil, List.Perm.refl _⟩
  | cons x xs ih =>
    obtain ⟨hx, hxs⟩ := List.nodup_cons.1 h
    obtain ⟨h1, h2⟩ := ih hxs
    exact ⟨canonInsert_sorted h1 fun hm => hx (h2.mem_iff.1 hm), (canonInsert_perm x _).trans (h2.cons x)⟩

/-! ### Codes -/

@[simp] theorem codesAfter_keys (q : Sym) (c : Nat) (l : List Sym) : (codesAfter f q c l).map Prod.fst = l := by
  induction l generalizing q c with
  | nil => rfl
  | cons x xs ih => simp [codesAfter, ih]

/-- Each symbol of the order gets one code, in the order. -/
@[simp] theorem codeList_keys (f : Sym → Nat) : (codeList f).map Prod.fst = canonOrder f := by
  unfold codeList
  split
  · simp [*]
  · simp [*]

/-- In a list with distinct keys, what stands with a key is what is looked up. -/
theorem lookup_of_mem {l : List (Sym × Nat)} (hn : (l.map Prod.fst).Nodup) {x : Sym} {c : Nat} (h : (x, c) ∈ l) :
    l.lookup x = some c := by
  induction l with
  | nil => simp at h
  | cons e es ih =>
    obtain ⟨y, d⟩ := e
    simp only [List.map_cons, List.nodup_cons] at hn
    rcases List.mem_cons.1 h with h | h
    · cases h; simp
    · have : x ≠ y := fun e => hn.1 (e ▸ List.mem_map.2 ⟨(x, c), h, rfl⟩)
      rw [List.lookup_cons, show (x == y) = false by simpa using this]
      exact ih hn.2 h

theorem lookup_of_not_mem {l : List (Sym × Nat)} {x : Sym} (h : x ∉ l.map Prod.fst) : l.lookup x = none := by
  induction l with
  | nil => rfl
  | cons e es ih =>
    obtain ⟨y, d⟩ := e
    simp only [List.map_cons, List.mem_cons, not_or] at h
    rw [List.lookup_cons, show (x == y) = false by simpa using h.1]
    exact ih h.2

/-- The code that the list gives a symbol is its canonical code. -/
theorem canonicalCode_of_mem {x : Sym} {c : Nat} (h : (x, c) ∈ codeList f) : canonicalCode f x = c := by
  unfold canonicalCode
  rw [lookup_of_mem (by rw [codeList_keys]; exact canonOrder_nodup f) h]
  rfl

end Sys2Proof.Machine
end

