-- ==== Sys2Proof/Laws/Memory.lean ====
section
/-! SUPPORT. Laws of the byte memories: reading after writing, other bytes unchanged, the canonical form kept. -/

namespace Sys2Proof.Machine

variable {d : Nat → Byte} {n : Nat} {m : Memory}

/-! ### Reading after writing -/

theorem memRead_of_not_mem {a : Nat} (h : ∀ c ∈ m, c.1 ≠ a) : memRead d m a = d a := by
  induction m with
  | nil => rfl
  | cons c cs ih =>
    simp only [memRead]
    rw [if_neg (h c (by simp)), ih fun e he => h e (by simp [he])]

@[simp] theorem memRead_erase_same (m : Memory) (a : Nat) : memRead d (memErase m a) a = d a :=
  memRead_of_not_mem fun c hc => by simpa using (List.mem_filter.1 hc).2

theorem memRead_erase_ne {a a' : Nat} (h : a' ≠ a) : memRead d (memErase m a) a' = memRead d m a' := by
  induction m with
  | nil => rfl
  | cons c cs ih =>
    have e : memErase (c :: cs) a = if c.1 ≠ a then c :: memErase cs a else memErase cs a := by
      simp [memErase, List.filter_cons]
    rw [e]
    split
    · simp only [memRead, ih]
    · rename_i hc
      have hc : c.1 = a := by simpa using hc
      rw [ih, memRead, if_neg (by omega)]

theorem memRead_insert_ne {a a' : Nat} {b : Byte} (h : a' ≠ a) :
    memRead d (memInsert m a b) a' = memRead d m a' := by
  induction m with
  | nil => simp [memInsert, memRead, Ne.symm h]
  | cons c cs ih =>
    unfold memInsert
    split
    · rw [memRead, if_neg (Ne.symm h)]
    · simp only [memRead, ih]

theorem memRead_insert_same {a : Nat} {b : Byte} (h : ∀ c ∈ m, c.1 ≠ a) : memRead d (memInsert m a b) a = b := by
  induction m with
  | nil => simp [memInsert, memRead]
  | cons c cs ih =>
    unfold memInsert
    split
    · simp [memRead]
    · rw [memRead, if_neg (h c (by simp)), ih fun e he => h e (by simp [he])]

/-- A read after a write to the same address gives the byte written, in every memory. -/
@[simp] theorem memRead_write_same (m : Memory) (a : Nat) (b : Byte) : memRead d (memWrite d m a b) a = b := by
  unfold memWrite
  split
  · rename_i h; rw [memRead_erase_same, h]
  · exact memRead_insert_same fun c hc => by simpa using (List.mem_filter.1 hc).2

/-- A write leaves every other byte. -/
theorem memRead_write_ne {a a' : Nat} {b : Byte} (h : a' ≠ a) :
    memRead d (memWrite d m a b) a' = memRead d m a' := by
  unfold memWrite
  split
  · exact memRead_erase_ne h
  · rw [memRead_insert_ne h, memRead_erase_ne h]

theorem memRead_write (m : Memory) (a a' : Nat) (b : Byte) :
    memRead d (memWrite d m a b) a' = if a' = a then b else memRead d m a' := by
  split
  · subst_vars; simp
  · exact memRead_write_ne ‹_›

/-! ### The canonical form -/

theorem Memory.wf_nil : Memory.wf d n [] := ⟨List.Pairwise.nil, by simp⟩

theorem Memory.wf_erase (h : Memory.wf d n m) (a : Nat) : Memory.wf d n (memErase m a) :=
  ⟨h.1.filter _, fun c hc => h.2 c (List.mem_filter.1 hc).1⟩

theorem mem_memInsert {a : Nat} {b : Byte} {c : Host.Cell} : c ∈ memInsert m a b ↔ c = (a, b) ∨ c ∈ m := by
  induction m with
  | nil => simp [memInsert]
  | cons e es ih =>
    unfold memInsert
    split
    · simp
    · simp only [List.mem_cons, ih]; tauto

theorem memInsert_sorted {a : Nat} {b : Byte} (h : m.Pairwise fun c e => c.1 < e.1) (ha : ∀ c ∈ m, c.1 ≠ a) :
    (memInsert m a b).Pairwise fun c e => c.1 < e.1 := by
  induction m with
  | nil => simp [memInsert]
  | cons c cs ih =>
    obtain ⟨h1, h2⟩ := List.pairwise_cons.1 h
    unfold memInsert
    split
    · rename_i hlt
      refine List.pairwise_cons.2 ⟨fun e he => ?_, h⟩
      rcases List.mem_cons.1 he with rfl | he
      · exact hlt
      · exact hlt.trans (h1 e he)
    · rename_i hge
      have hne := ha c (by simp)
      refine List.pairwise_cons.2 ⟨fun e he => ?_, ih h2 fun e he => ha e (by simp [he])⟩
      rcases mem_memInsert.1 he with rfl | he
      · simp only; omega
      · exact h1 e he

/-- A write inside the memory keeps the canonical form. -/
theorem Memory.wf_write (h : Memory.wf d n m) {a : Nat} (ha : a < n) (b : Byte) : Memory.wf d n (memWrite d m a b) := by
  unfold memWrite
  split
  · exact Memory.wf_erase h a
  · rename_i hb
    have he := Memory.wf_erase h a
    refine ⟨memInsert_sorted he.1 fun c hc => by simpa using (List.mem_filter.1 hc).2, fun c hc => ?_⟩
    rcases mem_memInsert.1 hc with rfl | hc
    · exact ⟨ha, hb⟩
    · exact he.2 c hc

/-- In a canonical memory the listed byte is what a read gives. -/
theorem memRead_of_mem (h : Memory.wf d n m) {c : Host.Cell} (hc : c ∈ m) : memRead d m c.1 = c.2 := by
  obtain ⟨h1, -⟩ := h
  induction m with
  | nil => simp at hc
  | cons e es ih =>
    obtain ⟨h1, h2⟩ := List.pairwise_cons.1 h1
    rcases List.mem_cons.1 hc with rfl | hc
    · simp [memRead]
    · rw [memRead, if_neg (by have := h1 c hc; omega)]
      exact ih hc h2

/-- Canonical memories with equal bytes are equal data. -/
theorem Memory.wf_ext {m' : Memory} (h : Memory.wf d n m) (h' : Memory.wf d n m')
    (e : ∀ a, memRead d m a = memRead d m' a) : m = m' := by
  have key : ∀ {l l' : Memory}, Memory.wf d n l → Memory.wf d n l' → (∀ a, memRead d l a = memRead d l' a) →
      ∀ c ∈ l, c ∈ l' := by
    intro l l' hl hl' he c hc
    by_contra hn
    have h1 := memRead_of_mem hl hc
    have h2 := (hl.2 c hc).2
    by_cases hx : ∃ b ∈ l', b.1 = c.1
    · obtain ⟨b, hb, hbc⟩ := hx
      have h3 := memRead_of_mem hl' hb
      rw [hbc, ← he, h1] at h3
      exact hn (by rwa [show c = b from Prod.ext hbc.symm h3])
    · push Not at hx
      rw [he, memRead_of_not_mem hx] at h1
      exact h2 h1.symm
  have nd : ∀ {l : Memory}, Memory.wf d n l → l.Nodup := fun hl => hl.1.imp fun hlt e => by subst e; omega
  refine List.Perm.eq_of_pairwise (le := fun c e : Host.Cell => c.1 < e.1) ?_ h.1 h'.1 ?_
  · intro a b _ _ h1 h2; omega
  · exact (List.perm_ext_iff_of_nodup (nd h) (nd h')).2 fun c =>
      ⟨key h h' e c, key h' h (fun a => (e a).symm) c⟩

/-! ### The two memories of a state -/

variable {p : Params} {s : State}

@[simp] theorem fresh_setPix (p : Params) (s : State) (a : Nat) (b : Byte) (m : MemId) :
    fresh p (setPix p s a b) m = fresh p s m := by simp [fresh]

@[simp] theorem fresh_setCon (p : Params) (s : State) (a : Nat) (b : Byte) (m : MemId) :
    fresh p (setCon p s a b) m = fresh p s m := by simp [fresh]

theorem pixByte_setPix {a : Nat} (h : a < p.maxSamples) (b : Byte) (a' : Nat) :
    pixByte p (setPix p s a b) a' = if a' = a then b else pixByte p s a' := by
  unfold pixByte
  rw [fresh_setPix, setPix, if_pos h]
  exact memRead_write _ _ _ _

theorem conByte_setCon {a : Nat} (h : a < p.conCap) (b : Byte) (a' : Nat) :
    conByte p (setCon p s a b) a' = if a' = a then b else conByte p s a' := by
  unfold conByte
  rw [fresh_setCon, setCon, if_pos h]
  exact memRead_write _ _ _ _

/-- A store to `CON` leaves every other byte, wherever it goes. -/
theorem conByte_setCon_ne {a a' : Nat} {b : Byte} (h : a' ≠ a) : conByte p (setCon p s a b) a' = conByte p s a' := by
  by_cases hc : a < p.conCap
  · rw [conByte_setCon hc, if_neg h]
  · unfold setCon; rw [if_neg hc]

theorem pixByte_setPix_ne {a a' : Nat} {b : Byte} (h : a' ≠ a) : pixByte p (setPix p s a b) a' = pixByte p s a' := by
  by_cases hc : a < p.maxSamples
  · rw [pixByte_setPix hc, if_neg h]
  · unfold setPix; rw [if_neg hc]

@[simp] theorem pixByte_setCon (a : Nat) (b : Byte) (a' : Nat) : pixByte p (setCon p s a b) a' = pixByte p s a' := by
  simp [pixByte]

@[simp] theorem conByte_setPix (a : Nat) (b : Byte) (a' : Nat) : conByte p (setPix p s a b) a' = conByte p s a' := by
  simp [conByte]

/-- Only the bytes listed and the reset count matter to a read. -/
theorem conByte_congr {t : State} (hc : t.con = s.con) (he : t.epoch = s.epoch) (a : Nat) :
    conByte p t a = conByte p s a := by simp [conByte, fresh, hc, he]

theorem pixByte_congr {t : State} (hc : t.pix = s.pix) (he : t.epoch = s.epoch) (a : Nat) :
    pixByte p t a = pixByte p s a := by simp [pixByte, fresh, hc, he]

/-- The result code is no part of what a byte reads as. -/
@[simp] theorem conByte_err (k : BitVec 4) (a : Nat) : conByte p { s with err := k } a = conByte p s a :=
  conByte_congr rfl rfl a

@[simp] theorem pixByte_err (k : BitVec 4) (a : Nat) : pixByte p { s with err := k } a = pixByte p s a :=
  pixByte_congr rfl rfl a

/-- Everything a run of stores to `CON` does to its bytes. -/
theorem conByte_storeCon {a : Nat} {bs : List Byte} (h : a + bs.length ≤ p.conCap) (i : Nat) :
    conByte p (storeCon p s a bs) i = if a ≤ i then (bs[i - a]?).getD (conByte p s i) else conByte p s i := by
  induction bs generalizing s a with
  | nil => simp [storeCon]
  | cons b bs ih =>
    simp only [List.length_cons] at h
    rw [storeCon, ih (by omega), conByte_setCon (by omega)]
    by_cases h1 : a + 1 ≤ i
    · have h2 : i ≠ a := by omega
      have h3 : a ≤ i := by omega
      rw [show i - a = (i - (a + 1)) + 1 by omega, List.getElem?_cons_succ]
      simp only [h1, h2, h3, if_true, if_false]
    · by_cases h2 : i = a
      · subst h2; simp
      · have h3 : ¬ a ≤ i := by omega
        simp only [h1, h2, h3, if_false]

/-! ### Both memories canonical -/

/-- A store keeps both memories canonical: no premise on the address, for an address the memory does not have is not
written. -/
theorem wf_setCon (h : Memory.wf (fresh p s .con) p.conCap s.con) (a : Nat) (b : Byte) :
    Memory.wf (fresh p (setCon p s a b) .con) p.conCap (setCon p s a b).con := by
  rw [fresh_setCon]
  unfold setCon
  split
  · exact Memory.wf_write h ‹_› b
  · exact h

theorem wf_setPix (h : Memory.wf (fresh p s .pix) p.maxSamples s.pix) (a : Nat) (b : Byte) :
    Memory.wf (fresh p (setPix p s a b) .pix) p.maxSamples (setPix p s a b).pix := by
  rw [fresh_setPix]
  unfold setPix
  split
  · exact Memory.wf_write h ‹_› b
  · exact h

theorem wf_storeCon (h : Memory.wf (fresh p s .con) p.conCap s.con) (a : Nat) (bs : List Byte) :
    Memory.wf (fresh p (storeCon p s a bs) .con) p.conCap (storeCon p s a bs).con := by
  induction bs generalizing s a with
  | nil => exact h
  | cons b bs ih => exact ih (wf_setCon h a b) (a + 1)

theorem conBytes_length (a k : Nat) : (conBytes p s a k).length = k := by simp [conBytes]

end Sys2Proof.Machine
end

