-- ==== Sys2Proof/Laws/Command.lean ====
section
/-! SUPPORT. How a command ends, the loop of a macro command, and for each command what its success means: one
inversion lemma each, which later proofs cite instead of unfolding the command. -/

namespace Sys2Proof.Machine

/-! ### Results in sequence -/

theorem bind_eq_ok {α β : Type} {x : Except ErrKind α} {f : α → Except ErrKind β} {b : β} :
    x.bind f = .ok b ↔ ∃ a, x = .ok a ∧ f a = .ok b := by
  constructor
  · intro h
    cases x with
    | ok a => exact ⟨a, rfl, h⟩
    | error e => nomatch h
  · rintro ⟨a, rfl, h⟩; exact h

theorem bind_eq_error {α β : Type} {x : Except ErrKind α} {f : α → Except ErrKind β} {k : ErrKind} :
    x.bind f = .error k ↔ x = .error k ∨ ∃ a, x = .ok a ∧ f a = .error k := by
  constructor
  · intro h
    cases x with
    | ok a => exact .inr ⟨a, rfl, h⟩
    | error e => cases h; exact .inl rfl
  · rintro (rfl | ⟨a, rfl, h⟩)
    · rfl
    · exact h

@[simp] theorem ok_bind {α β : Type} (a : α) (f : α → Except ErrKind β) : (Except.ok a).bind f = f a := rfl

@[simp] theorem error_bind {α β : Type} (k : ErrKind) (f : α → Except ErrKind β) :
    (Except.error k).bind f = .error k := rfl

/-! ### How a command ends (spec/60_exceptions.md R273) -/

@[simp] theorem finish_ok (s t : State) : finish s (.ok t) = .next { t with err := 0 } := rfl

@[simp] theorem finish_error (s : State) (k : ErrKind) : finish s (.error k) = .next (raise k s) := rfl

/-- A command always ends, in success or with a kind. -/
theorem finish_cases (s : State) (r : Except ErrKind State) :
    (∃ t, r = .ok t ∧ finish s r = .next { t with err := 0 }) ∨ ∃ k, r = .error k ∧ finish s r = .next (raise k s) := by
  cases r with
  | ok t => exact .inl ⟨t, rfl, rfl⟩
  | error k => exact .inr ⟨k, rfl, rfl⟩

theorem code_ne_zero (k : ErrKind) : k.code ≠ 0 := by cases k <;> decide

theorem raise_err_ne_zero (k : ErrKind) (s : State) : (raise k s).err ≠ 0 := code_ne_zero k

theorem code_injective {j k : ErrKind} (h : j.code = k.code) : j = k := by
  cases j <;> cases k <;> first | rfl | exact absurd h (by decide)

theorem code_le (k : ErrKind) : k.code.toNat ≤ 7 := by cases k <;> decide

/-- The result code tells success from failure. -/
theorem finish_err_zero {s t : State} {r : Except ErrKind State} (h : finish s r = .next t) (h0 : t.err = 0) :
    ∃ u, r = .ok u ∧ t = { u with err := 0 } := by
  rcases finish_cases s r with ⟨u, hu, he⟩ | ⟨k, -, he⟩
  · exact ⟨u, hu, by rw [he] at h; cases h; rfl⟩
  · rw [he] at h; cases h; exact absurd h0 (code_ne_zero k)

/-- The result of a command before it is committed: what `exec` finishes. -/
def resultOf (i : Instr) (s : State) : Except ErrKind State :=
  match i with
  | .nop => .ok s
  | .clr => .ok (clearBlock s)
  | .acc x => accCmd Config.params x s
  | .stat => statCmd Config.params s
  | .build => buildCmd s
  | .assign => assignCmd s
  | .winit => .ok (writerInit s)
  | .putb n => putbCmd Config.params n s
  | .puts x => putsCmd Config.params x s
  | .fin => finCmd Config.params s
  | .rinit => .ok (readerInit s)
  | .getb => getbCmd Config.params s
  | .gets => getsCmd Config.params s
  | .parse => parseCmd Config.params s
  | .decode => decodeCmd Config.params s
  | .wrhdr => wrhdrCmd Config.params s
  | .encode => encodeCmd Config.params s

/-- Every command is its result, committed or raised. -/
theorem exec_eq_finish (i : Instr) (s : State) : exec i s = finish s (resultOf i s) := by cases i <;> rfl

/-! ### The loop of a macro command -/

section Loop
variable {σ : Type} {f : Nat → σ → Except ErrKind σ}

@[simp] theorem loop_zero (a : σ) : loop 0 f a = .ok a := rfl

theorem loop_succ (n : Nat) (a : σ) : loop (n + 1) f a = (loop n f a).bind (f n) := rfl

/-- What every turn keeps holds at the end. -/
theorem loop_inv {I : Nat → σ → Prop} {n : Nat} {a b : σ} (h0 : I 0 a)
    (hs : ∀ i c d, i < n → I i c → f i c = .ok d → I (i + 1) d) (h : loop n f a = .ok b) : I n b := by
  induction n generalizing b with
  | zero => cases h; exact h0
  | succ n ih =>
    obtain ⟨c, hc, hb⟩ := bind_eq_ok.1 (loop_succ n a ▸ h)
    exact hs n c b (Nat.lt_succ_self n) (ih (fun i c d hi => hs i c d (by omega)) hc) hb

/-- If every turn succeeds from what the turns before have made, the loop succeeds. -/
theorem loop_total {I : Nat → σ → Prop} {n : Nat} {a : σ} (h0 : I 0 a)
    (hs : ∀ i c, i < n → I i c → ∃ d, f i c = .ok d ∧ I (i + 1) d) : ∃ b, loop n f a = .ok b ∧ I n b := by
  induction n with
  | zero => exact ⟨a, rfl, h0⟩
  | succ n ih =>
    obtain ⟨c, hc, hi⟩ := ih fun i c hi => hs i c (by omega)
    obtain ⟨d, hd, hd'⟩ := hs n c (Nat.lt_succ_self n) hi
    exact ⟨d, by rw [loop_succ, hc]; exact hd, hd'⟩

/-- A failing loop failed in some turn, after the turns before it. -/
theorem loop_error {I : Nat → σ → Prop} {n : Nat} {a : σ} {k : ErrKind} (h0 : I 0 a)
    (hs : ∀ i c d, i < n → I i c → f i c = .ok d → I (i + 1) d) (h : loop n f a = .error k) :
    ∃ i c, i < n ∧ I i c ∧ f i c = .error k := by
  induction n with
  | zero => nomatch h
  | succ n ih =>
    rcases bind_eq_error.1 (loop_succ n a ▸ h) with h | ⟨c, hc, hk⟩
    · obtain ⟨i, c, hi, hc, hk⟩ := ih (fun i c d hi => hs i c d (by omega)) h
      exact ⟨i, c, by omega, hc, hk⟩
    · exact ⟨n, c, Nat.lt_succ_self n, loop_inv h0 (fun i c d hi => hs i c d (by omega)) hc, hk⟩

end Loop

/-! ### Shared operands -/

variable {p : Params} {s t : State}

/-- Everything `SampleCount` can do (46 R231). -/
theorem sampleCount_ok {w h l n : Nat} :
    sampleCount p w h l = .ok n ↔ legalLayout l ∧ w * h * l ≤ p.maxSamples ∧ n = w * h * l := by
  unfold sampleCount
  split
  · split
    · constructor
      · intro h; nomatch h
      · rintro ⟨-, h, -⟩; omega
    · constructor
      · intro h; cases h; exact ⟨‹_›, by omega, rfl⟩
      · rintro ⟨-, -, rfl⟩; rfl
  · constructor
    · intro h; nomatch h
    · rintro ⟨h, -⟩; exact absurd h ‹_›

theorem sampleCount_error {w h l : Nat} {k : ErrKind} :
    sampleCount p w h l = .error k ↔
      (¬ legalLayout l ∧ k = .formatMismatch) ∨
        (legalLayout l ∧ w * h * l > p.maxSamples ∧ k = .dimensionOverflow) := by
  unfold sampleCount
  split
  · split
    · constructor
      · intro h; cases h; exact .inr ⟨‹_›, ‹_›, rfl⟩
      · rintro (⟨h, -⟩ | ⟨-, -, rfl⟩)
        · exact absurd ‹_› h
        · rfl
    · constructor
      · intro h; nomatch h
      · rintro (⟨h, -⟩ | ⟨-, h, -⟩)
        · exact absurd ‹_› h
        · exact absurd h ‹_›
  · constructor
    · intro h; cases h; exact .inl ⟨‹_›, rfl⟩
    · rintro (⟨-, rfl⟩ | ⟨h, -⟩)
      · rfl
      · exact absurd h ‹_›

theorem imageCount_ok {n : Nat} :
    imageCount p s = .ok n ↔ legalLayout s.layout.toNat ∧ sampleTotal s ≤ p.maxSamples ∧ n = sampleTotal s :=
  sampleCount_ok

theorem maxSamples_pos (p : Params) : 1 ≤ p.maxSamples := by unfold Params.maxSamples; omega

theorem maxSamples_lt (p : Params) : p.maxSamples < 2 ^ 32 := by
  have := p.maxSamplesPred.isLt; unfold Params.maxSamples; omega

theorem conCap_eq (p : Params) : p.conCap = 535 + 4 * p.maxSamples := by unfold Params.conCap; omega

/-! ### What the success of a command means -/

theorem accCmd_ok {x : Sym} (h : accCmd p x s = .ok t) :
    s.total.toNat ≠ p.maxSamples ∧
      t = { s with freq := tableSet s.freq x (tableGet s.freq x + 1), total := s.total + 1 } := by
  unfold accCmd at h
  split at h
  · nomatch h
  · cases h; exact ⟨‹_›, rfl⟩

theorem statCmd_ok (h : statCmd p s = .ok t) :
    legalLayout s.layout.toNat ∧ sampleTotal s ≤ p.maxSamples ∧ sampleTotal s ≠ 0 ∧
      t = { s with freq := countPix p s (sampleTotal s), total := BitVec.ofNat 32 (sampleTotal s) } := by
  obtain ⟨n, hn, h⟩ := bind_eq_ok.1 h
  obtain ⟨hl, hb, rfl⟩ := imageCount_ok.1 hn
  split at h
  · nomatch h
  · cases h; exact ⟨hl, hb, ‹_›, rfl⟩

theorem buildCmd_ok (h : buildCmd s = .ok t) :
    s.total ≠ 0 ∧
      t = { s with len := tableOf fun x => BitVec.ofNat 8 (huffmanLengths (freqOf s) x), cv := false } := by
  unfold buildCmd at h
  split at h
  · nomatch h
  · cases h; exact ⟨‹_›, rfl⟩

theorem assignCmd_ok (h : assignCmd s = .ok t) :
    (∀ x, lenOf s x ≤ 32) ∧ kraftSum (lenOf s) ≤ 2 ^ 32 ∧
      t = { s with code := tableOf fun x => BitVec.ofNat 32 (canonicalCode (lenOf s) x), cv := true } := by
  unfold assignCmd at h
  split at h
  · nomatch h
  · rename_i hl
    split at h
    · nomatch h
    · rename_i hk
      cases h
      exact ⟨fun x => by by_contra hx; exact hl (someSym_iff.2 ⟨x, by simpa [maxLen] using hx⟩),
        by simpa [maxLen] using hk, rfl⟩

theorem append_ok {v n : Nat} (h : append p v n s = .ok t) :
    s.wbase.toNat + ceil8 (s.wbits.toNat + n) ≤ p.conCap ∧ t = pushBits p v n s := by
  unfold append at h
  split at h
  · nomatch h
  · cases h; exact ⟨by omega, rfl⟩

theorem putbCmd_ok {len : BitVec 6} (h : putbCmd p len s = .ok t) :
    len.toNat ≤ 32 ∧ s.wfin = false ∧ append p (s.wdata.toNat % 2 ^ len.toNat) len.toNat s = .ok t := by
  unfold putbCmd at h
  split at h
  · nomatch h
  · rename_i hl
    split at h
    · nomatch h
    · exact ⟨by simpa [lenOperand] using hl, by simpa using ‹¬ s.wfin = true›, h⟩

theorem putsCmd_ok {x : Sym} (h : putsCmd p x s = .ok t) :
    s.cv = true ∧ lenOf s x ≠ 0 ∧ s.wfin = false ∧ append p (codeOf s x) (lenOf s x) s = .ok t := by
  unfold putsCmd at h
  split at h
  · nomatch h
  · split at h
    · nomatch h
    · split at h
      · nomatch h
      · exact ⟨by simpa using ‹¬ s.cv = false›, ‹_›, by simpa using ‹¬ s.wfin = true›, h⟩

theorem finCmd_ok (h : finCmd p s = .ok t) :
    s.wfin = false ∧ ((s.wbits.toNat % 8 = 0 ∧ t = finalise s) ∨
      (s.wbits.toNat % 8 ≠ 0 ∧ writerAddr s s.wbits.toNat < p.conCap ∧
        t = finalise (setCon p s (writerAddr s s.wbits.toNat) s.wacc))) := by
  unfold finCmd at h
  split at h
  · nomatch h
  · refine ⟨by simpa using ‹¬ s.wfin = true›, ?_⟩
    split at h
    · cases h; exact .inl ⟨‹_›, rfl⟩
    · split at h
      · nomatch h
      · cases h; exact .inr ⟨‹_›, by omega, rfl⟩

/-- Everything `Bit` can do (45 R211). -/
theorem readBit_ok {q : Nat} {b : Bool} :
    readBit p s q = .ok b ↔
      q < s.rvalid.toNat ∧ readerAddr s q < p.conCap ∧ b = conBit p s s.rbase.toNat q := by
  unfold readBit
  split
  · constructor
    · intro h; nomatch h
    · rintro ⟨h, -⟩; omega
  · split
    · constructor
      · intro h; nomatch h
      · rintro ⟨-, h, -⟩; omega
    · constructor
      · intro h; cases h; exact ⟨by omega, by omega, rfl⟩
      · rintro ⟨-, -, rfl⟩; rfl

theorem readBit_error {q : Nat} {k : ErrKind} :
    readBit p s q = .error k ↔
      (q ≥ s.rvalid.toNat ∧ k = .truncatedStream) ∨
        (q < s.rvalid.toNat ∧ readerAddr s q ≥ p.conCap ∧ k = .stateError) := by
  unfold readBit
  split
  · constructor
    · intro h; cases h; exact .inl ⟨‹_›, rfl⟩
    · rintro (⟨-, rfl⟩ | ⟨h, -⟩)
      · rfl
      · omega
  · split
    · constructor
      · intro h; cases h; exact .inr ⟨by omega, ‹_›, rfl⟩
      · rintro (⟨h, -⟩ | ⟨-, -, rfl⟩)
        · omega
        · rfl
    · constructor
      · intro h; nomatch h
      · rintro (⟨h, -⟩ | ⟨-, h, -⟩) <;> omega

theorem getbCmd_ok (h : getbCmd p s = .ok t) :
    s.rpos.toNat < s.rvalid.toNat ∧ readerAddr s s.rpos.toNat < p.conCap ∧
      t = { s with
        rdata := BitVec.ofNat 8 (conBit p s s.rbase.toNat s.rpos.toNat).toNat
        rpos := BitVec.ofNat 64 (s.rpos.toNat + 1) } := by
  obtain ⟨b, hb, h⟩ := bind_eq_ok.1 h
  obtain ⟨h1, h2, rfl⟩ := readBit_ok.1 hb
  cases h; exact ⟨h1, h2, rfl⟩

theorem getsCmd_ok (h : getsCmd p s = .ok t) :
    s.cv = true ∧ ∃ r, walk p s 256 0 0 = .ok r ∧
      t = { s with rdata := r.1, rpos := BitVec.ofNat 64 (s.rpos.toNat + r.2) } := by
  unfold getsCmd at h
  split at h
  · nomatch h
  · obtain ⟨r, hr, h⟩ := bind_eq_ok.1 h
    cases h; exact ⟨by simpa using ‹¬ s.cv = false›, r, hr, rfl⟩

theorem wrhdrCmd_ok (h : wrhdrCmd p s = .ok t) :
    s.cv = true ∧ legalLayout s.layout.toNat ∧ sampleTotal s ≤ p.maxSamples ∧ s.total ≠ 0 ∧
      sampleTotal s = s.total.toNat ∧ (∀ x, freqOf s x ≠ 0 ↔ lenOf s x ≠ 0) ∧
      t = pointWriter (codedSyms s).length (validBitCount s) (storeCon p s 0 (headerBytes s)) := by
  unfold wrhdrCmd at h
  split at h
  · nomatch h
  · obtain ⟨n, hn, h⟩ := bind_eq_ok.1 h
    obtain ⟨hl, hb, rfl⟩ := imageCount_ok.1 hn
    split at h
    · nomatch h
    · split at h
      · nomatch h
      · split at h
        · nomatch h
        · rename_i hp
          cases h
          refine ⟨by simpa using ‹¬ s.cv = false›, hl, hb, ‹_›, by simpa using ‹¬ sampleTotal s ≠ s.total.toNat›,
            fun x => ?_, rfl⟩
          by_contra hx
          exact hp (someSym_iff.2 ⟨x, hx⟩)

theorem encodeCmd_ok (h : encodeCmd p s = .ok t) :
    ∃ s1 s2 s3 s4 s5, statCmd p s = .ok s1 ∧ buildCmd s1 = .ok s2 ∧ assignCmd s2 = .ok s3 ∧
      wrhdrCmd p s3 = .ok s4 ∧ putImage p s4.total.toNat s4 = .ok s5 ∧ finCmd p s5 = .ok t := by
  obtain ⟨s1, h1, h⟩ := bind_eq_ok.1 h
  obtain ⟨s2, h2, h⟩ := bind_eq_ok.1 h
  obtain ⟨s3, h3, h⟩ := bind_eq_ok.1 h
  obtain ⟨s4, h4, h⟩ := bind_eq_ok.1 h
  obtain ⟨s5, h5, h⟩ := bind_eq_ok.1 h
  exact ⟨s1, s2, s3, s4, s5, h1, h2, h3, h4, h5, h⟩

theorem parseLoad_ok {n : Nat} {l : Table 8} (h : parseLoad p s n l = .ok t) :
    ceil8 (hdrBits p s n) ≤ s.conlen.toNat - payloadOffset n ∧
      t = { s with
        width := BitVec.ofNat 32 (hdrWidth p s)
        height := BitVec.ofNat 32 (hdrHeight p s)
        layout := BitVec.ofNat 8 (hdrLayout p s)
        len := l
        cv := false
        rbase := BitVec.ofNat 64 (payloadOffset n)
        rvalid := BitVec.ofNat 64 (hdrBits p s n)
        rpos := 0
        rdata := 0 } := by
  unfold parseLoad at h
  split at h
  · nomatch h
  · cases h; exact ⟨by omega, rfl⟩

theorem parseCmd_ok (h : parseCmd p s = .ok t) :
    s.conlen.toNat ≤ p.conCap ∧ 4 ≤ s.conlen.toNat ∧ conBytes p s 0 4 = magic ∧ 15 ≤ s.conlen.toNat ∧
      legalLayout (hdrLayout p s) ∧ hdrWidth p s * hdrHeight p s * hdrLayout p s ≤ p.maxSamples ∧
      ¬ (hdrCount p s = 0 ∧ hdrWidth p s * hdrHeight p s * hdrLayout p s > 0) ∧ hdrCount p s ≤ 256 ∧
      payloadOffset (hdrCount p s) ≤ s.conlen.toNat ∧
      ∃ a, parsePairs p s (hdrCount p s) = .ok a ∧ parseLoad p s (hdrCount p s) a.1 = .ok t := by
  unfold parseCmd at h
  split at h
  · nomatch h
  · split at h
    · nomatch h
    · rename_i hm
      push Not at hm
      split at h
      · nomatch h
      · obtain ⟨n, hn, h⟩ := bind_eq_ok.1 h
        obtain ⟨hl, hb, rfl⟩ := sampleCount_ok.1 hn
        split at h
        · nomatch h
        · split at h
          · nomatch h
          · split at h
            · nomatch h
            · obtain ⟨a, ha, h⟩ := bind_eq_ok.1 h
              exact ⟨by omega, hm.1, hm.2, by omega, hl, hb, ‹_›, by omega, by omega, a, ha, h⟩

theorem decodeCmd_ok (h : decodeCmd p s = .ok t) :
    ∃ s1 s2, parseCmd p s = .ok s1 ∧ assignCmd s1 = .ok s2 ∧ getImage p (sampleTotal s2) s2 = .ok t := by
  obtain ⟨s1, h1, h⟩ := bind_eq_ok.1 h
  obtain ⟨s2, h2, h⟩ := bind_eq_ok.1 h
  exact ⟨s1, s2, h1, h2, h⟩

end Sys2Proof.Machine
end

