-- ==== Sys2Proof/Laws/Reader.lean ====
section
/-! SUPPORT. What the reader's bit and the walk of `GETS` do (spec/45_bitstream_reader.md), said once for `GETB`,
`GETS` and `DECODE`. -/

namespace Sys2Proof.Machine

variable {p : Params} {s t : State}

/-! ### Nodes of the decode tree (spec/43_canonical_assigner.md R175) -/

/-- A leaf that is found is a leaf. -/
theorem leafAt_some {k v : Nat} {x : Sym} (h : leafAt s k v = some x) : lenOf s x = k ∧ codeOf s x = v := by
  simpa using List.find?_some h

theorem leafAt_none {k v : Nat} : leafAt s k v = none ↔ ∀ x, ¬ (lenOf s x = k ∧ codeOf s x = v) := by
  simp [leafAt, List.find?_eq_none]

theorem leafAt_eq_some {k v : Nat} {x : Sym} (hx : lenOf s x = k ∧ codeOf s x = v)
    (hu : ∀ y, lenOf s y = k → codeOf s y = v → y = x) : leafAt s k v = some x := by
  cases h : leafAt s k v with
  | none => exact absurd hx (leafAt_none.1 h x)
  | some y => rw [hu y (leafAt_some h).1 (leafAt_some h).2]

theorem innerAt_iff {k v : Nat} : innerAt s k v ↔ ∃ x, lenOf s x > k ∧ codeOf s x / 2 ^ (lenOf s x - k) = v := by
  simp only [innerAt, someSym_iff]

/-- Below an inner node there is a longer code, so the walk is never longer than the longest length entry. -/
theorem innerAt_lt {k v : Nat} (h : innerAt s k v) : k < 255 := by
  obtain ⟨x, hx, -⟩ := innerAt_iff.1 h
  have : lenOf s x < 256 := (tableGet s.len x).isLt
  omega

/-! ### The walk -/

/-- The bit at the cursor leads to a leaf. -/
theorem walk_leaf {fuel k v : Nat} {b : Bool} {x : Sym} (hb : readBit p s (s.rpos.toNat + k) = .ok b)
    (hx : leafAt s (k + 1) (2 * v + b.toNat) = some x) : walk p s (fuel + 1) k v = .ok (x, k + 1) := by
  simp [walk, hb, hx]

/-- The bit at the cursor leads to an inner node. -/
theorem walk_inner {fuel k v : Nat} {b : Bool} (hb : readBit p s (s.rpos.toNat + k) = .ok b)
    (hx : leafAt s (k + 1) (2 * v + b.toNat) = none) (hi : innerAt s (k + 1) (2 * v + b.toNat)) :
    walk p s (fuel + 1) k v = walk p s fuel (k + 1) (2 * v + b.toNat) := by
  simp only [walk, hb, ok_bind, hx, if_pos hi]

/-- The bit at the cursor leads to a dead node. -/
theorem walk_dead {fuel k v : Nat} {b : Bool} (hb : readBit p s (s.rpos.toNat + k) = .ok b)
    (hx : leafAt s (k + 1) (2 * v + b.toNat) = none) (hi : ¬ innerAt s (k + 1) (2 * v + b.toNat)) :
    walk p s (fuel + 1) k v = .error .formatMismatch := by
  simp only [walk, hb, ok_bind, hx, if_neg hi]

/-- The bit at the cursor is not there. -/
theorem walk_stop {fuel k v : Nat} {e : ErrKind} (hb : readBit p s (s.rpos.toNat + k) = .error e) :
    walk p s (fuel + 1) k v = .error e := by
  simp [walk, hb]

/-- What the success of the walk means: it read on from `k`, every bit it read was there, and it stopped at a leaf. -/
theorem walk_ok {fuel k v : Nat} {r : Sym × Nat} (h : walk p s fuel k v = .ok r) :
    k < r.2 ∧ lenOf s r.1 = r.2 ∧
      ∀ q, k ≤ q → q < r.2 → s.rpos.toNat + q < s.rvalid.toNat ∧ readerAddr s (s.rpos.toNat + q) < p.conCap := by
  induction fuel generalizing k v with
  | zero => nomatch h
  | succ fuel ih =>
    obtain ⟨b, hb, h⟩ := bind_eq_ok.1 h
    obtain ⟨h1, h2, -⟩ := readBit_ok.1 hb
    split at h
    · rename_i x hx
      cases h
      exact ⟨Nat.lt_succ_self k, (leafAt_some hx).1, fun q hq hq' => by
        obtain rfl : q = k := by simp only at hq'; omega
        exact ⟨h1, h2⟩⟩
    · split at h
      · obtain ⟨h3, h4, h5⟩ := ih h
        refine ⟨by omega, h4, fun q hq hq' => ?_⟩
        rcases Nat.eq_or_lt_of_le hq with rfl | hq
        · exact ⟨h1, h2⟩
        · exact h5 q hq hq'
      · nomatch h

/-- What an error of the walk means: the first bit that was not there or led to a dead node decides the kind. -/
theorem walk_error {fuel k v : Nat} {e : ErrKind} (hf : 256 ≤ fuel + k) (hk : k ≤ 255)
    (h : walk p s fuel k v = .error e) :
    e = .truncatedStream ∨ e = .formatMismatch ∨
      (e = .stateError ∧ ∃ q, s.rpos.toNat + q < s.rvalid.toNat ∧ readerAddr s (s.rpos.toNat + q) ≥ p.conCap) := by
  induction fuel generalizing k v with
  | zero => omega
  | succ fuel ih =>
    rcases bind_eq_error.1 h with hb | ⟨b, hb, h⟩
    · rcases readBit_error.1 hb with ⟨-, rfl⟩ | ⟨h1, h2, rfl⟩
      · exact .inl rfl
      · exact .inr (.inr ⟨rfl, k, h1, h2⟩)
    · split at h
      · nomatch h
      · split at h
        · rename_i hi
          have := innerAt_lt hi
          exact ih (by omega) (by omega) h
        · cases h; exact .inr (.inl rfl)

/-- What `GETS` leaves: the cursor is past the symbol read, inside the valid bits. -/
theorem getsCmd_cursor (h : getsCmd p s = .ok t) :
    t = { s with rdata := t.rdata, rpos := t.rpos } ∧ t.rpos.toNat = s.rpos.toNat + lenOf s t.rdata ∧
      t.rpos.toNat ≤ s.rvalid.toNat ∧ lenOf s t.rdata ≠ 0 := by
  obtain ⟨-, r, hr, rfl⟩ := getsCmd_ok h
  obtain ⟨h1, h2, h3⟩ := walk_ok hr
  have h4 := (h3 (r.2 - 1) (by omega) (by omega)).1
  have h5 : s.rvalid.toNat < 2 ^ 64 := s.rvalid.isLt
  have h6 : (BitVec.ofNat 64 (s.rpos.toNat + r.2)).toNat = s.rpos.toNat + r.2 := by
    rw [BitVec.toNat_ofNat, Nat.mod_eq_of_lt (by omega)]
  refine ⟨rfl, ?_, ?_, ?_⟩
  · simp only [h6, h2]
  · simp only [h6]; omega
  · simp only [h2]; omega

/-- Reading the same bits of the same stream under the same code gives the same symbol. -/
theorem readBit_congr {u : State} (hb : u.rbase = s.rbase) (hv : u.rvalid = s.rvalid) {q : Nat}
    (hc : q < s.rvalid.toNat → conByte p u (readerAddr s q) = conByte p s (readerAddr s q)) :
    readBit p u q = readBit p s q := by
  unfold readBit readerAddr conBit
  rw [hb, hv]
  split
  · rfl
  · split
    · rfl
    · rw [show conByte p u (s.rbase.toNat + q / 8) = conByte p s (s.rbase.toNat + q / 8) from hc (by omega)]

end Sys2Proof.Machine
end

