-- ==== Sys2Proof/Laws/Writer.lean ====
section
/-! SUPPORT. What `Append` does (spec/44_bitstream_writer.md R191), said once for `PUTB`, `PUTS` and `ENCODE`. -/

namespace Sys2Proof.Machine

variable {p : Params} {s t u : State}

/-! ### The partial byte -/

theorem accWith_getLsbD (s : State) (b : Bool) (j : Nat) :
    (accWith s b).getLsbD j = (s.wacc.getLsbD j || (b && decide (j = 7 - s.wbits.toNat % 8))) := by
  unfold accWith
  rw [BitVec.getLsbD_or, BitVec.getLsbD_ofNat]
  congr 1
  cases b
  · simp
  · simp only [Bool.toNat_true, one_mul, Nat.testBit_two_pow, Bool.true_and]
    by_cases h : j = 7 - s.wbits.toNat % 8
    · subst h
      simp; omega
    · simp [h, Ne.symm h]

/-! ### The fields of a pushed bit -/

/-- The capacity test leaves the 64-bit cursor far from wrapping (10 R50(d)). -/
theorem cursor_lt_of_capacity {a n : Nat} (h : a + ceil8 n ≤ p.conCap) : n < 2 ^ 64 := by
  have := maxSamples_lt p
  have := conCap_eq p
  unfold ceil8 at h
  omega

theorem pushBit_wbits (h : s.wbits.toNat + 1 < 2 ^ 64) (b : Bool) :
    (pushBit p s b).wbits.toNat = s.wbits.toNat + 1 := by
  unfold pushBit
  split <;> simp <;> omega

theorem pushBit_of_full (h : (s.wbits.toNat + 1) % 8 = 0) (b : Bool) :
    pushBit p s b = advance (setCon p s (writerAddr s s.wbits.toNat) (accWith s b)) 0 := by
  unfold pushBit writerAddr
  rw [if_pos h, show s.wbase.toNat + (s.wbits.toNat + 1) / 8 - 1 = s.wbase.toNat + s.wbits.toNat / 8 by omega]

theorem pushBit_of_not_full (h : (s.wbits.toNat + 1) % 8 ≠ 0) (b : Bool) :
    pushBit p s b = advance s (accWith s b) := by
  unfold pushBit
  rw [if_neg h]

theorem conByte_advance (c : BitVec 8) (a : Nat) : conByte p (advance s c) a = conByte p s a :=
  conByte_congr rfl rfl a

@[simp] theorem conByte_finalise (a : Nat) : conByte p (finalise s) a = conByte p s a := conByte_congr rfl rfl a

@[simp] theorem conByte_writerInit (a : Nat) : conByte p (writerInit s) a = conByte p s a := conByte_congr rfl rfl a

/-- Only the byte that becomes full is stored. -/
theorem conByte_pushBit_ne {b : Bool} {a : Nat} (h : a ≠ writerAddr s s.wbits.toNat) :
    conByte p (pushBit p s b) a = conByte p s a := by
  by_cases hf : (s.wbits.toNat + 1) % 8 = 0
  · rw [pushBit_of_full hf, conByte_advance, conByte_setCon_ne h]
  · rw [pushBit_of_not_full hf, conByte_advance]

/-- Appending one bit. -/
theorem pushBit_appended (hc : s.wbase.toNat + ceil8 (s.wbits.toNat + 1) ≤ p.conCap) (hp : PartialOk s) (v : Nat)
    (b : Bool) (hb : v.testBit 0 = b) : Appended p v 1 s (pushBit p s b) := by
  have hw := cursor_lt_of_capacity hc
  have hwb := pushBit_wbits (p := p) hw b
  have hbase : (pushBit p s b).wbase = s.wbase := by simp
  have key : ∀ q, q ≤ s.wbits.toNat →
      writerBit p (pushBit p s b) q = if q = s.wbits.toNat then b else writerBit p s q := by
    intro q hq
    by_cases hf : (s.wbits.toNat + 1) % 8 = 0
    · have hlt : writerAddr s s.wbits.toNat < p.conCap := by unfold writerAddr; unfold ceil8 at hc; omega
      unfold writerBit conBit
      rw [hwb, if_pos (by omega), hbase, pushBit_of_full hf, conByte_advance, conByte_setCon hlt]
      unfold writerAddr
      by_cases hq8 : q / 8 = s.wbits.toNat / 8
      · rw [if_pos (by omega), accWith_getLsbD]
        split
        · subst_vars
          rw [hp _ (by omega)]
          have : 7 - s.wbits.toNat % 8 = 0 := by omega
          simp
        · rw [if_neg (by omega)]
          have : ¬ (7 - q % 8 = 7 - s.wbits.toNat % 8) := by omega
          simp [this]
      · rw [if_neg (by omega), if_neg (by omega), if_pos (by omega)]
    · unfold writerBit
      rw [hwb, hbase]
      have hcon : conBit p (pushBit p s b) s.wbase.toNat q = conBit p s s.wbase.toNat q := by
        unfold conBit; rw [pushBit_of_not_full hf, conByte_advance]
      have hacc : (pushBit p s b).wacc = accWith s b := by rw [pushBit_of_not_full hf]; simp
      rw [hcon, hacc]
      by_cases hq8 : q / 8 = s.wbits.toNat / 8
      · rw [if_neg (by omega), accWith_getLsbD]
        split
        · subst_vars
          rw [hp _ (by omega)]
          simp
        · rw [if_neg (by omega)]
          have : ¬ (7 - q % 8 = 7 - s.wbits.toNat % 8) := by omega
          simp [this]
      · rw [if_pos (by omega), if_neg (by omega), if_pos (by omega)]
  refine ⟨?_, hwb, fun q hq => ?_, fun j hj => ?_, fun j hj => ?_, fun a ha => ?_⟩
  · by_cases hf : (s.wbits.toNat + 1) % 8 = 0
    · rw [pushBit_of_full hf]
      unfold advance setCon
      split <;> rfl
    · rw [pushBit_of_not_full hf]; rfl
  · rw [key q (by omega), if_neg (by omega)]
  · obtain rfl : j = 0 := by omega
    rw [Nat.add_zero, key _ le_rfl, if_pos rfl]
    exact hb.symm
  · rw [hwb] at hj
    by_cases hf : (s.wbits.toNat + 1) % 8 = 0
    · rw [pushBit_of_full hf]; simp
    · rw [pushBit_of_not_full hf, advance_wacc, accWith_getLsbD, hp _ (by omega)]
      have : ¬ j = 7 - s.wbits.toNat % 8 := by omega
      simp [this]
  · by_cases hf : (s.wbits.toNat + 1) % 8 = 0
    · refine conByte_pushBit_ne ?_
      unfold writerAddr at ha ⊢; omega
    · rw [pushBit_of_not_full hf, conByte_advance]

/-! ### The append primitive -/

theorem testBit_zero_div (v n : Nat) : (v / 2 ^ n).testBit 0 = v.testBit n := by
  rw [Nat.testBit_div_two_pow, Nat.zero_add]

theorem Appended.zero (v : Nat) (h : PartialOk s) : Appended p v 0 s s :=
  ⟨rfl, rfl, fun _ _ => rfl, fun _ h => absurd h (Nat.not_lt_zero _), h, fun _ _ => rfl⟩

/-- A top bit, then the rest. -/
theorem Appended.trans {v n : Nat} (h : Appended p (v / 2 ^ n) 1 s t) (h' : Appended p v n t u) :
    Appended p v (n + 1) s u := by
  have hbase : t.wbase = s.wbase := by rw [h.others]
  refine ⟨?_, ?_, fun q hq => ?_, fun j hj => ?_, h'.unfilled, fun a ha => ?_⟩
  · rw [h'.others, h.others]
  · rw [h'.cursor, h.cursor]; omega
  · rw [h'.kept q (by rw [h.cursor]; omega), h.kept q hq]
  · cases j with
    | zero =>
      have := h.added 0 Nat.one_pos
      rw [Nat.add_zero] at this
      rw [Nat.add_zero, h'.kept _ (by rw [h.cursor]; omega), this]
      exact testBit_zero_div v n
    | succ j =>
      have := h'.added j (by omega)
      rw [h.cursor, show s.wbits.toNat + 1 + j = s.wbits.toNat + (j + 1) by omega] at this
      rw [this]
      congr 1
      omega
  · have e : ∀ q, writerAddr t q = writerAddr s q := fun q => by simp [writerAddr, hbase]
    rw [h'.bytes a, h.bytes a]
    · unfold writerAddr at ha ⊢; omega
    · rw [e, e, h.cursor]; unfold writerAddr at ha ⊢; omega

/-- Everything `for i in n-1, ..., 0` does, where the capacity test holds (44 R191). -/
theorem pushBits_appended {v n : Nat} (hc : s.wbase.toNat + ceil8 (s.wbits.toNat + n) ≤ p.conCap)
    (hp : PartialOk s) : Appended p v n s (pushBits p v n s) := by
  induction n generalizing s with
  | zero => exact Appended.zero v hp
  | succ n ih =>
    have hc1 : s.wbase.toNat + ceil8 (s.wbits.toNat + 1) ≤ p.conCap := by unfold ceil8 at hc ⊢; omega
    have h1 : Appended p (v / 2 ^ n) 1 s (pushBit p s (v.testBit n)) :=
      pushBit_appended hc1 hp _ _ (testBit_zero_div v n)
    refine h1.trans (ih ?_ h1.unfilled)
    rw [h1.cursor, show (pushBit p s (v.testBit n)).wbase = s.wbase by simp]
    unfold ceil8 at hc ⊢; omega

/-- Everything a successful `Append(v, n)` does (44 R191). -/
theorem append_appended {v n : Nat} (h : append p v n s = .ok t) (hp : PartialOk s) : Appended p v n s t := by
  obtain ⟨hc, rfl⟩ := append_ok h
  exact pushBits_appended hc hp

/-- When `Append(v, n)` succeeds (44 R191). -/
theorem append_total {v n : Nat} (hc : s.wbase.toNat + ceil8 (s.wbits.toNat + n) ≤ p.conCap) :
    append p v n s = .ok (pushBits p v n s) := by
  unfold append; rw [if_neg (by omega)]

theorem pushBits_wbits {v n : Nat} (h : s.wbits.toNat + n < 2 ^ 64) :
    (pushBits p v n s).wbits.toNat = s.wbits.toNat + n := by
  induction n generalizing s with
  | zero => rfl
  | succ n ih =>
    rw [pushBits, ih (by rw [pushBit_wbits (by omega)]; omega), pushBit_wbits (by omega)]
    omega

/-- Only the bytes between the cursors before and after are stored, whatever `WACC` holds. -/
theorem conByte_pushBits {v n a : Nat} (h : s.wbits.toNat + n < 2 ^ 64)
    (ha : a < writerAddr s s.wbits.toNat ∨ writerAddr s (s.wbits.toNat + n) ≤ a) :
    conByte p (pushBits p v n s) a = conByte p s a := by
  induction n generalizing s with
  | zero => rfl
  | succ n ih =>
    have hw := pushBit_wbits (p := p) (s := s) (by omega) (v.testBit n)
    have hbase : (pushBit p s (v.testBit n)).wbase = s.wbase := by simp
    unfold writerAddr at ha
    rw [pushBits, ih (by omega) (by unfold writerAddr; rw [hw, hbase]; omega)]
    by_cases hf : (s.wbits.toNat + 1) % 8 = 0
    · exact conByte_pushBit_ne (by unfold writerAddr; omega)
    · rw [pushBit_of_not_full hf, conByte_advance]

theorem wf_pushBits {v n : Nat} (h : Memory.wf (fresh p s .con) p.conCap s.con) :
    Memory.wf (fresh p (pushBits p v n s) .con) p.conCap (pushBits p v n s).con := by
  induction n generalizing s with
  | zero => exact h
  | succ n ih =>
    refine ih ?_
    by_cases hf : (s.wbits.toNat + 1) % 8 = 0
    · rw [pushBit_of_full hf]
      exact wf_setCon h _ _
    · rw [pushBit_of_not_full hf]
      exact h

end Sys2Proof.Machine
end

