-- ==== Sys2Proof/Laws/Container.lean ====
section
/-! SUPPORT. Laws of the container's bytes (spec/30_encoding.md R100 to R103): ranges of `CON`, the header, the pairs
that `PARSE` reads, the loops of `ENCODE` and `DECODE`. -/

namespace Sys2Proof.Machine

variable {p : Params} {s t : State}

/-! ### Ranges of `CON` -/

/-- A range of `CON` reads as a list exactly when each byte does. -/
theorem conBytes_eq_iff {a n : Nat} {bs : List Byte} :
    conBytes p s a n = bs ↔ bs.length = n ∧ ∀ i (h : i < bs.length), conByte p s (a + i) = bs[i] := by
  constructor
  · rintro rfl
    exact ⟨conBytes_length a n, fun i h => by simp [conBytes]⟩
  · rintro ⟨rfl, h⟩
    refine List.ext_getElem (conBytes_length _ _) fun i h1 h2 => ?_
    rw [← h i h2]; simp [conBytes]

theorem conBytes_add (a m n : Nat) : conBytes p s a (m + n) = conBytes p s a m ++ conBytes p s (a + m) n := by
  simp [conBytes, List.range_add, Nat.add_assoc, Function.comp_def]

theorem conBytes_congr {a n : Nat} (h : ∀ i, a ≤ i → i < a + n → conByte p t i = conByte p s i) :
    conBytes p t a n = conBytes p s a n := by
  unfold conBytes
  exact List.map_congr_left fun i hi => h (a + i) (by omega) (by have := List.mem_range.1 hi; omega)

/-- What was stored is read back. -/
theorem conBytes_storeCon {a : Nat} {bs : List Byte} (h : a + bs.length ≤ p.conCap) :
    conBytes p (storeCon p s a bs) a bs.length = bs := by
  rw [conBytes_eq_iff]
  refine ⟨rfl, fun i hi => ?_⟩
  rw [conByte_storeCon h, if_pos (by omega), show a + i - a = i by omega, List.getElem?_eq_getElem hi]
  rfl

/-! ### The header -/

theorem pairBytes_length (s : State) : (pairBytes s).length = 2 * (codedSyms s).length := by
  simp [pairBytes, List.length_flatMap, Nat.mul_comm]

/-- The header is as long as the payload's offset. -/
theorem headerBytes_length (s : State) : (headerBytes s).length = payloadOffset (codedSyms s).length := by
  simp only [headerBytes, List.length_append, leBytes_length, pairBytes_length, payloadOffset]
  simp [magic]; omega

/-- The header always fits into `CON` (30 R101, 00 R8). -/
theorem payloadOffset_le (s : State) : payloadOffset (codedSyms s).length ≤ p.conCap := by
  have := presentSyms_length_le (lenOf s)
  have := conCap_eq p
  unfold codedSyms payloadOffset; omega

@[simp] theorem conByte_pointWriter (n vbc a : Nat) : conByte p (pointWriter n vbc s) a = conByte p s a :=
  conByte_congr rfl rfl a

/-- `WRHDR` stores below the payload only (20 R77(b)). -/
theorem conByte_header_above (s : State) {a : Nat} (h : payloadOffset (codedSyms s).length ≤ a) :
    conByte p (storeCon p s 0 (headerBytes s)) a = conByte p s a := by
  have hl := headerBytes_length s
  have hc := payloadOffset_le (p := p) s
  rw [conByte_storeCon (by omega), if_pos (Nat.zero_le a), List.getElem?_eq_none (by omega)]
  rfl

/-- The header after `WRHDR` has stored it, in one piece. -/
theorem conBytes_header (s : State) :
    conBytes p (storeCon p s 0 (headerBytes s)) 0 (payloadOffset (codedSyms s).length) = headerBytes s := by
  rw [← headerBytes_length s]
  exact conBytes_storeCon (by rw [headerBytes_length]; have := payloadOffset_le (p := p) s; omega)

/-! ### The pairs (spec/46_container_codec.md R235) -/

theorem parsePair_ok {j : Nat} {a b : PairScan} (h : parsePair p s j a = .ok b) :
    a.2 < ((pairSym p s j).toNat : Int) ∧ pairLen p s j ≠ 0 ∧
      b = (tableSet a.1 (pairSym p s j) (pairLen p s j), ((pairSym p s j).toNat : Int)) := by
  unfold parsePair at h
  split at h
  · nomatch h
  · split at h
    · nomatch h
    · cases h; exact ⟨by omega, ‹_›, rfl⟩

theorem parsePair_error {j : Nat} {a : PairScan} {k : ErrKind} (h : parsePair p s j a = .error k) :
    k = .formatMismatch ∧ (((pairSym p s j).toNat : Int) ≤ a.2 ∨ pairLen p s j = 0) := by
  unfold parsePair at h
  split at h
  · cases h; exact ⟨rfl, .inl ‹_›⟩
  · split at h
    · cases h; exact ⟨rfl, .inr ‹_›⟩
    · nomatch h

/-- What the pairs read so far have made of the table. -/
structure PairsRead (p : Params) (s : State) (n : Nat) (a : PairScan) : Prop where
  last : a.2 = if n = 0 then -1 else ((pairSym p s (n - 1)).toNat : Int)
  ascending : ∀ i j, i < j → j < n → (pairSym p s i).toNat < (pairSym p s j).toNat
  nonzero : ∀ j, j < n → pairLen p s j ≠ 0
  listed : ∀ j, j < n → tableGet a.1 (pairSym p s j) = pairLen p s j
  others : ∀ x, (∀ j, j < n → pairSym p s j ≠ x) → tableGet a.1 x = 0

theorem PairsRead.zero : PairsRead p s 0 (tableZero 8, -1) :=
  ⟨rfl, fun _ _ _ h => absurd h (Nat.not_lt_zero _), fun _ h => absurd h (Nat.not_lt_zero _),
    fun _ h => absurd h (Nat.not_lt_zero _), fun x _ => by simp⟩

theorem PairsRead.succ {n : Nat} {a b : PairScan} (h : PairsRead p s n a) (hb : parsePair p s n a = .ok b) :
    PairsRead p s (n + 1) b := by
  obtain ⟨h1, h2, rfl⟩ := parsePair_ok hb
  have hlt : ∀ i, i < n → (pairSym p s i).toNat < (pairSym p s n).toNat := by
    intro i hi
    rw [h.last, if_neg (by omega)] at h1
    rcases Nat.lt_or_ge i (n - 1) with hi' | hi'
    · have := h.ascending i (n - 1) hi' (by omega); omega
    · obtain rfl : i = n - 1 := by omega
      omega
  refine ⟨by simp, fun i j hij hj => ?_, fun j hj => ?_, fun j hj => ?_, fun x hx => ?_⟩
  · rcases Nat.eq_or_lt_of_le (Nat.le_of_lt_succ hj) with rfl | hj
    · exact hlt i hij
    · exact h.ascending i j hij hj
  · rcases Nat.eq_or_lt_of_le (Nat.le_of_lt_succ hj) with rfl | hj
    · exact h2
    · exact h.nonzero j hj
  · rcases Nat.eq_or_lt_of_le (Nat.le_of_lt_succ hj) with rfl | hj
    · simp
    · have := hlt j hj
      rw [tableGet_tableSet_ne _ _ fun e => by rw [e] at this; omega]
      exact h.listed j hj
  · rw [tableGet_tableSet_ne _ _ (hx n (Nat.lt_succ_self n))]
    exact h.others x fun j hj => hx j (by omega)

/-- Everything the loop over the pairs can leave. -/
theorem parsePairs_ok {n : Nat} {a : PairScan} (h : parsePairs p s n = .ok a) : PairsRead p s n a :=
  loop_inv (I := PairsRead p s) PairsRead.zero (fun _ _ _ _ hc hd => hc.succ hd) h

/-- Where the loop over the pairs stops. -/
theorem parsePairs_error {n : Nat} {k : ErrKind} (h : parsePairs p s n = .error k) :
    k = .formatMismatch ∧ ∃ j, j < n ∧ (pairLen p s j = 0 ∨
      (0 < j ∧ (pairSym p s j).toNat ≤ (pairSym p s (j - 1)).toNat)) := by
  obtain ⟨j, a, hj, ha, hk⟩ :=
    loop_error (I := PairsRead p s) PairsRead.zero (fun _ _ _ _ hc hd => hc.succ hd) h
  obtain ⟨rfl, h | h⟩ := parsePair_error hk
  · rw [ha.last] at h
    split at h
    · omega
    · exact ⟨rfl, j, hj, .inr ⟨by omega, by omega⟩⟩
  · exact ⟨rfl, j, hj, .inl h⟩

/-- The loop over the pairs succeeds when they ascend and no length is 0. -/
theorem parsePairs_total {n : Nat} (h0 : ∀ j, j < n → pairLen p s j ≠ 0)
    (ha : ∀ j, 0 < j → j < n → (pairSym p s (j - 1)).toNat < (pairSym p s j).toNat) :
    ∃ a, parsePairs p s n = .ok a ∧ PairsRead p s n a := by
  refine loop_total (I := PairsRead p s) PairsRead.zero fun j c hj hc => ?_
  have hd : parsePair p s j c =
      .ok (tableSet c.1 (pairSym p s j) (pairLen p s j), ((pairSym p s j).toNat : Int)) := by
    unfold parsePair
    rw [if_neg, if_neg (h0 j hj)]
    rw [hc.last]
    split
    · omega
    · have := ha j (by omega) hj; omega
  exact ⟨_, hd, hc.succ hd⟩

/-! ### The loops over the samples -/

theorem putImage_succ (n : Nat) : putImage p (n + 1) s =
    (putImage p n s).bind fun t => putsCmd p (pixByte p t n) t := rfl

theorem getImage_succ (n : Nat) : getImage p (n + 1) s =
    (getImage p n s).bind fun t => (getsCmd p t).bind fun u => .ok (setPix p u n u.rdata) := rfl

/-- What one `PUTS` keeps. -/
theorem putsCmd_frame {x : Sym} (h : putsCmd p x s = .ok t) (hp : PartialOk s) :
    t = { s with wbits := t.wbits, wacc := t.wacc, con := t.con, err := t.err } ∧ PartialOk t ∧
      t.wbits.toNat = s.wbits.toNat + lenOf s x := by
  obtain ⟨-, -, -, ha⟩ := putsCmd_ok h
  exact ⟨(append_appended ha hp).others, (append_appended ha hp).unfilled, (append_appended ha hp).cursor⟩

end Sys2Proof.Machine
end

