-- ==== Sys2Proof/Laws/HostPort.lean ====
section
/-! SUPPORT. What a step is, event by event (spec/10_state.md R24, spec/20_memory.md R61): the equations later proofs
cite instead of unfolding the host port. -/

namespace Sys2Proof.Machine

variable {p : Params} {s t : State}

/-- With nothing left to happen the state stays. -/
theorem step_idle (h : s.script = []) : step s = .next s := by simp [step, stepEvent, h]

/-- The next event happens. -/
theorem step_cons {e : Event} {rest : List Event} (h : s.script = e :: rest) :
    step s = perform e { s with script := rest } := by simp [step, stepEvent, h]

theorem perform_idle (h : s.busy = false) (e : Event) : perform e s = performIdle Config.params e s := by
  simp [perform, h]

@[simp] theorem performIdle_regRead (n : Nat) :
    performIdle p (.regRead n) s = .next (hostTakes (regRead p s n) s) := rfl

@[simp] theorem performIdle_tblRead (T : TableId) (i : Nat) :
    performIdle p (.tblRead T i) s = .next (hostTakes (tblRead s T i) s) := rfl

@[simp] theorem performIdle_reset : performIdle p .reset s = .next (resetBlock s) := rfl

@[simp] theorem performIdle_command (v : BitVec 64) :
    performIdle p (.regWrite 1 v) s = runCommand (commandWord v) s := rfl

theorem performIdle_regWrite {n : Nat} (h : n ≠ 1) (v : BitVec 64) :
    performIdle p (.regWrite n v) s = .next (regStore s n v) := by simp [performIdle, h]

theorem performIdle_memRead {m : MemId} {a : Nat} (h : a < p.memSize m) :
    performIdle p (.memRead m a) s = .next (hostTakes ((memByte p s m a).setWidth 64) s) := by
  simp [performIdle, h]

theorem performIdle_memWrite {m : MemId} {a : Nat} (h : a < p.memSize m) (b : Byte) :
    performIdle p (.memWrite m a b) s = .next (setMem p s m a b) := by simp [performIdle, h]

theorem performIdle_memRead_outside {m : MemId} {a : Nat} (h : p.memSize m ≤ a) :
    performIdle p (.memRead m a) s = .refused (.noSuchAddress m a) := by
  simp [performIdle, Nat.not_lt.2 h]

theorem performIdle_memWrite_outside {m : MemId} {a : Nat} (h : p.memSize m ≤ a) (b : Byte) :
    performIdle p (.memWrite m a b) s = .refused (.noSuchAddress m a) := by
  simp [performIdle, Nat.not_lt.2 h]

theorem runCommand_ok {w : CmdWord} {i : Instr} (h : decodeWord w = .ok i) : runCommand w s = exec i s := by
  simp [runCommand, h]

theorem runCommand_error {w : CmdWord} {e : IllegalWord} (h : decodeWord w = .error e) :
    runCommand w s = .next (raise .illegalCommand s) := by simp [runCommand, h]

/-- A command always has a next state: the success state of its rule, or the state with the kind's code. -/
theorem exec_cases (i : Instr) (s : State) :
    (∃ t, resultOf i s = .ok t ∧ exec i s = .next { t with err := 0 }) ∨
      ∃ k, resultOf i s = .error k ∧ exec i s = .next (raise k s) := by
  rw [exec_eq_finish]; exact finish_cases s _

/-- Everything a step of an idle block can be: nothing left to happen, a host action or a reset, an illegal word, a
command. -/
theorem step_idle_cases (hb : s.busy = false) :
    (s.script = [] ∧ step s = .next s) ∨
      (∃ e rest, s.script = e :: rest ∧ (∀ v, e ≠ .regWrite 1 v) ∧
        step s = performIdle Config.params e { s with script := rest }) ∨
      (∃ v rest e, s.script = .regWrite 1 v :: rest ∧ decodeWord (v.setWidth 32) = .error e ∧
        step s = .next (raise .illegalCommand { s with script := rest })) ∨
      ∃ v rest i, s.script = .regWrite 1 v :: rest ∧ decodeWord (v.setWidth 32) = .ok i ∧
        step s = exec i { s with script := rest } := by
  rcases hs : s.script with _ | ⟨e, rest⟩
  · exact .inl ⟨rfl, step_idle hs⟩
  · have h1 : step s = performIdle Config.params e { s with script := rest } := by
      rw [step_cons hs]; exact perform_idle (s := { s with script := rest }) hb e
    by_cases he : ∃ v, e = .regWrite 1 v
    · obtain ⟨v, rfl⟩ := he
      rw [performIdle_command] at h1
      rcases hd : decodeWord (commandWord v) with k | i
      · exact .inr (.inr (.inl ⟨v, rest, k, rfl, hd, by rw [h1, runCommand_error hd]⟩))
      · exact .inr (.inr (.inr ⟨v, rest, i, rfl, hd, by rw [h1, runCommand_ok hd]⟩))
    · exact .inr (.inl ⟨e, rest, rfl, fun v h => he ⟨v, h⟩, h1⟩)

end Sys2Proof.Machine
end

