-- ==== Sys2Proof/Laws/PerInstr.lean ====
section
/-! SUPPORT. Statements made per instruction, one lemma for each constructor. -/

namespace Sys2Proof.Laws.ReservedZero

/-- 30 R90, R93: the word of a command has its opcode in bits 31 to 24 and zeros in the reserved bits 23 to 8. -/
def Statement (i : Instr) : Prop := rsvField (encodeInstr i) = 0 ∧ opField (encodeInstr i) = opcodeOf i

theorem nop : Statement .nop := by unfold Statement; decide
theorem clr : Statement .clr := by unfold Statement; decide
theorem acc (sym : Sym) : Statement (.acc sym) := by
  unfold Statement; revert sym; decide +kernel
theorem stat : Statement .stat := by unfold Statement; decide
theorem build : Statement .build := by unfold Statement; decide
theorem assign : Statement .assign := by unfold Statement; decide
theorem winit : Statement .winit := by unfold Statement; decide
theorem putb (len : BitVec 6) : Statement (.putb len) := by
  unfold Statement; revert len; decide +kernel
theorem puts (sym : Sym) : Statement (.puts sym) := by
  unfold Statement; revert sym; decide +kernel
theorem fin : Statement .fin := by unfold Statement; decide
theorem rinit : Statement .rinit := by unfold Statement; decide
theorem getb : Statement .getb := by unfold Statement; decide
theorem gets : Statement .gets := by unfold Statement; decide
theorem parse : Statement .parse := by unfold Statement; decide
theorem decode : Statement .decode := by unfold Statement; decide
theorem wrhdr : Statement .wrhdr := by unfold Statement; decide
theorem encode : Statement .encode := by unfold Statement; decide

end Sys2Proof.Laws.ReservedZero
end

