-- ==== Sys2Proof/Laws/TreeBuilder.lean ====
section
/-! SUPPORT. What the operations on the pool of the tree builder do (spec/42_tree_builder.md R152): extraction takes
the item of least key and keeps the others, a merge keeps the weight and the symbols. -/

namespace Sys2Proof.Machine

/-! ### Keys -/

theorem keyBefore_trans {a b c : PoolItem} (h : keyBefore a b) (h' : keyBefore b c) : keyBefore a c := by
  unfold keyBefore at *; omega

theorem not_keyBefore_trans {a b c : PoolItem} (h : ¬ keyBefore b a) (h' : ¬ keyBefore c b) : ¬ keyBefore c a := by
  unfold keyBefore at *; omega

/-! ### Extraction -/

/-- Extraction rearranges the pool. -/
theorem takeLeast_perm (a : PoolItem) (l : List PoolItem) :
    ((takeLeast a l).1 :: (takeLeast a l).2).Perm (a :: l) := by
  induction l generalizing a with
  | nil => exact List.Perm.refl _
  | cons b bs ih =>
    unfold takeLeast
    split
    · exact (List.Perm.swap a _ _).trans ((ih b).cons a)
    · exact (List.Perm.swap b _ _).trans (((ih a).cons b).trans (List.Perm.swap a b bs))

/-- What is extracted has the least key. -/
theorem takeLeast_least (a : PoolItem) (l : List PoolItem) : ∀ c ∈ a :: l, ¬ keyBefore c (takeLeast a l).1 := by
  induction l generalizing a with
  | nil =>
    intro c hc
    obtain rfl : c = a := by simpa using hc
    unfold keyBefore; simp [takeLeast]
  | cons b bs ih =>
    intro c hc
    unfold takeLeast
    split
    · rename_i hba
      rcases List.mem_cons.1 hc with rfl | hc
      · exact not_keyBefore_trans (ih b b List.mem_cons_self) fun h => by unfold keyBefore at *; omega
      · exact ih b c hc
    · rename_i hba
      rcases List.mem_cons.1 hc with rfl | hc
      · exact ih c c List.mem_cons_self
      · rcases List.mem_cons.1 hc with rfl | hc
        · exact not_keyBefore_trans (ih a a List.mem_cons_self) hba
        · exact ih a c (List.mem_cons_of_mem a hc)

theorem takeLeast_length (a : PoolItem) (l : List PoolItem) : (takeLeast a l).2.length = l.length := by
  have := (takeLeast_perm a l).length_eq
  simpa using this

/-! ### Merges -/

/-- A merge of two or more items, with the two it takes out made explicit. -/
theorem mergeOnce_cases (next : Nat) (pool : List PoolItem) :
    (pool = [] ∧ mergeOnce next pool = []) ∨ (∃ a, pool = [a] ∧ mergeOnce next pool = [a]) ∨
      ∃ a b rest, pool.Perm (a :: b :: rest) ∧ mergeOnce next pool = mergeItems next a b :: rest ∧
        mergedSyms pool = symsUnder a.tree ++ symsUnder b.tree ∧ (∀ c ∈ pool, ¬ keyBefore c a) ∧
        ∀ c ∈ b :: rest, ¬ keyBefore c b := by
  match pool with
  | [] => exact .inl ⟨rfl, rfl⟩
  | [a] => exact .inr (.inl ⟨a, rfl, rfl⟩)
  | a :: b :: bs =>
    refine .inr (.inr ?_)
    have hp := takeLeast_perm a (b :: bs)
    have hl := takeLeast_least a (b :: bs)
    have hlen := takeLeast_length a (b :: bs)
    rcases hm : takeLeast a (b :: bs) with ⟨m, rest⟩
    rw [hm] at hp hl hlen
    match rest with
    | [] => simp at hlen
    | c :: cs =>
      refine ⟨m, (takeLeast c cs).1, (takeLeast c cs).2, hp.symm.trans ((takeLeast_perm c cs).symm.cons m), ?_, ?_, hl,
        fun d hd => takeLeast_least c cs d ((takeLeast_perm c cs).mem_iff.1 hd)⟩
      · simp only [mergeOnce, hm, mergeWith]
      · simp only [mergedSyms, hm]

theorem mergeOnce_length (next : Nat) {pool : List PoolItem} (h : 2 ≤ pool.length) :
    (mergeOnce next pool).length = pool.length - 1 := by
  rcases mergeOnce_cases next pool with ⟨rfl, -⟩ | ⟨a, rfl, -⟩ | ⟨a, b, rest, hp, he, -⟩
  · simp at h
  · simp at h
  · rw [he, hp.length_eq]; simp

/-- One merge more is a merge of the pool that the merges before it leave. -/
theorem mergePool_succ (k next : Nat) (pool : List PoolItem) :
    mergePool (k + 1) next pool = mergeOnce (next + k) (mergePool k next pool) := by
  induction k generalizing next pool with
  | zero => rfl
  | succ k ih =>
    rw [mergePool, ih, mergePool, show next + 1 + k = next + (k + 1) by omega]

/-- The indices in a pool are distinct and below the next one. -/
def IndicesBelow (next : Nat) (pool : List PoolItem) : Prop :=
  (pool.map PoolItem.index).Nodup ∧ ∀ c ∈ pool, c.index < next

/-- A merge keeps the indices distinct; the new node has taken `next`. -/
theorem mergeOnce_indices {next : Nat} {pool : List PoolItem} (h : IndicesBelow next pool) :
    IndicesBelow (next + 1) (mergeOnce next pool) := by
  obtain ⟨h1, h2⟩ := h
  rcases mergeOnce_cases next pool with ⟨rfl, he⟩ | ⟨a, rfl, he⟩ | ⟨a, b, rest, hp, he, -⟩
  · rw [he]; exact ⟨h1, fun c hc => by have := h2 c hc; omega⟩
  · rw [he]; exact ⟨h1, fun c hc => by have := h2 c hc; omega⟩
  · rw [he]
    have h3 := (hp.map PoolItem.index).nodup_iff.1 h1
    simp only [List.map_cons, List.nodup_cons] at h3
    have hr : ∀ c ∈ rest, c.index < next := fun c hc => h2 c (hp.mem_iff.2 (by simp [hc]))
    refine ⟨?_, fun c hc => ?_⟩
    · refine List.nodup_cons.2 ⟨fun hm => ?_, h3.2.2⟩
      obtain ⟨c, hc, he⟩ := List.mem_map.1 hm
      have := hr c hc
      rw [he] at this
      exact Nat.lt_irrefl _ this
    · rcases List.mem_cons.1 hc with rfl | hc
      · exact Nat.lt_succ_self next
      · have := hr c hc; omega

/-- A merge keeps the sum of the weights. -/
theorem mergeOnce_weight (next : Nat) (pool : List PoolItem) :
    ((mergeOnce next pool).map PoolItem.weight).sum = (pool.map PoolItem.weight).sum := by
  rcases mergeOnce_cases next pool with ⟨rfl, he⟩ | ⟨a, rfl, he⟩ | ⟨a, b, rest, hp, he, -⟩
  · rw [he]
  · rw [he]
  · rw [he, (hp.map PoolItem.weight).sum_eq]; simp [mergeItems, Nat.add_assoc]

/-- A merge keeps the symbols. -/
theorem mergeOnce_syms (next : Nat) (pool : List PoolItem) :
    ((mergeOnce next pool).flatMap fun a => symsUnder a.tree).Perm (pool.flatMap fun a => symsUnder a.tree) := by
  rcases mergeOnce_cases next pool with ⟨rfl, he⟩ | ⟨a, rfl, he⟩ | ⟨a, b, rest, hp, he, -⟩
  · rw [he]
  · rw [he]
  · rw [he]
    refine List.Perm.trans ?_ (hp.flatMap_right _).symm
    simp [mergeItems, symsUnder, List.append_assoc]

/-! ### Leaves -/

theorem leafItems_trees (f : Sym → Nat) (next : Nat) (l : List Sym) :
    (leafItems f next l).flatMap (fun a => symsUnder a.tree) = l := by
  induction l generalizing next with
  | nil => rfl
  | cons x xs ih => simp [leafItems, symsUnder, ih]

theorem leafItems_weights (f : Sym → Nat) (next : Nat) (l : List Sym) :
    (leafItems f next l).map PoolItem.weight = l.map f := by
  induction l generalizing next with
  | nil => rfl
  | cons x xs ih => simp [leafItems, ih]

@[simp] theorem leafItems_length (f : Sym → Nat) (next : Nat) (l : List Sym) : (leafItems f next l).length = l.length := by
  induction l generalizing next with
  | nil => rfl
  | cons x xs ih => simp [leafItems, ih]

/-- The leaves take consecutive indices. -/
theorem leafItems_index (f : Sym → Nat) (next : Nat) (l : List Sym) :
    (leafItems f next l).map PoolItem.index = List.range' next l.length := by
  induction l generalizing next with
  | nil => rfl
  | cons x xs ih => simp [leafItems, ih, List.range'_succ]

/-- So they start distinct and below the first index of an internal node. -/
theorem leafItems_indices (f : Sym → Nat) (l : List Sym) : IndicesBelow l.length (leafItems f 0 l) := by
  refine ⟨by rw [leafItems_index]; exact List.nodup_range', fun c hc => ?_⟩
  have : c.index ∈ (leafItems f 0 l).map PoolItem.index := List.mem_map.2 ⟨c, hc, rfl⟩
  rw [leafItems_index, List.mem_range'_1] at this
  omega

/-- With distinct indices an item that no other precedes comes before every other. -/
theorem keyBefore_of_least {a c : PoolItem} (h : ¬ keyBefore c a) (hi : a.index ≠ c.index) : keyBefore a c := by
  unfold keyBefore at *; omega

/-! ### Depths -/

theorem leafDepths_keys (t : HTree) (d : Nat) : (leafDepths t d).map Prod.fst = symsUnder t := by
  induction t generalizing d with
  | leaf x => rfl
  | node l r hl hr => simp [leafDepths, symsUnder, hl, hr]

/-- A tree further down has every leaf that much deeper. -/
theorem leafDepths_shift (t : HTree) (d k : Nat) :
    leafDepths t (d + k) = (leafDepths t d).map fun e => (e.1, e.2 + k) := by
  induction t generalizing d with
  | leaf x => rfl
  | node l r hl hr =>
    simp only [leafDepths, List.map_append, show d + k + 1 = d + 1 + k by omega, hl, hr]

/-- No leaf is deeper than the number of internal nodes. -/
theorem leafDepths_bound (t : HTree) (d : Nat) : ∀ e ∈ leafDepths t d, d ≤ e.2 ∧ e.2 ≤ d + innerCount t := by
  induction t generalizing d with
  | leaf x => simp [leafDepths, innerCount]
  | node l r hl hr =>
    intro e he
    rcases List.mem_append.1 he with he | he
    · have := hl (d + 1) e he; unfold innerCount; omega
    · have := hr (d + 1) e he; unfold innerCount; omega

theorem innerCount_add_one (t : HTree) : innerCount t + 1 = (symsUnder t).length := by
  induction t with
  | leaf x => rfl
  | node l r hl hr => simp only [innerCount, symsUnder, List.length_append]; omega

/-- Each tree fills its part of the code space exactly. -/
theorem leafDepths_kraft (t : HTree) (d m : Nat) (h : d + innerCount t ≤ m) :
    ((leafDepths t d).map fun e => 2 ^ (m - e.2)).sum = 2 ^ (m - d) := by
  induction t generalizing d with
  | leaf x => simp [leafDepths]
  | node l r hl hr =>
    unfold innerCount at h
    simp only [leafDepths, List.map_append, List.sum_append]
    rw [hl (d + 1) (by omega), hr (d + 1) (by omega), show m - d = (m - (d + 1)) + 1 by omega, pow_succ]
    omega

end Sys2Proof.Machine
end

