-- ==== Sys2Proof/Tests/Slice0.lean ====
section
/-! SUPPORT. The model's own tests: ill-formed terms, words written out from spec/30_encoding.md, one-step examples of
the command rules, and for every statement with hypotheses a state that meets them. Expected values are the spec's. -/

namespace Sys2Proof.Tests

set_option Elab.async false

open Sys2Proof Sys2Proof.Machine

/-! ### Well-formed terms, decoding -/

/-- 30 R91, R94: the one check of `Instr.wellFormed` refuses a length of 33 and admits 32. -/
theorem test_wellformed_putb : (Instr.putb 33).wellFormed = false ∧ (Instr.putb 63).wellFormed = false ∧
    (Instr.putb 32).wellFormed = true ∧ (Instr.putb 0).wellFormed = true := by decide

/-- Control (30 R93): opcodes 0000 0000 and 0000 0001, 24 zeros. -/
theorem test_decode_control : decodeWord 0b00000000000000000000000000000000 = .ok .nop ∧
    decodeWord 0b00000001000000000000000000000000 = .ok .clr := by decide

/-- Frequency accumulator (30 R93, 41 R141): `ACC 30` is 0x1000001E. -/
theorem test_decode_accumulator : decodeWord 0b00010000000000000000000000011110 = .ok (.acc 30) ∧
    decodeWord 0b00010001000000000000000000000000 = .ok .stat := by decide

/-- Tree builder and assigner (30 R93). -/
theorem test_decode_builder : decodeWord 0b00100000000000000000000000000000 = .ok .build ∧
    decodeWord 0b00110000000000000000000000000000 = .ok .assign := by decide

/-- Writer (30 R93, R91): `PUTB 9` has its length in bits 5 to 0, `PUTS 200` its symbol in bits 7 to 0. -/
theorem test_decode_writer : decodeWord 0b01000000000000000000000000000000 = .ok .winit ∧
    decodeWord 0b01000001000000000000000000001001 = .ok (.putb 9) ∧
    decodeWord 0b01000010000000000000000011001000 = .ok (.puts 200) ∧
    decodeWord 0b01000011000000000000000000000000 = .ok .fin := by decide

/-- Reader (30 R93). -/
theorem test_decode_reader : decodeWord 0b01010000000000000000000000000000 = .ok .rinit ∧
    decodeWord 0b01010001000000000000000000000000 = .ok .getb ∧
    decodeWord 0b01010010000000000000000000000000 = .ok .gets := by decide

/-- Container codec (30 R93). -/
theorem test_decode_container : decodeWord 0b01100000000000000000000000000000 = .ok .parse ∧
    decodeWord 0b01100001000000000000000000000000 = .ok .decode ∧
    decodeWord 0b01100010000000000000000000000000 = .ok .wrhdr ∧
    decodeWord 0b01100011000000000000000000000000 = .ok .encode := by decide

/-- 30 R94, R96: the opcode is tested before the reserved bits, these before the operand. -/
theorem test_decode_illegal : decodeWord 0b00000010000000010000000000000001 = .error .unassignedOpcode ∧
    decodeWord 0b01000001000000010000000000100001 = .error .reservedBits ∧
    decodeWord 0b01000001000000000000000000100001 = .error .operandRange ∧
    decodeWord 0b00000000000000000000000000000001 = .error .operandRange := by decide

/-- The host's probe numbers the bits as the table does. -/
theorem test_decode_table_word : decodeTableWord 32 0x4200001E = some (.puts 30) ∧
    decodeTableWord 32 0x64000000 = none := by decide

/-- Log 1: the word placed by the host's probe is the very next command to run. -/
theorem test_fetch_word : step (State.reset.withFetchWord 32 0x00000000) = .next State.reset ∧
    step (State.reset.withFetchWord 32 0x64000000) = .next { State.reset with err := 6 } := ⟨rfl, rfl⟩

/-! ### One command at a time, on the examples of the command rules -/

/-- The reference value of 00 R8, memories of zeros: a block to try the commands on. -/
def block : Params where
  maxSamplesPred := ⟨16777215, by decide⟩
  draw := fun _ _ _ => 0
  busyFields := fun _ => 0

/-- Does the command succeed with a state like this? -/
def gives (r : Except ErrKind State) (f : State → Bool) : Bool :=
  match r with
  | .ok t => f t
  | .error _ => false

/-- Does the command end with this kind? -/
def refuses (r : Except ErrKind State) (k : ErrKind) : Bool :=
  match r with
  | .ok _ => false
  | .error j => j == k

/-- A memory with these bytes from an address on. -/
def cells (a : Nat) : List Byte → Memory
  | [] => []
  | b :: bs => (a, b) :: cells (a + 1) bs

/-- `FREQ[10] = 2, FREQ[20] = 1, FREQ[30] = 1, TOTAL = 4` (41 R141). -/
def counted : State :=
  { State.reset with
    freq := tableSet (tableSet (tableSet (tableZero 32) 10 2) 20 1) 30 1
    total := 4 }

/-- With `LEN[10] = 1, LEN[20] = 2, LEN[30] = 2` (42 R151). -/
def built : State := { counted with len := tableSet (tableSet (tableSet (tableZero 8) 10 1) 20 2) 30 2 }

/-- With `CODE[10] = 0, CODE[20] = 2, CODE[30] = 3`, `CV = 1` (43 R171). -/
def assigned : State := { built with code := tableSet (tableSet (tableZero 32) 20 2) 30 3, cv := true }

/-- The image of 41 R143: `10, 10, 20, 30`, two by two, grayscale. -/
def image : State := { State.reset with width := 2, height := 2, layout := 1, pix := cells 0 [10, 10, 20, 30] }

/-- The container of 46 R234, `CON[0..29]`. -/
def containerBytes : List Byte :=
  [0x48, 0x55, 0x46, 0x31, 0x02, 0x00, 0x00, 0x00, 0x02, 0x00, 0x00, 0x00, 0x01, 0x03, 0x00, 0x0A, 0x01, 0x14,
    0x02, 0x1E, 0x02, 0x06, 0x00, 0x00, 0x00, 0x00, 0x00, 0x00, 0x00, 0x2C]

/-- A block that holds it. -/
def holding : State := { State.reset with conlen := 30, con := cells 0 containerBytes }

/-- 40 R130: `NOP` clears `ERR = 4`, all else unchanged. -/
theorem test_nop : exec .nop { assigned with err := 4 } = .next assigned := rfl

/-- 40 R131: `CLR` clears registers and tables and keeps the memories. -/
theorem test_clr : (clearBlock { assigned with conlen := 30, wfin := true, con := cells 29 [0x2C] }) =
    { State.reset with con := cells 29 [0x2C] } := rfl

/-- 41 R141: `ACC 10` twice, `ACC 20`, `ACC 30` from reset. -/
theorem test_acc : gives ((((accCmd block 10 State.reset).bind (accCmd block 10)).bind (accCmd block 20)).bind
    (accCmd block 30)) (fun t => decide (t.total = 4 ∧ freqOf t 10 = 2 ∧ freqOf t 30 = 1)) = true := by decide +kernel

/-- 41 R141: at the bound `ACC` raises. -/
theorem test_acc_bound : refuses (accCmd block 7 { State.reset with total := 16777216 }) .dimensionOverflow = true := by
  decide +kernel

/-- 41 R143: the same table from the image. -/
theorem test_stat : gives (statCmd block image) (fun t => decide (t.total = 4 ∧ freqOf t 10 = 2 ∧ freqOf t 30 = 1)) = true := by
  decide +kernel

/-- 60 R277: an illegal layout is reported before huge dimensions. -/
theorem test_stat_order : refuses (statCmd block { image with width := 0xFFFFFFFF, height := 0xFFFFFFFF, layout := 2 })
    .formatMismatch = true := by decide +kernel

/-- 42 R151: lengths 1, 2, 2; `CV` cleared. -/
theorem test_build : gives (buildCmd { counted with cv := true }) (fun t => decide (t.cv = false ∧ lenOf t 10 = 1 ∧ lenOf t 30 = 2)) = true := by
  decide +kernel

/-- 42 R154: one present symbol has length 1. -/
theorem test_build_single : gives (buildCmd { State.reset with freq := tableSet (tableZero 32) 255 9, total := 9 })
    (fun t => decide (lenOf t 255 = 1 ∧ lenOf t 0 = 0)) = true := by decide +kernel

/-- 42 R151, R152: at equal weight the leaf before the internal node, the lower symbol before the higher. -/
theorem test_tie_break : rootPool (freqOf counted) =
    [{ weight := 4, index := 4, tree := .node (.leaf 10) (.node (.leaf 20) (.leaf 30)) }] := by decide +kernel

/-- 43 R171: codes 0, 10, 11. -/
theorem test_assign : gives (assignCmd built) (fun t => decide (t.cv = true ∧ codeOf t 20 = 2 ∧ codeOf t 30 = 3)) = true := by decide +kernel

/-- 43 R171: a length above 32 is reported before a Kraft sum above 1. -/
theorem test_assign_order :
    refuses (assignCmd { State.reset with
      len := tableSet (tableSet (tableSet (tableSet (tableZero 8) 0 1) 1 1) 2 1) 3 33 }) .codeLengthOverflow = true ∧
    refuses (assignCmd { State.reset with
      len := tableSet (tableSet (tableSet (tableZero 8) 0 1) 1 1) 2 1 }) .formatMismatch = true := by
  decide +kernel

/-- 44 R192: a partial byte is discarded. -/
theorem test_winit : exec .winit { State.reset with wbits := 44, wacc := 0xF0, wfin := true } = .next State.reset := rfl

/-- 44 R193: `101`, then nine ones: `WBITS = 12`, `CON[100] = 0xBF`, `WACC = 0xF0`. -/
theorem test_putb : gives ((putbCmd block 3 { State.reset with wbase := 100, wdata := 0x5 }).bind fun s =>
      putbCmd block 9 { s with wdata := 0x1FF })
    (fun t => decide (t.wbits = 12 ∧ t.wacc = 0xF0 ∧ conByte block t 100 = 0xBF ∧ conByte block t 101 = 0)) = true := by
  decide +kernel

/-- 44 R193: length 0 appends nothing, also at a full memory. -/
theorem test_putb_zero : gives (putbCmd block 0 { State.reset with wbase := 67109399 })
    (fun t => decide (t.wbits = 0 ∧ t.con = [])) = true ∧
    refuses (putbCmd block 1 { State.reset with wbase := 67109399 }) .stateError = true := by decide +kernel

/-- 44 R194: `PUTS 10, 10, 20, 30` give six bits, all in `WACC`. -/
theorem test_puts : gives (putAll block [10, 10, 20, 30] { assigned with wbase := 29 })
    (fun t => decide (t.wbits = 6 ∧ t.wacc = 0x2C ∧ t.con = [])) = true := by decide +kernel

/-- 44 R195: `FIN` stores the partial byte; a second `FIN` raises. -/
theorem test_fin : gives (finCmd block { State.reset with wbase := 29, wbits := 6, wacc := 0x2C })
    (fun t => decide (conByte block t 29 = 0x2C ∧ t.wbits = 6) && t.wfin && refuses (finCmd block t) .stateError) =
      true := by decide +kernel

/-- 45 R212. -/
theorem test_rinit : exec .rinit { State.reset with rpos := 6, rdata := 30, rvalid := 6 } =
    .next { State.reset with rvalid := 6 } := rfl

/-- 45 R213: the third bit of 0x20 is 1; at `RVALID` the valid bits have ended. -/
theorem test_getb : gives (getbCmd block { State.reset with con := [(100, 0x20)], rbase := 100, rvalid := 4, rpos := 2 })
    (fun t => decide (t.rdata = 1 ∧ t.rpos = 3)) = true ∧
    refuses (getbCmd block { State.reset with con := [(100, 0x20)], rbase := 100, rvalid := 4, rpos := 4 })
      .truncatedStream = true := by decide +kernel

/-- 45 R214: `10, 10, 20, 30` from `00101100`, then the bits have run out. -/
theorem test_gets :
    (match getAll block 4 { assigned with con := [(29, 0x2C)], rbase := 29, rvalid := 6 } with
      | .ok (xs, t) => decide (xs = [10, 10, 20, 30] ∧ t.rpos = 6) && refuses (getsCmd block t) .truncatedStream
      | .error _ => false) = true := by decide +kernel

/-- 43 R171(c): under the empty code the first bit leads nowhere. -/
theorem test_gets_dead : refuses (getsCmd block { State.reset with cv := true, rvalid := 1 }) .formatMismatch = true := by
  decide +kernel

/-- 46 R235: the container's fields, and that a missing payload byte is noticed. -/
theorem test_parse : gives (parseCmd block { holding with cv := true }) (fun t => decide
      (t.width = 2 ∧ t.layout = 1 ∧ lenOf t 10 = 1 ∧ lenOf t 30 = 2 ∧ t.cv = false ∧ t.rbase = 29 ∧ t.rvalid = 6)) = true ∧
    refuses (parseCmd block { holding with conlen := 29 }) .truncatedStream = true := by decide +kernel

/-- 46 R236. -/
theorem test_decode : gives (decodeCmd block holding) (fun t => decide
      (pixels block t 4 = [10, 10, 20, 30] ∧ t.cv = true ∧ codeOf t 30 = 3 ∧ t.rpos = 6 ∧ t.rdata = 30)) = true := by
  decide +kernel

/-- 46 R233: the header of the same container. -/
theorem test_wrhdr : gives (wrhdrCmd block { assigned with width := 2, height := 2, layout := 1 }) (fun t => decide
      (conBytes block t 0 29 = containerBytes.take 29 ∧ t.wbase = 29 ∧ t.conlen = 30 ∧ t.wbits = 0)) = true := by
  decide +kernel

/-- 46 R234: the container of the image. -/
theorem test_encode : gives (encodeCmd block image) (fun t => decide
      (conBytes block t 0 30 = containerBytes ∧ t.conlen = 30 ∧ t.total = 4 ∧ t.wbase = 29 ∧ t.wbits = 6 ∧
        t.wacc = 0x2C ∧ t.cv = true ∧ t.wfin = true)) = true := by decide +kernel

/-- 46 R234: an image without samples. -/
theorem test_encode_empty : refuses (encodeCmd block { image with width := 0 }) .emptyInput = true := by decide +kernel

/-! ### For every statement with hypotheses, a state and operands that meet them

`Config.params` is open, so the states below need one sample at most, and the bytes they read are listed. -/

/-- The parameters at hand. -/
abbrev P : Params := Config.params

theorem one_le_max : 1 ≤ P.maxSamples := maxSamples_pos P

theorem cap_ge : 539 ≤ P.conCap := by have := conCap_eq P; have := one_le_max; omega

theorem max_lt : P.maxSamples < 2 ^ 32 := maxSamples_lt P

/-- A command that succeeds has the next state of its rule. -/
theorem exec_of_ok {i : Instr} {s t : State} (h : resultOf i s = .ok t) : exec i s = .next { t with err := 0 } := by
  rw [exec_eq_finish, h]; rfl

theorem exec_of_error {i : Instr} {s : State} {k : ErrKind} (h : resultOf i s = .error k) :
    exec i s = .next (raise k s) := by rw [exec_eq_finish, h]; rfl

/-- An event that is all that is still to come. -/
def before (e : Event) (s : State) : State := { s with script := [e] }

/-- The lengths of the one-symbol code of symbol 10. -/
def single (x : Sym) : Nat := if x = 10 then 1 else 0

/-- The lengths of the code of 43 R171's example. -/
def triple (x : Sym) : Nat := if x = 10 then 1 else if x = 20 ∨ x = 30 then 2 else 0

/-- An image of one sample, 10. -/
def sample : State := { State.reset with width := 1, height := 1, layout := 1, pix := [(0, 10)] }

/-- The same, with the code of its one symbol. -/
def coded : State :=
  { sample with freq := tableSet (tableZero 32) 10 1, total := 1, len := tableSet (tableZero 8) 10 1, cv := true }

/-- The container of an image of one sample 10. -/
def sampleBytes : List Byte :=
  [0x48, 0x55, 0x46, 0x31, 1, 0, 0, 0, 1, 0, 0, 0, 1, 1, 0, 10, 1, 1, 0, 0, 0, 0, 0, 0, 0, 0x00]

/-- A block that holds it. -/
def stored : State := { State.reset with conlen := 26, con := cells 0 sampleBytes }

theorem lenOf_coded (x : Sym) : lenOf coded x = single x := by
  unfold coded lenOf single
  rw [tableGet_tableSet]
  split
  · subst_vars; rfl
  · rw [if_neg (Ne.symm ‹_›)]; simp

theorem freqOf_coded (x : Sym) : freqOf coded x = single x := by
  unfold coded freqOf single
  rw [tableGet_tableSet]
  split
  · subst_vars; rfl
  · rw [if_neg (Ne.symm ‹_›)]; simp

theorem lenOf_coded_fun : lenOf coded = single := funext lenOf_coded

theorem freqOf_coded_fun : freqOf coded = single := funext freqOf_coded

theorem canonicalCode_single (x : Sym) : canonicalCode single x = 0 := by revert x; decide +kernel

theorem codeOf_coded (x : Sym) : codeOf coded x = 0 := by
  change (tableGet (tableZero 32) x).toNat = 0
  simp

theorem codeOk_coded : CodeOk coded := fun _ => by
  rw [lenOf_coded_fun]
  exact ⟨by decide +kernel, by decide +kernel, fun x => by rw [codeOf_coded, canonicalCode_single]⟩

theorem pixels_sample : pixels P sample (sampleTotal sample) = [10] := rfl

theorem pixCount_sample (x : Sym) : pixCount P sample (sampleTotal sample) x = single x := by
  unfold pixCount
  rw [pixels_sample]
  revert x; decide +kernel

theorem depth_sample (x : Sym) : huffmanLengths (pixCount P sample (sampleTotal sample)) x ≤ 32 := by
  rw [show pixCount P sample (sampleTotal sample) = single from funext pixCount_sample]
  revert x; decide +kernel

theorem lenOf_congr {s t : State} (h : s.len = t.len) : lenOf s = lenOf t := by unfold lenOf; rw [h]

theorem codeOf_congr {s t : State} (h : s.code = t.code) : codeOf s = codeOf t := by unfold codeOf; rw [h]

theorem freqOf_congr {s t : State} (h : s.freq = t.freq) : freqOf s = freqOf t := by unfold freqOf; rw [h]

/-- The codes of the one-symbol code as `ASSIGN` writes them. -/
theorem codes_single : (fun x => BitVec.ofNat 32 (canonicalCode single x)) = fun _ => 0#32 :=
  funext fun x => by rw [canonicalCode_single]

/-! #### The run of `ENCODE` on the sample -/

/-- After `STAT`. -/
def sampleStat : State := { sample with freq := tableSet (tableZero 32) 10 1, total := 1 }

theorem statCmd_sample : statCmd P sample = .ok sampleStat := by
  have h : imageCount P sample = .ok 1 := imageCount_ok.2 ⟨.inl rfl, one_le_max, rfl⟩
  unfold statCmd
  rw [h]
  rfl

theorem freqOf_sampleStat : freqOf sampleStat = single :=
  (freqOf_congr (by simp only [sampleStat, coded])).trans freqOf_coded_fun

/-- After `BUILD`. -/
def sampleBuild : State := { sampleStat with len := tableOf fun x => BitVec.ofNat 8 (single x), cv := false }

theorem huffman_single (x : Sym) : huffmanLengths single x = single x := by revert x; decide +kernel

theorem buildCmd_sample : buildCmd sampleStat = .ok sampleBuild := by
  unfold buildCmd
  rw [if_neg (by decide), freqOf_sampleStat, show huffmanLengths single = single from funext huffman_single]
  simp only [sampleBuild]

theorem lenOf_sampleBuild : lenOf sampleBuild = single := by
  funext x
  simp only [lenOf, sampleBuild, tableGet_tableOf]
  revert x; decide +kernel

/-- After `ASSIGN`. -/
def sampleAssign : State := { sampleBuild with code := tableOf fun _ => 0#32, cv := true }

theorem assignCmd_sample : assignCmd sampleBuild = .ok sampleAssign := by
  unfold assignCmd
  rw [lenOf_sampleBuild, if_neg, if_neg (by decide +kernel)]
  · rw [codes_single]; simp only [sampleAssign]
  · decide +kernel

theorem lenOf_sampleAssign : lenOf sampleAssign = single :=
  (lenOf_congr (by simp only [sampleAssign])).trans lenOf_sampleBuild

theorem freqOf_sampleAssign : freqOf sampleAssign = single :=
  (freqOf_congr (by simp only [sampleAssign, sampleBuild])).trans freqOf_sampleStat

/-- After `WRHDR`. -/
def sampleHeader : State := pointWriter 1 1 (storeCon P sampleAssign 0 (headerBytes sampleAssign))

theorem wrhdrCmd_sample : wrhdrCmd P sampleAssign = .ok sampleHeader := by
  have h : imageCount P sampleAssign = .ok 1 := imageCount_ok.2 ⟨.inl rfl, one_le_max, rfl⟩
  unfold wrhdrCmd
  rw [if_neg (by decide), h, ok_bind, if_neg (by decide), if_neg (by decide), if_neg]
  · have hn : (codedSyms sampleAssign).length = 1 := by
      unfold codedSyms; rw [lenOf_sampleAssign]; decide +kernel
    have hv : validBitCount sampleAssign = 1 := by
      unfold validBitCount; rw [lenOf_sampleAssign, freqOf_sampleAssign]; decide +kernel
    rw [hn, hv, sampleHeader]
  · rw [lenOf_sampleAssign, freqOf_sampleAssign]; decide +kernel

theorem storeCon_len (s : State) (a : Nat) (bs : List Byte) :
    storeCon P s a bs = { s with con := (storeCon P s a bs).con } := by
  induction bs generalizing s a with
  | nil => rfl
  | cons b bs ih =>
    unfold storeCon
    rw [ih]
    unfold setCon
    split <;> rfl

theorem sampleHeader_eq : sampleHeader =
    { sampleAssign with con := sampleHeader.con, wbase := 25, conlen := 26, wbits := 0, wacc := 0, wfin := false } := by
  have h := storeCon_len sampleAssign 0 (headerBytes sampleAssign)
  unfold sampleHeader
  generalize storeCon P sampleAssign 0 (headerBytes sampleAssign) = u at h ⊢
  rw [h]
  simp only [pointWriter, writerInit]
  rfl

/-- After the one `PUTS`. -/
def samplePut : State := { sampleHeader with wbits := 1 }

theorem putImage_sample : putImage P 1 sampleHeader = .ok samplePut := by
  rw [putImage_succ]
  rw [show putImage P 0 sampleHeader = .ok sampleHeader from rfl, ok_bind]
  have hp : pixByte P sampleHeader 0 = 10 := by rw [sampleHeader_eq]; rfl
  have hl : lenOf sampleHeader 10 = 1 := by
    rw [sampleHeader_eq]; exact (congrFun lenOf_sampleAssign 10).trans rfl
  have hc : codeOf sampleHeader 10 = 0 := by
    rw [sampleHeader_eq]
    simp only [codeOf, sampleAssign, tableGet_tableOf]; rfl
  unfold putsCmd
  rw [hp, hl, hc, if_neg (by rw [sampleHeader_eq]; decide), if_neg (by decide),
    if_neg (by rw [sampleHeader_eq]; decide), append_total]
  · rw [samplePut, sampleHeader_eq]; rfl
  · rw [sampleHeader_eq]
    have := cap_ge
    change 25 + 1 ≤ P.conCap
    omega

/-- After `FIN`. -/
def sampleDone : State := finalise (setCon P samplePut 25 0)

theorem finCmd_sample : finCmd P samplePut = .ok sampleDone := by
  have hw : writerAddr samplePut samplePut.wbits.toNat = 25 := by
    rw [samplePut, sampleHeader_eq]; rfl
  have ha : samplePut.wacc = 0 := by rw [samplePut, sampleHeader_eq]
  have := cap_ge
  unfold finCmd
  rw [if_neg (by rw [samplePut, sampleHeader_eq]; decide), if_neg (by rw [samplePut]; decide), hw, ha,
    if_neg (by omega)]
  rfl

theorem encodeCmd_sample : encodeCmd P sample = .ok sampleDone := by
  have ht : sampleHeader.total.toNat = 1 := by rw [sampleHeader_eq]; rfl
  unfold encodeCmd
  rw [statCmd_sample, ok_bind, buildCmd_sample, ok_bind, assignCmd_sample, ok_bind, wrhdrCmd_sample, ok_bind, ht,
    putImage_sample, ok_bind, finCmd_sample]

theorem exec_encode_sample : exec .encode sample = .next { sampleDone with err := 0 } := exec_of_ok encodeCmd_sample

theorem sampleDone_conlen : sampleDone.conlen = 26 := by
  unfold sampleDone finalise setCon
  split <;> (simp only [samplePut]; rw [sampleHeader_eq])

theorem sampleDone_wbase : sampleDone.wbase = 25 := by
  unfold sampleDone finalise setCon
  split <;> (simp only [samplePut]; rw [sampleHeader_eq])

/-! #### The container of the sample -/

theorem streamOf_single : streamOf single [10] = [false] := by decide +kernel

theorem presentSyms_single : presentSyms single = [10] := by decide +kernel

theorem holdsHeader_stored : HoldsHeader P stored single where
  fits := by have := cap_ge; change 26 ≤ P.conCap; omega
  magic := rfl
  layout := .inl rfl
  bound := one_le_max
  count := by rw [presentSyms_single]; rfl
  lengths := fun x => by unfold single; split <;> omega
  pairs := by rw [presentSyms_single]; rfl
  empty := fun h => absurd h (by decide +kernel)
  whole := by rw [presentSyms_single]; exact Nat.le_refl 26

theorem holdsContainer_stored : HoldsContainer P stored single [10] where
  header := holdsHeader_stored
  admitted := fun x => by unfold single; split <;> omega
  kraft := by decide +kernel
  samples := rfl
  coded := by decide +kernel
  valid := by rw [streamOf_single, presentSyms_single]; exact Nat.le_refl 1
  payload := by
    rw [streamOf_single, presentSyms_single]
    intro q h
    obtain rfl : q = 0 := by simpa using h
    rfl

/-- After `PARSE` of it. -/
def storedParsed : State :=
  { stored with width := 1, height := 1, layout := 1, len := tableSet (tableZero 8) 10 1, rbase := 25, rvalid := 1 }

theorem parseCmd_stored : parseCmd P stored = .ok storedParsed := by
  have hcap := cap_ge
  have hs : sampleCount P (hdrWidth P stored) (hdrHeight P stored) (hdrLayout P stored) = .ok 1 :=
    sampleCount_ok.2 ⟨.inl rfl, one_le_max, rfl⟩
  have hn : hdrCount P stored = 1 := rfl
  unfold parseCmd
  rw [if_neg (by change ¬ 26 > P.conCap; omega), if_neg (by decide +kernel), if_neg (by decide), hs, ok_bind, hn,
    if_neg (by decide), if_neg (by decide), if_neg (by decide)]
  rfl

theorem lenOf_storedParsed : lenOf storedParsed = single :=
  (lenOf_congr (by simp only [storedParsed, coded])).trans lenOf_coded_fun

/-- After `ASSIGN`. -/
def storedAssigned : State := { storedParsed with code := tableOf fun _ => 0#32, cv := true }

theorem assignCmd_stored : assignCmd storedParsed = .ok storedAssigned := by
  unfold assignCmd
  rw [lenOf_storedParsed, if_neg, if_neg (by decide +kernel)]
  · rw [codes_single]; simp only [storedAssigned]
  · decide +kernel

theorem lenOf_storedAssigned : lenOf storedAssigned = single :=
  (lenOf_congr (by simp only [storedAssigned])).trans lenOf_storedParsed

theorem codeOf_storedAssigned (x : Sym) : codeOf storedAssigned x = 0 := by
  simp only [codeOf, storedAssigned, tableGet_tableOf]; rfl

theorem codeOk_storedAssigned : CodeOk storedAssigned := fun _ => by
  rw [lenOf_storedAssigned]
  exact ⟨by decide +kernel, by decide +kernel, fun x => by rw [codeOf_storedAssigned, canonicalCode_single]⟩

theorem readBit_stored : readBit P storedAssigned 0 = .ok false :=
  readBit_ok.2 ⟨by decide, by have := cap_ge; change 25 < P.conCap; omega, rfl⟩

theorem getsCmd_stored : getsCmd P storedAssigned = .ok { storedAssigned with rdata := 10, rpos := 1 } := by
  have hl : leafAt storedAssigned 1 0 = some 10 := by
    refine leafAt_eq_some ⟨rfl, codeOf_storedAssigned 10⟩ fun y hy _ => ?_
    rw [lenOf_storedAssigned] at hy
    by_contra hne
    unfold single at hy
    rw [if_neg hne] at hy
    exact absurd hy (by decide)
  unfold getsCmd
  have hw : walk P storedAssigned 256 0 0 = .ok (10, 1) := walk_leaf (b := false) readBit_stored hl
  have hr : BitVec.ofNat 64 (storedAssigned.rpos.toNat + 1) = 1 := by decide
  rw [if_neg (by decide), hw]
  simp only [ok_bind, hr]

theorem decodeCmd_stored : ∃ t, decodeCmd P stored = .ok t := by
  unfold decodeCmd
  rw [parseCmd_stored, ok_bind, assignCmd_stored, ok_bind]
  rw [show storedAssigned.width.toNat * storedAssigned.height.toNat * storedAssigned.layout.toNat = 1 from by decide,
    getImage_succ, show getImage P 0 storedAssigned = .ok storedAssigned from rfl, ok_bind, getsCmd_stored, ok_bind]
  exact ⟨_, rfl⟩

/-! #### The witnesses -/

/-- `DecodeOfEncodeIsTheCommand`. -/
theorem test_hyps_decodeOfEncode : (Instr.putb 32).wellFormed = true ∧ (Instr.acc 255).wellFormed = true := by decide

/-- `EncodeOfDecodedWordIsTheWord`, `StepRunsTheDecodedCommand`: the greatest legal operands; the upper half of the
value written does not count. -/
theorem test_hyps_stepRuns : decodeWord 0x41000020 = .ok (.putb 32) ∧
    (before (.regWrite 1 0xFFFFFFFF41000020) sample).busy = false ∧
    (before (.regWrite 1 0xFFFFFFFF41000020) sample).script = .regWrite 1 0xFFFFFFFF41000020 :: [] ∧
    decodeWord ((0xFFFFFFFF41000020 : BitVec 64).setWidth 32) = .ok (.putb 32) := by decide +kernel

/-- `IllegalWordsRaiseIllegalCommand`, and `StepRunsTheDecodedCommand` on an illegal word. -/
theorem test_hyps_illegalWords : decodeWord 0x41000021 = .error .operandRange ∧
    (before (.regWrite 1 0x41000021) sample).busy = false ∧
    (before (.regWrite 1 0x41000021) sample).script = .regWrite 1 0x41000021 :: [] ∧
    decodeWord ((0x41000021 : BitVec 64).setWidth 32) = .error .operandRange := by decide +kernel

/-- `StepAnswersUnlessOutsideAMemory`: each of its three cases happens. -/
theorem test_hyps_stepAnswers : sample.busy = false ∧ sample.script = [] ∧
    (before (.regRead 16) sample).script = .regRead 16 :: [] ∧
    P.memSize .pix ≤ P.maxSamples ∧
    (before (.memRead .pix P.maxSamples) sample).script = .memRead .pix P.maxSamples :: [] :=
  ⟨rfl, rfl, rfl, Nat.le_refl _, rfl⟩

/-- `HostRegisterAccess`: the last register, the first number above, a read-write and a read-only one. -/
theorem test_hyps_hostRegister : (before (.regRead 15) sample).busy = false ∧
    (before (.regRead 15) sample).script = .regRead 15 :: [] ∧
    (before (.regRead 16) sample).script = .regRead 16 :: [] ∧ (13 : Nat) ≠ 1 ∧
    (before (.regWrite 13 (2 ^ 64 - 1)) sample).script = .regWrite 13 (2 ^ 64 - 1) :: [] ∧
    (before (.regWrite 15 7) sample).script = .regWrite 15 7 :: [] := by decide +kernel

/-- `HostTableAccess`: the last index, the first above, an event that is neither command nor reset. -/
theorem test_hyps_hostTable : (before (.tblRead .len 255) sample).busy = false ∧
    (before (.tblRead .len 255) sample).script = .tblRead .len 255 :: [] ∧ (255 : Sym).toNat = 255 ∧
    (before (.tblRead .code 256) sample).script = .tblRead .code 256 :: [] ∧
    (∀ v, Event.regWrite 3 1 ≠ .regWrite 1 v) ∧ Event.regWrite 3 1 ≠ .reset ∧
    ∃ t, step (before (.regWrite 3 1) sample) = .next t :=
  ⟨rfl, rfl, rfl, rfl, (fun v h => by cases h), (fun h => by cases h), ⟨_, rfl⟩⟩

/-- `HostMemoryAccess`: the last address of each memory and the first outside. -/
theorem test_hyps_hostMemory : sample.busy = false ∧ P.maxSamples - 1 < P.memSize .pix ∧
    (before (.memRead .pix (P.maxSamples - 1)) sample).script = .memRead .pix (P.maxSamples - 1) :: [] ∧
    P.conCap - 1 < P.memSize .con ∧
    (before (.memWrite .con (P.conCap - 1) 7) sample).script = .memWrite .con (P.conCap - 1) 7 :: [] ∧
    P.memSize .con ≤ P.conCap ∧
    (before (.memRead .con P.conCap) sample).script = .memRead .con P.conCap :: [] := by
  have := one_le_max
  have := cap_ge
  refine ⟨rfl, ?_, rfl, ?_, rfl, Nat.le_refl _, rfl⟩
  · change P.maxSamples - 1 < P.maxSamples; omega
  · change P.conCap - 1 < P.conCap; omega

/-- `ResetClearsRegistersAndTables`: also in a state marked busy. -/
theorem test_hyps_reset : (before .reset { coded with busy := true }).script = .reset :: [] := rfl

/-- `FailedCommandChangesOnlyErr`. -/
theorem test_hyps_failed : ∃ t, exec .build sample = .next t ∧ t.err ≠ 0 :=
  ⟨{ sample with err := 1 }, rfl, by decide⟩

/-- `ErrorKindsOfEachCommand`, `CommandsChangeOnlyTheirColumns`. -/
theorem test_hyps_kinds : Instr.build.wellFormed = true ∧ ∃ t, exec .build coded = .next t := ⟨rfl, _, rfl⟩

/-- `StepKeepsTheInvariants`: a state with a valid code, counts and a command to come. -/
theorem test_hyps_invariants : ∃ s t, Inv P s ∧ step s = .next t ∧ s.cv = true ∧ s.total ≠ 0 := by
  refine ⟨before (.regWrite 1 0) { coded with pix := [] }, _, ?_, rfl, rfl, by decide⟩
  constructor
  · have h := one_le_max
    refine ⟨?_, h⟩
    change 1 = sumSyms (freqOf coded)
    rw [freqOf_coded_fun]; decide +kernel
  · intro j _
    simp [before, coded, sample, State.reset]
  · exact codeOk_coded
  · exact Nat.zero_le _
  · exact ⟨Memory.wf_nil, Memory.wf_nil⟩
  · exact ⟨rfl, by decide⟩

/-- `StepKeepsTheMemoriesCanonical`. -/
theorem test_hyps_canonical : ∃ s t, MemOk P s ∧ step s = .next t :=
  ⟨before (.memWrite .con 0 7) State.reset, _, ⟨Memory.wf_nil, Memory.wf_nil⟩, by
    rw [step_cons rfl, perform_idle rfl, performIdle_memWrite]
    have := cap_ge
    change 0 < P.conCap; omega⟩

/-- `ValidCodeIsBounded`: with `CV` set. -/
theorem test_hyps_codeOk : CodeOk coded ∧ coded.cv = true := ⟨codeOk_coded, rfl⟩

/-- A block with one valid bit, a 1, to read at the last byte of a stream. -/
def oneBit : State := { State.reset with con := [(0, 0x80)], rvalid := 1 }

theorem getbCmd_oneBit : ∃ t, getbCmd P oneBit = .ok t := by
  unfold getbCmd
  rw [show readBit P oneBit oneBit.rpos.toNat = .ok true from
    readBit_ok.2 ⟨by decide, by have := cap_ge; change 0 < P.conCap; omega, rfl⟩, ok_bind]
  exact ⟨_, rfl⟩

/-- `ReaderCursorStaysInsideTheStream`, for each of its four commands. -/
theorem test_hyps_readerCursor :
    (∃ t, Instr.getb ∈ [Instr.getb, .gets, .parse, .decode] ∧ exec .getb oneBit = .next t ∧ t.err = 0) ∧
    (∃ t, exec .gets storedAssigned = .next t ∧ t.err = 0) ∧ (∃ t, exec .parse stored = .next t ∧ t.err = 0) ∧
    ∃ t, exec .decode stored = .next t ∧ t.err = 0 := by
  obtain ⟨t, ht⟩ := getbCmd_oneBit
  obtain ⟨u, hu⟩ := decodeCmd_stored
  exact ⟨⟨_, by decide, exec_of_ok ht, rfl⟩, ⟨_, exec_of_ok getsCmd_stored, rfl⟩, ⟨_, exec_of_ok parseCmd_stored, rfl⟩,
    _, exec_of_ok hu, rfl⟩

/-- A block at the bound of `ACC`. -/
def full : State :=
  { State.reset with
    freq := tableSet (tableZero 32) 10 (BitVec.ofNat 32 P.maxSamples), total := BitVec.ofNat 32 P.maxSamples }

theorem full_total : full.total.toNat = P.maxSamples := by
  have := max_lt
  simp only [full, BitVec.toNat_ofNat]
  exact Nat.mod_eq_of_lt this

/-- `AccCountsOneSymbol`: below the bound and at it. -/
theorem test_hyps_acc : (CountsOk P State.reset ∧ State.reset.total.toNat ≠ P.maxSamples) ∧
    CountsOk P full ∧ full.total.toNat = P.maxSamples := by
  have h1 := one_le_max
  refine ⟨⟨⟨?_, Nat.zero_le _⟩, ?_⟩, ⟨?_, by rw [full_total]⟩, full_total⟩
  · decide +kernel
  · change 0 ≠ P.maxSamples; omega
  · rw [full_total]
    have hf : ∀ y, freqOf full y = if (10 : Sym) = y then 0 + P.maxSamples else 0 := fun y => by
      simp only [freqOf, full, tableGet_tableSet]
      split
      · rw [BitVec.toNat_ofNat, Nat.mod_eq_of_lt max_lt, Nat.zero_add]
      · simp
    rw [sumSyms_congr hf, sumSyms_bump (fun _ => 0) 10, sumSyms_zero, Nat.zero_add]

/-- `AccSequenceCountsItsSymbols`. -/
theorem test_hyps_accSequence : ([10] : List Sym).length ≤ P.maxSamples := one_le_max

/-- `StatCountsTheImage`: its four clauses. -/
theorem test_hyps_stat :
    (legalLayout sample.layout.toNat ∧ sampleTotal sample ≤ P.maxSamples ∧ sampleTotal sample ≠ 0) ∧
    ¬ legalLayout ({ sample with layout := 2 } : State).layout.toNat ∧
    (legalLayout ({ sample with width := 0xFFFFFFFF, layout := 3 } : State).layout.toNat ∧
      sampleTotal { sample with width := 0xFFFFFFFF, layout := 3 } > P.maxSamples) ∧
    (legalLayout ({ sample with height := 0, layout := 4 } : State).layout.toNat ∧
      sampleTotal { sample with height := 0, layout := 4 } = 0) := by
  have := max_lt
  refine ⟨⟨.inl rfl, one_le_max, by decide⟩, by decide, ⟨by decide, ?_⟩, by decide, by decide⟩
  change 0xFFFFFFFF * 1 * 3 > P.maxSamples
  omega

/-- `BuildWritesHuffmanLengths`: both clauses. -/
theorem test_hyps_build : coded.total ≠ 0 ∧ sample.total = 0 := by decide +kernel

/-- `HuffmanTreeShape`, `HuffmanLengthBounds`, `HuffmanKraftSum`, `HuffmanLengthsCountMerges`,
`FrequentSymbolsAreNotLonger`: one symbol, two and more, a symbol more frequent than another. -/
theorem test_hyps_huffman : presentSyms single ≠ [] ∧ (single 10 ≠ 0 ∧ (presentSyms single).length = 1) ∧
    (presentSyms triple).length ≥ 2 ∧ triple 10 ≠ 0 ∧ triple 10 < triple 30 := by decide +kernel

/-- `HuffmanTreeShape`: its last merge, and a symbol under the root. -/
theorem test_hyps_treeShape : presentSyms triple ≠ [] ∧ 1 + 1 < (presentSyms triple).length ∧
    rootPool triple = [{ weight := 5, index := 4, tree := .node (.leaf 30) (.node (.leaf 10) (.leaf 20)) }] ∧
    (20, 2) ∈ leafDepths (.node (.leaf 30) (.node (.leaf 10) (.leaf 20))) 0 := by decide +kernel

/-- `AssignWritesCanonicalCodes`: its three clauses, at the greatest admitted length and at Kraft sums 1 and above. -/
theorem test_hyps_assign :
    ((∀ x, lenOf { State.reset with len := tableSet (tableZero 8) 0 32 } x ≤ 32) ∧
      kraftSum (lenOf { State.reset with len := tableSet (tableZero 8) 0 32 }) ≤ 2 ^ 32) ∧
    (∃ x, lenOf { State.reset with len := tableSet (tableZero 8) 255 33 } x > 32) ∧
    ((∀ x, lenOf { State.reset with len := tableOf fun _ => 1 } x ≤ 32) ∧
      kraftSum (lenOf { State.reset with len := tableOf fun _ => 1 }) > 2 ^ 32) := by
  refine ⟨⟨fun x => ?_, by decide +kernel⟩, ⟨255, by decide +kernel⟩, fun x => ?_, by decide +kernel⟩
  · simp only [lenOf, tableGet_tableSet]
    split <;> simp
  · simp [lenOf]

/-- `CanonicalCodesAreConsecutive`, `CanonicalCodesFit`, `CanonicalCodeIsAPrefixCode`: a complete code of three symbols,
two of one length, one first. -/
theorem test_hyps_canonicalCode : canonOrder triple = [10, 20, 30] ∧ triple 0 = 0 ∧ (∀ x, triple x ≤ 32) ∧
    kraftSum triple ≤ 2 ^ 32 ∧ triple 20 ≠ 0 ∧ triple 30 ≠ 0 ∧ (20 : Sym) ≠ 30 ∧ triple 20 = triple 30 ∧
    triple 10 ≠ 0 ∧ triple 10 < triple 30 ∧
    ∀ z, triple z ≠ 0 → z = 10 ∨ triple 10 < triple z ∨ (triple 10 = triple z ∧ (10 : Sym).toNat < z.toNat) := by
  decide +kernel

/-- `PutbAppendsTheLowBits`: the longest pattern. -/
theorem test_hyps_putb : (32 : BitVec 6).toNat ≤ 32 ∧ sample.wfin = false ∧ PartialOk sample ∧
    sample.wbase.toNat + ceil8 (sample.wbits.toNat + (32 : BitVec 6).toNat) ≤ P.conCap :=
  ⟨by decide, rfl, fun j _ => by simp [sample, State.reset], by have := cap_ge; change 4 ≤ P.conCap; omega⟩

/-- `PutsAppendsTheCode`. -/
theorem test_hyps_puts : coded.cv = true ∧ lenOf coded 10 ≠ 0 ∧ coded.wfin = false ∧ PartialOk coded ∧
    coded.wbase.toNat + ceil8 (coded.wbits.toNat + lenOf coded 10) ≤ P.conCap :=
  ⟨rfl, by rw [lenOf_coded]; decide, rfl, fun j _ => by simp [coded, sample, State.reset], by
    rw [lenOf_coded]; have := cap_ge; change 1 ≤ P.conCap; omega⟩

/-- `WriterRefusals`: each of its clauses. -/
theorem test_hyps_writerRefusals : (33 : BitVec 6).toNat > 32 ∧
    ((0 : BitVec 6).toNat ≤ 32 ∧ ({ sample with wfin := true } : State).wfin = true) ∧
    (({ sample with wbase := 0xFFFFFFFFFFFFFFFF } : State).wbase.toNat +
      ceil8 (({ sample with wbase := 0xFFFFFFFFFFFFFFFF } : State).wbits.toNat + (1 : BitVec 6).toNat) > P.conCap) ∧
    sample.cv = false ∧ lenOf coded 11 = 0 ∧
    (({ sample with wbase := 0xFFFFFFFFFFFFFFFF, wbits := 1 } : State).wbits.toNat % 8 ≠ 0 ∧
      ({ sample with wbase := 0xFFFFFFFFFFFFFFFF, wbits := 1 } : State).wbase.toNat +
        ({ sample with wbase := 0xFFFFFFFFFFFFFFFF, wbits := 1 } : State).wbits.toNat / 8 ≥ P.conCap) := by
  have hm := max_lt
  have hc := conCap_eq P
  refine ⟨by decide, ⟨by decide, rfl⟩, ?_, rfl, by rw [lenOf_coded]; decide, by decide, ?_⟩
  · change 0xFFFFFFFFFFFFFFFF + 1 > P.conCap; omega
  · change 0xFFFFFFFFFFFFFFFF + 0 ≥ P.conCap; omega

/-- `FinStoresThePartialByte`: both clauses. -/
theorem test_hyps_fin : (sample.wfin = false ∧ sample.wbits.toNat % 8 = 0) ∧
    (({ sample with wbits := 7 } : State).wbits.toNat % 8 ≠ 0 ∧
      ({ sample with wbits := 7 } : State).wbase.toNat + ({ sample with wbits := 7 } : State).wbits.toNat / 8 < P.conCap) :=
  ⟨⟨rfl, rfl⟩, by decide, by have := cap_ge; change 0 < P.conCap; omega⟩

theorem of_gives {r : Except ErrKind State} {f : State → Bool} (h : gives r f = true) : ∃ t, r = .ok t := by
  cases r with
  | ok t => exact ⟨t, rfl⟩
  | error k => nomatch h

/-- `WriterStreamIsTheConcatenation`: eleven bits, so one full byte and a partial one. -/
theorem test_hyps_writerStream : ∃ t u, appendAll block [(5, 3), (0, 0), (255, 8)] (writerInit State.reset) = .ok t ∧
    finCmd block t = .ok u := by
  obtain ⟨u, hu⟩ := of_gives (f := fun _ => true)
    (show gives ((appendAll block [(5, 3), (0, 0), (255, 8)] (writerInit State.reset)).bind (finCmd block)) _ = true by
      decide +kernel)
  obtain ⟨t, ht, hu⟩ := bind_eq_ok.1 hu
  exact ⟨t, u, ht, hu⟩

/-- `GetbReadsOneBit`: its three clauses. -/
theorem test_hyps_getb :
    (oneBit.rpos.toNat < oneBit.rvalid.toNat ∧ oneBit.rbase.toNat + oneBit.rpos.toNat / 8 < P.conCap) ∧
    ({ oneBit with rpos := 1 } : State).rpos.toNat ≥ ({ oneBit with rpos := 1 } : State).rvalid.toNat ∧
    (({ oneBit with rbase := 0xFFFFFFFFFFFFFFFF } : State).rpos.toNat <
        ({ oneBit with rbase := 0xFFFFFFFFFFFFFFFF } : State).rvalid.toNat ∧
      ({ oneBit with rbase := 0xFFFFFFFFFFFFFFFF } : State).rbase.toNat +
        ({ oneBit with rbase := 0xFFFFFFFFFFFFFFFF } : State).rpos.toNat / 8 ≥ P.conCap) := by
  have hm := max_lt
  have hc := conCap_eq P
  refine ⟨⟨by decide, ?_⟩, by decide, by decide, ?_⟩
  · have := cap_ge; change 0 < P.conCap; omega
  · change 0xFFFFFFFFFFFFFFFF + 0 ≥ P.conCap; omega

/-- `GetsReadsOneSymbol`. -/
theorem test_hyps_gets : CodeOk storedAssigned ∧ storedAssigned.cv = true ∧ lenOf storedAssigned 10 ≠ 0 ∧
    ∀ j, j < lenOf storedAssigned 10 → storedAssigned.rpos.toNat + j < storedAssigned.rvalid.toNat ∧
      readerAddr storedAssigned (storedAssigned.rpos.toNat + j) < P.conCap ∧
      conBit P storedAssigned storedAssigned.rbase.toNat (storedAssigned.rpos.toNat + j) =
        (codeOf storedAssigned 10).testBit (lenOf storedAssigned 10 - 1 - j) := by
  have hl : lenOf storedAssigned 10 = 1 := by rw [lenOf_storedAssigned]; rfl
  refine ⟨codeOk_storedAssigned, rfl, by rw [hl]; decide, fun j hj => ?_⟩
  obtain rfl : j = 0 := by omega
  rw [hl, codeOf_storedAssigned]
  exact ⟨by decide, by have := cap_ge; change 25 < P.conCap; omega, rfl⟩

/-- The one-symbol code with a stream whose first bit is 1. -/
def dead : State := { coded with con := [(0, 0x80)], rvalid := 1 }

/-- `GetsRefusals` after no bit: no valid code; no valid bit; a bit outside `CON`; a bit that leads nowhere. -/
theorem test_hyps_getsRefusals : sample.cv = false ∧
    (coded.cv = true ∧ coded.rpos.toNat + 0 ≥ coded.rvalid.toNat) ∧
    (({ dead with rbase := 0xFFFFFFFFFFFFFFFF } : State).rpos.toNat + 0 < ({ dead with rbase := 0xFFFFFFFFFFFFFFFF } : State).rvalid.toNat ∧
      readerAddr { dead with rbase := 0xFFFFFFFFFFFFFFFF } (({ dead with rbase := 0xFFFFFFFFFFFFFFFF } : State).rpos.toNat + 0) ≥ P.conCap) ∧
    (dead.cv = true ∧ dead.rpos.toNat + 0 < dead.rvalid.toNat ∧ readerAddr dead (dead.rpos.toNat + 0) < P.conCap ∧
      (∀ x, ¬ (lenOf dead x = 0 + 1 ∧ codeOf dead x = nodeValue P dead (0 + 1))) ∧
      ∀ x, lenOf dead x > 0 + 1 → codeOf dead x / 2 ^ (lenOf dead x - (0 + 1)) ≠ nodeValue P dead (0 + 1)) := by
  have hm := max_lt
  have hc := conCap_eq P
  have hl : lenOf dead = single := (lenOf_congr (by simp only [dead])).trans lenOf_coded_fun
  have hcode : codeOf dead = codeOf coded := codeOf_congr (by simp only [dead])
  have hn : nodeValue P dead (0 + 1) = 1 := rfl
  refine ⟨rfl, ⟨rfl, by decide⟩, ⟨by decide, ?_⟩, rfl, by decide, ?_, fun x => ?_, fun x => ?_⟩
  · change 0xFFFFFFFFFFFFFFFF + 0 ≥ P.conCap; omega
  · change 0 < P.conCap; omega
  · rw [hcode, codeOf_coded, hn]; omega
  · rw [hl]; unfold single; split <;> omega

/-- `GetsRefusals` after one bit: `1` leads to an inner node of the code 0, 10, 11. -/
theorem test_hyps_getsRefusals_inner :
    ∃ s : State, s.cv = true ∧ (∀ k, k < 1 → s.rpos.toNat + k < s.rvalid.toNat ∧
        readerAddr s (s.rpos.toNat + k) < P.conCap) ∧
      (∀ k, 1 ≤ k → k ≤ 1 → (∀ x, ¬ (lenOf s x = k ∧ codeOf s x = nodeValue P s k)) ∧
        ∃ x, lenOf s x > k ∧ codeOf s x / 2 ^ (lenOf s x - k) = nodeValue P s k) ∧
      s.rpos.toNat + 1 ≥ s.rvalid.toNat := by
  refine ⟨{ assigned with con := [(0, 0x80)], rvalid := 1 }, rfl, fun k hk => ?_, fun k h1 h2 => ?_, by decide⟩
  · obtain rfl : k = 0 := by omega
    exact ⟨by decide, by have := cap_ge; change 0 < P.conCap; omega⟩
  · obtain rfl : k = 1 := by omega
    rw [show nodeValue P { assigned with con := [(0, 0x80)], rvalid := 1 } 1 = 1 from rfl]
    exact ⟨by decide +kernel, ⟨30, by decide +kernel⟩⟩

/-- `ReaderReturnsWhatWasWritten`: the four symbols of 44 R194's example. -/
theorem test_hyps_readerReturns : ∃ s t u, CodeOk s ∧ s.cv = true ∧
    putAll block [10, 10, 20, 30] (writerInit s) = .ok t ∧ finCmd block t = .ok u := by
  obtain ⟨u, hu⟩ := of_gives (f := fun _ => true)
    (show gives ((putAll block [10, 10, 20, 30] (writerInit assigned)).bind (finCmd block)) _ = true by decide +kernel)
  obtain ⟨t, ht, hu⟩ := bind_eq_ok.1 hu
  have hl : lenOf assigned = triple := by funext x; revert x; decide +kernel
  have hc : codeOf assigned = canonicalCode triple := by funext x; revert x; decide +kernel
  refine ⟨assigned, t, u, fun _ => ?_, rfl, ht, hu⟩
  rw [hl, hc]
  exact ⟨by decide +kernel, by decide +kernel, fun _ => rfl⟩

/-- `WrhdrWritesTheHeader`. -/
theorem test_hyps_wrhdr : coded.cv = true ∧ legalLayout coded.layout.toNat ∧ sampleTotal coded ≤ P.maxSamples ∧
    coded.total ≠ 0 ∧ sampleTotal coded = coded.total.toNat ∧ ∀ x, freqOf coded x ≠ 0 ↔ lenOf coded x ≠ 0 :=
  ⟨rfl, .inl rfl, one_le_max, by decide, rfl, fun x => by rw [freqOf_coded, lenOf_coded]⟩

/-- `WrhdrResult`, `ParseResult`, `EncodeResult`, `DecodeErrorKinds`: their four commands have next states. -/
theorem test_hyps_results : (∃ t, exec .wrhdr sample = .next t) ∧ (∃ t, exec .parse stored = .next t) ∧
    (∃ t, exec .encode sample = .next t) ∧ ∃ t, exec .decode stored = .next t := by
  obtain ⟨u, hu⟩ := decodeCmd_stored
  exact ⟨⟨_, rfl⟩, ⟨_, exec_of_ok parseCmd_stored⟩, ⟨_, exec_encode_sample⟩, _, exec_of_ok hu⟩

/-- An empty image whose one symbol has a length of 33. -/
def tooLong : State :=
  { State.reset with
    conlen := 25
    con := cells 0 [0x48, 0x55, 0x46, 0x31, 0, 0, 0, 0, 0, 0, 0, 0, 1, 1, 0, 10, 33, 0, 0, 0, 0, 0, 0, 0, 0] }

/-- After `PARSE` of it. -/
def tooLongParsed : State := { tooLong with layout := 1, len := tableSet (tableZero 8) 10 33, rbase := 25 }

theorem parseCmd_tooLong : parseCmd P tooLong = .ok tooLongParsed := by
  have hcap := cap_ge
  have hs : sampleCount P (hdrWidth P tooLong) (hdrHeight P tooLong) (hdrLayout P tooLong) = .ok 0 :=
    sampleCount_ok.2 ⟨.inl rfl, Nat.zero_le _, rfl⟩
  have hn : hdrCount P tooLong = 1 := rfl
  unfold parseCmd
  rw [if_neg (by change ¬ 25 > P.conCap; omega), if_neg (by decide +kernel), if_neg (by decide), hs, ok_bind, hn,
    if_neg (by decide), if_neg (by decide), if_neg (by decide)]
  rfl

theorem assignCmd_tooLong : assignCmd { tooLongParsed with err := 0 } = .error .codeLengthOverflow := by
  unfold assignCmd
  rw [if_pos (someSym_iff.2 ⟨10, by decide +kernel⟩)]

/-- An image of one sample whose container has no valid bit. -/
def noBits : State :=
  { State.reset with
    conlen := 25
    con := cells 0 [0x48, 0x55, 0x46, 0x31, 1, 0, 0, 0, 1, 0, 0, 0, 1, 1, 0, 10, 1, 0, 0, 0, 0, 0, 0, 0, 0] }

/-- After `PARSE` of it. -/
def noBitsParsed : State :=
  { noBits with width := 1, height := 1, layout := 1, len := tableSet (tableZero 8) 10 1, rbase := 25 }

theorem parseCmd_noBits : parseCmd P noBits = .ok noBitsParsed := by
  have hcap := cap_ge
  have hs : sampleCount P (hdrWidth P noBits) (hdrHeight P noBits) (hdrLayout P noBits) = .ok 1 :=
    sampleCount_ok.2 ⟨.inl rfl, one_le_max, rfl⟩
  have hn : hdrCount P noBits = 1 := rfl
  unfold parseCmd
  rw [if_neg (by change ¬ 25 > P.conCap; omega), if_neg (by decide +kernel), if_neg (by decide), hs, ok_bind, hn,
    if_neg (by decide), if_neg (by decide), if_neg (by decide)]
  rfl

/-- After `ASSIGN` too. -/
def noBitsAssigned : State := { noBitsParsed with code := tableOf fun _ => 0#32, cv := true }

theorem assignCmd_noBits : assignCmd noBitsParsed = .ok noBitsAssigned := by
  have hl : lenOf noBitsParsed = single := (lenOf_congr (by simp only [noBitsParsed, coded])).trans lenOf_coded_fun
  unfold assignCmd
  rw [hl, if_neg, if_neg (by decide +kernel)]
  · rw [codes_single]; simp only [noBitsAssigned]
  · decide +kernel

theorem getsCmd_noBits : getsCmd P noBitsAssigned = .error .truncatedStream := by
  unfold getsCmd
  rw [if_neg (by decide), walk_stop (readBit_error.2 (.inl ⟨by decide, rfl⟩))]
  rfl

/-- `DecodeErrorKinds`: `PARSE` fails; `ASSIGN` fails; the `GETS` of sample 0 fails; none of them fails. -/
theorem test_hyps_decodeResult :
    (∃ u, exec .parse sample = .next u ∧ u.err ≠ 0) ∧
    (∃ u v, exec .parse tooLong = .next u ∧ exec .assign u = .next v ∧ u.err = 0 ∧ v.err ≠ 0) ∧
    (∃ u v x, exec .parse noBits = .next u ∧ exec .assign u = .next v ∧ u.err = 0 ∧ v.err = 0 ∧
      0 < sampleTotal v ∧ getAll P 0 v = .ok ([], v) ∧ exec .gets v = .next x ∧ x.err ≠ 0) ∧
    ∃ u v w, exec .parse stored = .next u ∧ exec .assign u = .next v ∧ u.err = 0 ∧ v.err = 0 ∧
      getAll P (sampleTotal v) v = .ok ([10], w) := by
  have hcap := cap_ge
  have h1 : parseCmd P sample = .error .formatMismatch := by
    unfold parseCmd
    rw [if_neg (by change ¬ 0 > P.conCap; omega), if_pos (.inl (by decide))]
  have h2 : ({ noBitsParsed with err := 0 } : State) = noBitsParsed := by simp only [noBitsParsed, noBits, State.reset]
  have h3 : ({ noBitsAssigned with err := 0 } : State) = noBitsAssigned := by
    simp only [noBitsAssigned, noBitsParsed, noBits, State.reset]
  have h4 : ({ storedParsed with err := 0 } : State) = storedParsed := by simp only [storedParsed, stored, State.reset]
  have h5 : ({ storedAssigned with err := 0 } : State) = storedAssigned := by
    simp only [storedAssigned, storedParsed, stored, State.reset]
  have n1 : exec .parse noBits = .next noBitsParsed := by rw [← h2]; exact exec_of_ok parseCmd_noBits
  have n2 : exec .assign noBitsParsed = .next noBitsAssigned := by rw [← h3]; exact exec_of_ok assignCmd_noBits
  have s1 : exec .parse stored = .next storedParsed := by rw [← h4]; exact exec_of_ok parseCmd_stored
  have s2 : exec .assign storedParsed = .next storedAssigned := by rw [← h5]; exact exec_of_ok assignCmd_stored
  refine ⟨⟨_, exec_of_error h1, raise_err_ne_zero _ _⟩,
    ⟨_, _, exec_of_ok parseCmd_tooLong, exec_of_error assignCmd_tooLong, rfl, raise_err_ne_zero _ _⟩,
    ⟨_, _, _, n1, n2, by decide, by decide, by decide, rfl, exec_of_error getsCmd_noBits, raise_err_ne_zero _ _⟩,
    _, _, { storedAssigned with rdata := 10, rpos := 1 }, s1, s2, by decide, by decide, ?_⟩
  have ht : sampleTotal storedAssigned = 1 := by decide
  rw [ht]
  simp only [getAll, getsCmd_stored, ok_bind]

/-- `ParseLoadsTheHeader`. -/
theorem test_hyps_parse : HoldsHeader P stored single := holdsHeader_stored

/-- `ParseAcceptsOnlyHeaders`. -/
theorem test_hyps_parseAccepts : ∃ t, exec .parse stored = .next t ∧ t.err = 0 := ⟨_, exec_of_ok parseCmd_stored, rfl⟩

/-- `EncodeMakesTheContainer`, `DecodeAfterEncodeRestoresTheImage` (its first part). -/
theorem test_hyps_encode : legalLayout sample.layout.toNat ∧ 1 ≤ sampleTotal sample ∧
    sampleTotal sample ≤ P.maxSamples ∧ ∀ x, huffmanLengths (pixCount P sample (sampleTotal sample)) x ≤ 32 :=
  ⟨.inl rfl, Nat.le_refl 1, one_le_max, depth_sample⟩

/-- `EncodeIsItsMicroCommands`, `MicroFlowMakesTheSameContainer`: the symbols in their own order. -/
theorem test_hyps_micro : ∃ t, exec .encode sample = .next t ∧ t.err = 0 ∧
    ([10] : List Sym).Perm (pixels P sample (sampleTotal sample)) :=
  ⟨_, exec_encode_sample, rfl, List.Perm.refl _⟩

/-- `DecodeReadsTheContainer`. -/
theorem test_hyps_decode : HoldsContainer P stored single [10] := holdsContainer_stored

/-- `DecodeAfterEncodeRestoresTheImage` (its second part), with the very state `ENCODE` left. -/
theorem test_hyps_roundTrip : ∃ t r : State, exec .encode sample = .next t ∧ t.err = 0 ∧ r.conlen = t.conlen ∧
    ∀ a, a < t.conlen.toNat → conByte P r a = conByte P t a :=
  ⟨_, _, exec_encode_sample, rfl, rfl, fun _ _ => rfl⟩

/-- `EncodeDependsOnTheImageOnly`: two states that differ outside the image, with a successful `ENCODE`. -/
theorem test_hyps_encodeDepends : ∃ s' t t' : State, s' ≠ sample ∧ sample.width = s'.width ∧
    sample.height = s'.height ∧ sample.layout = s'.layout ∧
    pixels P sample (sampleTotal sample) = pixels P s' (sampleTotal sample) ∧
    exec .encode sample = .next t ∧ exec .encode s' = .next t' ∧ t.err = 0 := by
  have h : ∃ t', exec .encode { sample with rdata := 1 } = .next t' := by
    rcases exec_cases .encode { sample with rdata := 1 } with ⟨_, _, h⟩ | ⟨_, _, h⟩ <;> exact ⟨_, h⟩
  obtain ⟨t', h'⟩ := h
  exact ⟨{ sample with rdata := 1 }, _, t', fun h => absurd (congrArg State.rdata h) (by decide), rfl, rfl, rfl, rfl,
    exec_encode_sample, h', rfl⟩

/-- `DecodeDependsOnTheContainerOnly`: likewise. -/
theorem test_hyps_decodeDepends : ∃ s' t t' : State, s' ≠ stored ∧ stored.conlen = s'.conlen ∧
    (∀ a, a < stored.conlen.toNat → conByte P stored a = conByte P s' a) ∧
    exec .decode stored = .next t ∧ exec .decode s' = .next t' ∧ t.err = 0 := by
  obtain ⟨u, hu⟩ := decodeCmd_stored
  have h : ∃ t', exec .decode { stored with width := 7 } = .next t' := by
    rcases exec_cases .decode { stored with width := 7 } with ⟨_, _, h⟩ | ⟨_, _, h⟩ <;> exact ⟨_, h⟩
  obtain ⟨t', h'⟩ := h
  exact ⟨{ stored with width := 7 }, _, t', fun h => absurd (congrArg State.width h) (by decide), rfl,
    fun _ _ => rfl, exec_of_ok hu, h', rfl⟩

/-- `TruncatedContainerIsRefused`: the longest cut into the header, and the shortest that leaves it whole. -/
theorem test_hyps_truncated : ∃ t, exec .encode sample = .next t ∧ t.err = 0 ∧
    (24 < t.conlen.toNat ∧ 24 < t.wbase.toNat) ∧ 25 < t.conlen.toNat ∧ ¬ 25 < t.wbase.toNat := by
  refine ⟨_, exec_encode_sample, rfl, ?_⟩
  simp only [sampleDone_conlen, sampleDone_wbase]
  decide

/-- `SingleSymbolImage`. -/
theorem test_hyps_singleSymbol : legalLayout sample.layout.toNat ∧ 1 ≤ sampleTotal sample ∧
    sampleTotal sample ≤ P.maxSamples ∧ ∀ i, i < sampleTotal sample → pixByte P sample i = 10 :=
  ⟨.inl rfl, Nat.le_refl 1, one_le_max, fun i hi => by
    obtain rfl : i = 0 := Nat.lt_one_iff.1 hi
    rfl⟩

/-- `UniformImagesAreSmallest`: an image of two symbols; an image of one. -/
theorem test_hyps_uniform :
    (∃ t, encodeCmd block image = .ok t ∧
      ∃ i j, i < sampleTotal image ∧ j < sampleTotal image ∧ pixByte block image i ≠ pixByte block image j) ∧
    ∃ t, encodeCmd P sample = .ok t ∧
      ∀ i j, i < sampleTotal sample → j < sampleTotal sample → pixByte P sample i = pixByte P sample j := by
  refine ⟨?_, _, encodeCmd_sample, fun i j hi hj => ?_⟩
  · obtain ⟨t, ht⟩ := of_gives test_encode
    exact ⟨t, ht, 1, 2, by decide, by decide, by decide +kernel⟩
  · obtain rfl : i = 0 := Nat.lt_one_iff.1 hi
    obtain rfl : j = 0 := Nat.lt_one_iff.1 hj
    rfl

end Sys2Proof.Tests
end

/-! PROOFS of the family `10_state.md`: the block's registers, tables and memories as the host sees them, and the
invariants that every step keeps. -/

/-! ### Canonical codes fit their lengths (spec/43_canonical_assigner.md R173) -/

namespace Sys2Proof.Machine

variable {f : Sym → Nat}

/-- The Kraft terms of a list of symbols, each times `2^32`, added up (43 R173). -/
def kraftTerms (f : Sym → Nat) (l : List Sym) : Nat := (l.map fun y => 2 ^ (32 - f y)).sum

@[simp] theorem kraftTerms_nil : kraftTerms f [] = 0 := rfl

@[simp] theorem kraftTerms_cons (x : Sym) (l : List Sym) :
    kraftTerms f (x :: l) = 2 ^ (32 - f x) + kraftTerms f l := by simp [kraftTerms]

theorem kraftTerms_take_le (l : List Sym) (i : Nat) : kraftTerms f (l.take i) ≤ kraftTerms f l :=
  ((List.take_sublist i l).map _).sum_le_sum fun _ _ => Nat.zero_le _

theorem kraftTerms_take_succ {l : List Sym} {i : Nat} {x : Sym} (h : l[i]? = some x) :
    kraftTerms f (l.take (i + 1)) = kraftTerms f (l.take i) + 2 ^ (32 - f x) := by
  simp [kraftTerms, List.take_add_one, h]

/-- The Kraft sum runs over the symbols with a code only. -/
theorem kraftTerms_presentSyms (f : Sym → Nat) : kraftTerms f (presentSyms f) = kraftSum f := by
  have filtered : ∀ l : List Sym, kraftTerms f (l.filter fun x => f x ≠ 0) =
      (l.map fun x => if f x = 0 then 0 else 2 ^ (maxLen - f x)).sum := by
    intro l
    induction l with
    | nil => rfl
    | cons x xs ih => by_cases hx : f x = 0 <;> simp_all [maxLen]
  exact filtered allSyms

theorem kraftTerms_canonOrder (f : Sym → Nat) : kraftTerms f (canonOrder f) = kraftSum f := by
  rw [← kraftTerms_presentSyms]
  exact ((canonOrder_perm f).map _).sum_eq

theorem canonOrder_sorted (f : Sym → Nat) : (canonOrder f).Pairwise (canonBefore f) :=
  (foldr_canonInsert_sorted (presentSyms_nodup f)).1

/-- The code list pairs each symbol of the order with its canonical code. -/
theorem codeList_eq_map (f : Sym → Nat) : codeList f = (canonOrder f).map fun x => (x, canonicalCode f x) := by
  have paired : (codeList f).map (fun e => (e.1, canonicalCode f e.1)) = codeList f :=
    (List.map_congr_left (g := id) fun e he => by rw [canonicalCode_of_mem he]; rfl).trans (List.map_id _)
  rw [← codeList_keys, List.map_map]
  exact paired.symm

/-- A symbol without a length has code 0 (43 R172). -/
theorem canonicalCode_of_length_zero {x : Sym} (h : f x = 0) : canonicalCode f x = 0 := by
  have absent : x ∉ (codeList f).map Prod.fst := by
    rw [codeList_keys, (canonOrder_perm f).mem_iff, mem_presentSyms]
    exact not_not_intro h
  simp [canonicalCode, lookup_of_not_mem absent]

/-- One turn of the assigner, both codes padded to 32 bits: the padding of the next symbol undoes its shift. -/
theorem nextCode_padded {a b c : Nat} (hab : a ≤ b) (hb : b ≤ 32) :
    (c + 1) * 2 ^ (b - a) * 2 ^ (32 - b) = c * 2 ^ (32 - a) + 2 ^ (32 - a) := by
  rw [Nat.mul_assoc, ← Nat.pow_add, show b - a + (32 - b) = 32 - a by omega, Nat.succ_mul]

/-- Along a list sorted by length each code, padded to 32 bits, is the padded code it began from and the Kraft terms
of the symbols before it. -/
theorem codesAfter_padded (h32 : ∀ y, f y ≤ 32) {l : List Sym} {q : Sym} (hs : (q :: l).Pairwise (canonBefore f))
    {c i d : Nat} {x : Sym} (h : (codesAfter f q c l)[i]? = some (x, d)) :
    d * 2 ^ (32 - f x) = c * 2 ^ (32 - f q) + kraftTerms f ((q :: l).take (i + 1)) := by
  induction l generalizing q c i with
  | nil => simp [codesAfter] at h
  | cons y ys ih =>
    obtain ⟨hq, hys⟩ := List.pairwise_cons.1 hs
    have hqy : f q ≤ f y := by
      have := hq y List.mem_cons_self
      unfold canonBefore at this; omega
    have step := nextCode_padded (c := c) hqy (h32 y)
    cases i with
    | zero =>
      obtain ⟨rfl, rfl⟩ : y = x ∧ (c + 1) * 2 ^ (f y - f q) = d := by simpa [codesAfter] using h
      simpa using step
    | succ i =>
      rw [ih hys h, step, List.take_succ_cons (i := i + 1), kraftTerms_cons, Nat.add_assoc]

/-- 43 R173: padded to 32 bits, a canonical code is the sum of the Kraft terms before it in the order. -/
theorem canonicalCode_padded (h32 : ∀ y, f y ≤ 32) {i : Nat} {x : Sym} (h : (canonOrder f)[i]? = some x) :
    canonicalCode f x * 2 ^ (32 - f x) = kraftTerms f ((canonOrder f).take i) := by
  have listed : (codeList f)[i]? = some (x, canonicalCode f x) := by simp [codeList_eq_map, h]
  have sorted := canonOrder_sorted f
  unfold codeList at listed
  cases horder : canonOrder f with
  | nil => simp [horder] at h
  | cons q l =>
    rw [horder] at listed sorted
    cases i with
    | zero =>
      obtain ⟨rfl, hcode⟩ : q = x ∧ 0 = canonicalCode f x := by simpa using listed
      simp [← hcode]
    | succ i => simpa using codesAfter_padded h32 sorted listed

/-- 43 R173: a canonical code fits its length. -/
theorem canonicalCode_lt (h32 : ∀ y, f y ≤ 32) (hk : kraftSum f ≤ 2 ^ 32) {x : Sym} (hx : f x ≠ 0) :
    canonicalCode f x < 2 ^ f x := by
  obtain ⟨i, hi⟩ := List.mem_iff_getElem?.1 ((canonOrder_perm f).mem_iff.2 (mem_presentSyms.2 hx))
  have below : (canonicalCode f x + 1) * 2 ^ (32 - f x) ≤ 2 ^ f x * 2 ^ (32 - f x) := by
    calc (canonicalCode f x + 1) * 2 ^ (32 - f x)
        = kraftTerms f ((canonOrder f).take (i + 1)) := by
          rw [kraftTerms_take_succ hi, ← canonicalCode_padded h32 hi, Nat.succ_mul]
      _ ≤ kraftTerms f (canonOrder f) := kraftTerms_take_le _ _
      _ ≤ 2 ^ 32 := by rw [kraftTerms_canonOrder]; exact hk
      _ = 2 ^ f x * 2 ^ (32 - f x) := by rw [← Nat.pow_add, Nat.add_sub_cancel' (h32 x)]
  exact Nat.le_of_mul_le_mul_right below (Nat.two_pow_pos _)

/-- A canonical code fits the 32-bit entries of `CODE`, coded symbol or not (10 R45). -/
theorem canonicalCode_lt_word (h32 : ∀ y, f y ≤ 32) (hk : kraftSum f ≤ 2 ^ 32) (x : Sym) :
    canonicalCode f x < 2 ^ 32 := by
  by_cases hx : f x = 0
  · rw [canonicalCode_of_length_zero hx]; exact Nat.two_pow_pos _
  · exact (canonicalCode_lt h32 hk hx).trans_le (Nat.pow_le_pow_right Nat.two_pos (h32 x))

/-- Settles O19: what CV says of the code (R40) bounds it (R50(c)), for a canonical code fits its length (R173). -/
theorem validCodeIsBounded : Obligations.ValidCodeIsBounded := by
  intro s hs hcv
  obtain ⟨h32, hk, hcode⟩ := hs hcv
  refine ⟨h32, hk, fun x hx => ?_, fun x hx => ?_⟩
  · rw [hcode]; exact canonicalCode_lt h32 hk hx
  · rw [hcode]; exact canonicalCode_of_length_zero hx

end Sys2Proof.Machine

/-! ### What the host's actions do, and how an invariant is proved of every step -/

namespace Sys2Proof.Machine

variable {p : Params} {s t : State}

/-- Every read-write register after `RegWrite(n, v)`, `n` other than `CMD` (10 R24); nothing else changes. -/
theorem regStore_eq (s : State) (n : Nat) (v : BitVec 64) : regStore s n v = { s with
    width := if n = 3 then v.setWidth 32 else s.width
    height := if n = 4 then v.setWidth 32 else s.height
    layout := if n = 5 then v.setWidth 8 else s.layout
    conlen := if n = 6 then v else s.conlen
    wbase := if n = 8 then v else s.wbase
    wdata := if n = 11 then v.setWidth 32 else s.wdata
    rbase := if n = 12 then v else s.rbase
    rvalid := if n = 13 then v else s.rvalid } := by
  unfold regStore
  split <;> simp_all

/-- Everything an event can do to an idle block. -/
theorem performIdle_next {e : Event} (h : performIdle p e s = .next t) :
    (∃ v, t = hostTakes v s) ∨ (∃ n v, t = regStore s n v) ∨
      (∃ m a b, t = setMem p s m a b) ∨ (e = .reset ∧ t = resetBlock s) ∨
      ∃ v, e = .regWrite 1 v ∧ runCommand (commandWord v) s = .next t := by
  cases e with
  | regRead n => cases h; exact .inl ⟨_, rfl⟩
  | regWrite n v =>
    by_cases hn : n = 1
    · subst hn
      exact .inr (.inr (.inr (.inr ⟨v, rfl, h⟩)))
    · rw [performIdle_regWrite hn] at h
      cases h; exact .inr (.inl ⟨n, v, rfl⟩)
  | tblRead T i => cases h; exact .inl ⟨_, rfl⟩
  | memRead m a =>
    rcases Nat.lt_or_ge a (p.memSize m) with ha | ha
    · rw [performIdle_memRead ha] at h
      cases h; exact .inl ⟨_, rfl⟩
    · rw [performIdle_memRead_outside ha] at h
      nomatch h
  | memWrite m a b =>
    rcases Nat.lt_or_ge a (p.memSize m) with ha | ha
    · rw [performIdle_memWrite ha] at h
      cases h; exact .inr (.inr (.inl ⟨m, a, b, rfl⟩))
    · rw [performIdle_memWrite_outside ha] at h
      nomatch h
  | reset => cases h; exact .inr (.inr (.inr (.inl ⟨rfl, rfl⟩)))

/-- A busy block does nothing that an idle one would not do. -/
theorem perform_next {e : Event} (h : perform e s = .next t) : performIdle Config.params e s = .next t := by
  unfold perform at h
  split at h
  · nomatch h
  · exact h

/-- A write to `CMD` commits the success of a command or takes an error. -/
theorem runCommand_next {w : CmdWord} (h : runCommand w s = .next t) :
    (∃ i u, resultOf i s = .ok u ∧ t = { u with err := 0 }) ∨ ∃ k, t = raise k s := by
  rcases hd : decodeWord w with e | i
  · rw [runCommand_error hd] at h
    cases h; exact .inr ⟨_, rfl⟩
  · rw [runCommand_ok hd] at h
    rcases exec_cases i s with ⟨u, hu, he⟩ | ⟨k, -, he⟩
    · rw [he] at h; cases h; exact .inl ⟨i, u, hu, rfl⟩
    · rw [he] at h; cases h; exact .inr ⟨k, rfl⟩

/-- What a predicate needs to be kept by every step: each host action, a reset, a result code and each micro command
keeps it. `ENCODE` and `DECODE` are composed of these (00 R13). -/
structure KeptByMoves (I : State → Prop) : Prop where
  script : ∀ {s} es, I s → I { s with script := es }
  result : ∀ {s} (k : BitVec 4), k.toNat ≤ 7 → I s → I { s with err := k }
  takes : ∀ {s} v, I s → I (hostTakes v s)
  register : ∀ {s} n v, I s → I (regStore s n v)
  memory : ∀ {s} m a b, I s → I (setMem Config.params s m a b)
  reset : ∀ {s}, I s → I (resetBlock s)
  micro : ∀ {s t} i, i ≠ .decode → i ≠ .encode → I s → resultOf i s = .ok t → I t

namespace KeptByMoves

variable {I : State → Prop}

/-- The loop of `PUTS` in `ENCODE`. -/
theorem putImage (hI : KeptByMoves I) {n : Nat} (h : I s) (ht : putImage Config.params n s = .ok t) : I t :=
  loop_inv (I := fun _ => I) h
    (fun i c _ _ hc hd => hI.micro (.puts (pixByte Config.params c i)) nofun nofun hc hd) ht

/-- The loop of `GETS` and a store in `DECODE`. -/
theorem getImage (hI : KeptByMoves I) {n : Nat} (h : I s) (ht : getImage Config.params n s = .ok t) : I t := by
  refine loop_inv (I := fun _ => I) h (fun i c d _ hc hd => ?_) ht
  obtain ⟨u, hu, hd⟩ := bind_eq_ok.1 hd
  cases hd
  exact hI.memory .pix i u.rdata (hI.micro .gets nofun nofun hc hu)

theorem encode (hI : KeptByMoves I) (h : I s) (ht : encodeCmd Config.params s = .ok t) : I t := by
  obtain ⟨s1, s2, s3, s4, s5, h1, h2, h3, h4, h5, h6⟩ := encodeCmd_ok ht
  have i1 : I s1 := hI.micro .stat nofun nofun h h1
  have i2 : I s2 := hI.micro .build nofun nofun i1 h2
  have i3 : I s3 := hI.micro .assign nofun nofun i2 h3
  have i4 : I s4 := hI.micro .wrhdr nofun nofun i3 h4
  exact hI.micro .fin nofun nofun (hI.putImage i4 h5) h6

theorem decode (hI : KeptByMoves I) (h : I s) (ht : decodeCmd Config.params s = .ok t) : I t := by
  obtain ⟨s1, s2, h1, h2, h3⟩ := decodeCmd_ok ht
  have i1 : I s1 := hI.micro .parse nofun nofun h h1
  exact hI.getImage (hI.micro .assign nofun nofun i1 h2) h3

/-- Every successful command, composed or not. -/
theorem command (hI : KeptByMoves I) {i : Instr} (h : I s) (ht : resultOf i s = .ok t) : I t := by
  by_cases hd : i = .decode
  · subst hd; exact hI.decode h ht
  · by_cases he : i = .encode
    · subst he; exact hI.encode h ht
    · exact hI.micro i hd he h ht

theorem runCommand (hI : KeptByMoves I) {w : CmdWord} (h : I s) (ht : runCommand w s = .next t) : I t := by
  rcases runCommand_next ht with ⟨i, u, hu, rfl⟩ | ⟨k, rfl⟩
  · exact hI.result 0 (by decide) (hI.command h hu)
  · exact hI.result k.code (code_le k) h

/-- Every step keeps what every move keeps, busy block or not. -/
theorem step (hI : KeptByMoves I) (h : I s) (ht : step s = .next t) : I t := by
  cases hs : s.script with
  | nil => rw [step_idle hs] at ht; cases ht; exact h
  | cons e rest =>
    rw [step_cons hs] at ht
    have h' : I { s with script := rest } := hI.script rest h
    rcases performIdle_next (perform_next ht) with
      ⟨v, rfl⟩ | ⟨n, v, rfl⟩ | ⟨m, a, b, rfl⟩ | ⟨-, rfl⟩ | ⟨v, -, hr⟩
    · exact hI.takes v h'
    · exact hI.register n v h'
    · exact hI.memory m a b h'
    · exact hI.reset h'
    · exact hI.runCommand h' hr

end KeptByMoves

/-! ### The canonical form of the memories (log 5) -/

theorem setPix_eq (p : Params) (s : State) (a : Nat) (b : Byte) :
    setPix p s a b = { s with pix := (setPix p s a b).pix } := by
  unfold setPix
  split <;> rfl

theorem setCon_eq (p : Params) (s : State) (a : Nat) (b : Byte) :
    setCon p s a b = { s with con := (setCon p s a b).con } := by
  unfold setCon
  split <;> rfl

theorem memOk_empty (p : Params) {s : State} (hp : s.pix = []) (hc : s.con = []) : MemOk p s := by
  unfold MemOk
  rw [hp, hc]
  exact ⟨Memory.wf_nil, Memory.wf_nil⟩

theorem memOk_setPix (h : MemOk p s) (a : Nat) (b : Byte) : MemOk p (setPix p s a b) :=
  ⟨wf_setPix h.1 a b, by rw [fresh_setPix, setPix_con]; exact h.2⟩

/-- A command that leaves `PIX` and the draw of the bytes needs a word about `CON` only. -/
theorem MemOk.of_con (h : MemOk p s) (hp : t.pix = s.pix) (he : t.epoch = s.epoch)
    (hc : Memory.wf (fresh p t .con) p.conCap t.con) : MemOk p t := by
  refine ⟨?_, hc⟩
  unfold fresh
  rw [hp, he]
  exact h.1

theorem memOk_setCon (h : MemOk p s) (a : Nat) (b : Byte) : MemOk p (setCon p s a b) :=
  h.of_con (setCon_pix ..) (setCon_epoch ..) (wf_setCon h.2 a b)

theorem memOk_storeCon (h : MemOk p s) (a : Nat) (bs : List Byte) : MemOk p (storeCon p s a bs) :=
  h.of_con (storeCon_pix ..) (storeCon_epoch ..) (wf_storeCon h.2 a bs)

theorem memOk_append {v n : Nat} (h : MemOk p s) (ht : append p v n s = .ok t) : MemOk p t := by
  obtain ⟨-, rfl⟩ := append_ok ht
  exact h.of_con (pushBits_pix ..) (pushBits_epoch ..) (wf_pushBits h.2)

theorem memOk_finCmd (h : MemOk p s) (ht : finCmd p s = .ok t) : MemOk p t := by
  obtain ⟨-, ⟨-, rfl⟩ | ⟨-, -, rfl⟩⟩ := finCmd_ok ht
  · exact h
  · exact memOk_setCon h _ _

theorem memOk_pointWriter (h : MemOk p s) (n vbc : Nat) : MemOk p (pointWriter n vbc s) := h

theorem memOk_wrhdrCmd (h : MemOk p s) (ht : wrhdrCmd p s = .ok t) : MemOk p t := by
  obtain ⟨-, -, -, -, -, -, rfl⟩ := wrhdrCmd_ok ht
  exact memOk_pointWriter (memOk_storeCon h 0 (headerBytes s)) _ _

theorem memOk_parseCmd (h : MemOk p s) (ht : parseCmd p s = .ok t) : MemOk p t := by
  obtain ⟨-, -, -, -, -, -, -, -, -, _, -, hl⟩ := parseCmd_ok ht
  obtain ⟨-, rfl⟩ := parseLoad_ok hl
  exact h

/-- The micro commands: most leave both memories, the others store bytes. -/
theorem memOk_micro (i : Instr) (hd : i ≠ .decode) (he : i ≠ .encode) (h : MemOk Config.params s)
    (ht : resultOf i s = .ok t) : MemOk Config.params t := by
  cases i with
  | nop | clr | winit | rinit => cases ht; exact h
  | acc x => obtain ⟨-, rfl⟩ := accCmd_ok ht; exact h
  | stat => obtain ⟨-, -, -, rfl⟩ := statCmd_ok ht; exact h
  | build => obtain ⟨-, rfl⟩ := buildCmd_ok ht; exact h
  | assign => obtain ⟨-, -, rfl⟩ := assignCmd_ok ht; exact h
  | putb n => obtain ⟨-, -, ha⟩ := putbCmd_ok ht; exact memOk_append h ha
  | puts x => obtain ⟨-, -, -, ha⟩ := putsCmd_ok ht; exact memOk_append h ha
  | fin => exact memOk_finCmd h ht
  | getb => obtain ⟨-, -, rfl⟩ := getbCmd_ok ht; exact h
  | gets => obtain ⟨-, _, -, rfl⟩ := getsCmd_ok ht; exact h
  | parse => exact memOk_parseCmd h ht
  | wrhdr => exact memOk_wrhdrCmd h ht
  | decode => exact absurd rfl hd
  | encode => exact absurd rfl he

theorem memOk_setMem (h : MemOk p s) (m : MemId) (a : Nat) (b : Byte) : MemOk p (setMem p s m a b) := by
  cases m with
  | pix => exact memOk_setPix h a b
  | con => exact memOk_setCon h a b

theorem memOk_keptByMoves : KeptByMoves (MemOk Config.params) where
  script _ h := h
  result _ _ h := h
  takes _ h := h
  register n v h := by rw [regStore_eq]; exact h
  memory m a b h := memOk_setMem h m a b
  reset _ := memOk_empty _ rfl rfl
  micro := memOk_micro

/-- Settles O18: every move keeps the canonical form, and so every step does. -/
theorem stepKeepsTheMemoriesCanonical : Obligations.StepKeepsTheMemoriesCanonical :=
  fun _ _ h ht => memOk_keptByMoves.step h ht

/-! ### The counts (spec/10_state.md R50(a)) -/

/-- The sum of a frequency table. -/
def tableSum (t : Table 32) : Nat := sumSyms fun x => (tableGet t x).toNat

theorem countsOk_iff : CountsOk p s ↔ s.total.toNat = tableSum s.freq ∧ s.total.toNat ≤ p.maxSamples := Iff.rfl

@[simp] theorem tableSum_zero : tableSum (tableZero 32) = 0 := by simp [tableSum]

/-- Counting a symbol adds 1 to the sum, where no counter can wrap. -/
theorem tableSum_count {t : Table 32} (h : tableSum t + 1 < 2 ^ 32) (x : Sym) :
    tableSum (tableSet t x (tableGet t x + 1)) = tableSum t + 1 := by
  have entry (y : Sym) : (tableGet (tableSet t x (tableGet t x + 1)) y).toNat =
      if x = y then (tableGet t y).toNat + 1 else (tableGet t y).toNat := by
    have small : (tableGet t y).toNat ≤ tableSum t := le_sumSyms (fun z => (tableGet t z).toNat) y
    rw [tableGet_tableSet]
    split
    · subst_vars
      rw [BitVec.toNat_add, show (1 : BitVec 32).toNat = 1 from rfl, Nat.mod_eq_of_lt (by omega)]
    · rfl
  exact (sumSyms_congr entry).trans (sumSyms_bump _ x 1)

theorem tableSum_countPix {n : Nat} (h : n < 2 ^ 32) : tableSum (countPix p s n) = n := by
  induction n with
  | zero => exact tableSum_zero
  | succ n ih =>
    have before : tableSum (countPix p s n) = n := ih (by omega)
    rw [countPix, tableSum_count (by omega), before]

theorem countsOk_accCmd {x : Sym} (h : CountsOk p s) (ht : accCmd p x s = .ok t) : CountsOk p t := by
  obtain ⟨hne, rfl⟩ := accCmd_ok ht
  obtain ⟨hsum, hmax⟩ := countsOk_iff.1 h
  have := maxSamples_lt p
  have total : (s.total + 1).toNat = s.total.toNat + 1 := by
    rw [BitVec.toNat_add, show (1 : BitVec 32).toNat = 1 from rfl, Nat.mod_eq_of_lt (by omega)]
  refine countsOk_iff.2 ⟨?_, ?_⟩
  · rw [total, tableSum_count (by omega), hsum]
  · rw [total]; omega

theorem countsOk_statCmd (ht : statCmd p s = .ok t) : CountsOk p t := by
  obtain ⟨-, hmax, -, rfl⟩ := statCmd_ok ht
  have small : sampleTotal s < 2 ^ 32 := hmax.trans_lt (maxSamples_lt p)
  have total : (BitVec.ofNat 32 (sampleTotal s)).toNat = sampleTotal s := by
    rw [BitVec.toNat_ofNat, Nat.mod_eq_of_lt small]
  refine countsOk_iff.2 ⟨?_, ?_⟩
  · rw [total, tableSum_countPix small]
  · rw [total]; exact hmax

/-! ### All invariants -/

/-- A block with no counts, no code, an empty writer and no result meets the invariants. -/
theorem inv_of_cleared (hm : MemOk p s) (hf : s.freq = tableZero 32) (ht : s.total = 0) (hv : s.cv = false)
    (hb : s.wbits = 0) (ha : s.wacc = 0) (hbusy : s.busy = false) (he : s.err = 0) : Inv p s where
  counts := countsOk_iff.2 (by simp [hf, ht])
  unfilled j _ := by simp [ha]
  code h := by simp [hv] at h
  cursor := by simp [CursorOk, hb]
  mem := hm
  status := ⟨hbusy, by simp [he]⟩

/-- Settles O16: reset clears all that the invariants speak of. -/
theorem resetMeetsTheInvariants : Obligations.ResetMeetsTheInvariants :=
  inv_of_cleared (memOk_empty _ rfl rfl) rfl rfl rfl rfl rfl rfl rfl

theorem inv_resetBlock (s : State) : Inv p (resetBlock s) :=
  inv_of_cleared (memOk_empty _ rfl rfl) rfl rfl rfl rfl rfl rfl rfl

theorem inv_clearBlock (h : Inv p s) : Inv p (clearBlock s) :=
  inv_of_cleared h.mem rfl rfl rfl rfl rfl rfl rfl

theorem inv_writerInit (h : Inv p s) : Inv p (writerInit s) :=
  { h with unfilled := fun _ _ => by simp, cursor := Nat.zero_le _ }

theorem inv_accCmd {x : Sym} (h : Inv p s) (ht : accCmd p x s = .ok t) : Inv p t := by
  have counts := countsOk_accCmd h.counts ht
  obtain ⟨-, rfl⟩ := accCmd_ok ht
  exact { h with counts }

theorem inv_statCmd (h : Inv p s) (ht : statCmd p s = .ok t) : Inv p t := by
  have counts := countsOk_statCmd ht
  obtain ⟨-, -, -, rfl⟩ := statCmd_ok ht
  exact { h with counts }

theorem inv_buildCmd (h : Inv p s) (ht : buildCmd s = .ok t) : Inv p t := by
  obtain ⟨-, rfl⟩ := buildCmd_ok ht
  exact { h with code := nofun }

/-- `ASSIGN` tests what `CV` then says, and no code is cut when it is stored. -/
theorem codeOk_assignCmd (ht : assignCmd s = .ok t) : CodeOk t := by
  obtain ⟨h32, hk, rfl⟩ := assignCmd_ok ht
  refine fun _ => ⟨h32, hk, fun x => ?_⟩
  have fits := canonicalCode_lt_word h32 hk x
  rw [codeOf, tableGet_tableOf, BitVec.toNat_ofNat, Nat.mod_eq_of_lt fits]
  rfl

theorem inv_assignCmd (h : Inv p s) (ht : assignCmd s = .ok t) : Inv p t := by
  have code := codeOk_assignCmd ht
  obtain ⟨-, -, rfl⟩ := assignCmd_ok ht
  exact { h with code }

/-- The capacity test of `Append` bounds the cursor (R50(d)). -/
theorem cursorOk_append {v n : Nat} (hp : PartialOk s) (ht : append p v n s = .ok t) : CursorOk p t := by
  have fits := (append_ok ht).1
  unfold CursorOk
  rw [(append_appended ht hp).cursor]
  unfold ceil8 at fits
  omega

theorem inv_append {v n : Nat} (h : Inv p s) (ht : append p v n s = .ok t) : Inv p t := by
  have appended := append_appended ht h.unfilled
  have cursor := cursorOk_append h.unfilled ht
  have mem := memOk_append h.mem ht
  have err : t.err = s.err := by rw [(append_ok ht).2]; exact pushBits_err ..
  have others := appended.others
  rw [err] at others
  exact {
    counts := by rw [others]; exact h.counts
    unfilled := appended.unfilled
    code := by rw [others]; exact h.code
    cursor
    mem
    status := by rw [others]; exact h.status }

theorem inv_setCon (h : Inv p s) (a : Nat) (b : Byte) : Inv p (setCon p s a b) := by
  have mem := memOk_setCon h.mem a b
  rw [setCon_eq] at mem ⊢
  exact { h with mem }

theorem inv_setPix (h : Inv p s) (a : Nat) (b : Byte) : Inv p (setPix p s a b) := by
  have mem := memOk_setPix h.mem a b
  rw [setPix_eq] at mem ⊢
  exact { h with mem }

theorem inv_setMem (h : Inv p s) (m : MemId) (a : Nat) (b : Byte) : Inv p (setMem p s m a b) := by
  cases m with
  | pix => exact inv_setPix h a b
  | con => exact inv_setCon h a b

theorem inv_storeCon (h : Inv p s) (a : Nat) (bs : List Byte) : Inv p (storeCon p s a bs) := by
  induction bs generalizing s a with
  | nil => exact h
  | cons b bs ih => exact ih (inv_setCon h a b) (a + 1)

theorem inv_pointWriter (h : Inv p s) (n vbc : Nat) : Inv p (pointWriter n vbc s) :=
  { h with unfilled := fun _ _ => by simp, cursor := Nat.zero_le _ }

theorem inv_finCmd (h : Inv p s) (ht : finCmd p s = .ok t) : Inv p t := by
  obtain ⟨-, ⟨-, rfl⟩ | ⟨-, -, rfl⟩⟩ := finCmd_ok ht
  · exact { h with }
  · exact { inv_setCon h (writerAddr s s.wbits.toNat) s.wacc with }

theorem inv_parseCmd (h : Inv p s) (ht : parseCmd p s = .ok t) : Inv p t := by
  obtain ⟨-, -, -, -, -, -, -, -, -, _, -, hl⟩ := parseCmd_ok ht
  obtain ⟨-, rfl⟩ := parseLoad_ok hl
  exact { h with code := nofun }

theorem inv_wrhdrCmd (h : Inv p s) (ht : wrhdrCmd p s = .ok t) : Inv p t := by
  obtain ⟨-, -, -, -, -, -, rfl⟩ := wrhdrCmd_ok ht
  exact inv_pointWriter (inv_storeCon h 0 (headerBytes s)) _ _

/-- The micro commands keep the invariants. -/
theorem inv_micro (i : Instr) (hd : i ≠ .decode) (he : i ≠ .encode) (h : Inv Config.params s)
    (ht : resultOf i s = .ok t) : Inv Config.params t := by
  cases i with
  | nop => cases ht; exact h
  | clr => cases ht; exact inv_clearBlock h
  | acc x => exact inv_accCmd h ht
  | stat => exact inv_statCmd h ht
  | build => exact inv_buildCmd h ht
  | assign => exact inv_assignCmd h ht
  | winit => cases ht; exact inv_writerInit h
  | putb n => obtain ⟨-, -, ha⟩ := putbCmd_ok ht; exact inv_append h ha
  | puts x => obtain ⟨-, -, -, ha⟩ := putsCmd_ok ht; exact inv_append h ha
  | fin => exact inv_finCmd h ht
  | rinit => cases ht; exact { h with }
  | getb => obtain ⟨-, -, rfl⟩ := getbCmd_ok ht; exact { h with }
  | gets => obtain ⟨-, _, -, rfl⟩ := getsCmd_ok ht; exact { h with }
  | parse => exact inv_parseCmd h ht
  | wrhdr => exact inv_wrhdrCmd h ht
  | decode => exact absurd rfl hd
  | encode => exact absurd rfl he

theorem inv_keptByMoves : KeptByMoves (Inv Config.params) where
  script _ h := { h with }
  result _ hk h := { h with status := ⟨h.status.1, hk⟩ }
  takes _ h := { h with }
  register n v h := by rw [regStore_eq]; exact { h with }
  memory m a b h := inv_setMem h m a b
  reset _ := inv_resetBlock _
  micro := inv_micro

/-- Settles O17: every move keeps the invariants, and so every step does. -/
theorem stepKeepsTheInvariants : Obligations.StepKeepsTheInvariants :=
  fun _ _ h ht => inv_keptByMoves.step h ht

end Sys2Proof.Machine

/-! ### What the host reads and writes (spec/10_state.md R24 to R27, R42, R46, R51) -/

namespace Sys2Proof.Machine

variable {p : Params} {s t : State}

/-- A host action on an idle block. -/
theorem step_of_idle (hb : s.busy = false) {e : Event} {rest : List Event} (hs : s.script = e :: rest) :
    step s = performIdle Config.params e { s with script := rest } := by
  rw [step_cons hs]
  exact perform_idle (s := { s with script := rest }) hb e

/-- Settles O5: a write to `CMD` is what the decoder makes of its low 32 bits. -/
theorem stepRunsTheDecodedCommand : Obligations.StepRunsTheDecodedCommand := by
  intro s v rest hb hs
  have h : step s = runCommand (commandWord v) { s with script := rest } := step_of_idle hb hs
  exact ⟨fun i hi => h.trans (runCommand_ok hi), fun e he => h.trans (runCommand_error he)⟩

/-- `STATUS` of an idle block as a number: `ERR`, `CV`, `WFIN`, and 0 for `BUSY` and above (10 R27, R42). -/
theorem statusWord_toNat (hb : s.busy = false) :
    (statusWord p s).toNat = s.err.toNat + 16 * s.cv.toNat + 32 * s.wfin.toNat := by
  have fields : ∀ (e : BitVec 4) (c w : Bool),
      (BitVec.ofBool false ++ (BitVec.ofBool w ++ BitVec.ofBool c ++ e)).toNat =
        e.toNat + 16 * c.toNat + 32 * w.toNat := by decide
  unfold statusWord statusFields
  rw [hb, if_neg Bool.false_ne_true, BitVec.toNat_setWidth_of_le (by decide)]
  exact fields _ _ _

theorem regRead_above {n : Nat} (h : n > 15) : regRead p s n = 0 := by
  obtain ⟨k, rfl⟩ := Nat.exists_eq_add_of_lt h
  rw [show 15 + k + 1 = k + 16 by omega]
  rfl

/-- Settles O7: a read gives the register and only records it, a write goes to the read-write registers only. -/
theorem hostRegisterAccess : Obligations.HostRegisterAccess := by
  intro s rest hb
  refine ⟨fun n hs => ?_, fun n v hn hs => ?_⟩
  · refine ⟨_, step_of_idle hb hs, ?_⟩
    refine ⟨?_, ?_, ?_, ?_, ?_, ?_, ?_, ?_, ?_, ?_, ?_, ?_, ?_, ?_, ?_, ?_, regRead_above⟩ <;> rintro rfl
    case refine_3 => exact statusWord_toNat hb
    all_goals rfl
  · have h := (step_of_idle hb hs).trans (performIdle_regWrite hn v)
    rw [regStore_eq] at h
    exact ⟨_, h, rfl, rfl, rfl, rfl, rfl, rfl, rfl, rfl, rfl⟩

theorem tblRead_above {T : TableId} {i : Nat} (h : i ≥ 256) : tblRead s T i = 0 := if_neg (Nat.not_lt.2 h)

/-- The index of a symbol reads the symbol's entry (10 R46). -/
theorem tblRead_symbol (s : State) (T : TableId) (x : Sym) :
    (tblRead s T x.toNat).toNat = match T with
      | .freq => freqOf s x
      | .len => lenOf s x
      | .code => codeOf s x := by
  unfold tblRead
  rw [if_pos x.isLt, BitVec.ofNat_toNat, BitVec.setWidth_eq]
  cases T <;> exact BitVec.toNat_setWidth_of_le (by decide)

/-- No host action but a command or a reset changes a table (10 R46). -/
theorem performIdle_tables {e : Event} (hc : ∀ v, e ≠ .regWrite 1 v) (hr : e ≠ .reset)
    (h : performIdle p e s = .next t) : t.freq = s.freq ∧ t.len = s.len ∧ t.code = s.code := by
  rcases performIdle_next h with ⟨v, rfl⟩ | ⟨n, v, rfl⟩ | ⟨m, a, b, rfl⟩ | ⟨he, -⟩ | ⟨v, he, -⟩
  · exact ⟨rfl, rfl, rfl⟩
  · rw [regStore_eq]
    exact ⟨rfl, rfl, rfl⟩
  · cases m with
    | pix => exact ⟨setPix_freq .., setPix_len .., setPix_code ..⟩
    | con => exact ⟨setCon_freq .., setCon_len .., setCon_code ..⟩
  · exact absurd he hr
  · exact absurd he (hc v)

/-- Settles O8: a table read gives the entry and only records it; the tables are the commands' and the reset's. -/
theorem hostTableAccess : Obligations.HostTableAccess := by
  intro s rest hb
  refine ⟨fun T i hs => ?_, fun e t hs hc hr ht => ?_⟩
  · refine ⟨_, step_of_idle hb hs, tblRead_above, ?_⟩
    rintro x rfl
    exact tblRead_symbol _ T x
  · rw [step_of_idle hb hs] at ht
    exact performIdle_tables (s := { s with script := rest }) hc hr ht

/-! ### Reset (spec/10_state.md R51, spec/70_reset_and_hazards.md R301) -/

/-- A block that holds nothing but zeros and unwritten bytes, after `k` resets. -/
def blankState (k : Nat) (es : List Event) (vs : List (BitVec 64)) : State :=
  { State.reset with epoch := k, script := es, reads := vs }

theorem reset_eq_blank : State.reset = blankState 0 [] [] := rfl

theorem resetBlock_eq_blank (s : State) : resetBlock s = blankState (s.epoch + 1) s.script s.reads := rfl

/-- Reset has its step in a busy block too (70 R301). -/
theorem step_reset {rest : List Event} (hs : s.script = .reset :: rest) :
    step s = .next (resetBlock { s with script := rest }) := by
  rw [step_cons hs]
  simp [perform, allowedBusy]

variable (k : Nat) (es : List Event) (vs : List (BitVec 64))

theorem regRead_blank {n : Nat} (h : n ≠ 0) : regRead p (blankState k es vs) n = 0 := by
  rcases Nat.lt_or_ge 15 n with hn | hn
  · exact regRead_above hn
  · obtain rfl | rfl | h2 : n = 1 ∨ n = 2 ∨ 2 < n := by omega
    · rfl
    · exact BitVec.eq_of_toNat_eq (statusWord_toNat (s := blankState k es vs) rfl)
    · interval_cases n <;> rfl

theorem tables_blank (x : Sym) : freqOf (blankState k es vs) x = 0 ∧ lenOf (blankState k es vs) x = 0 ∧
    codeOf (blankState k es vs) x = 0 := by
  have entry (w : Nat) : (tableGet (tableZero w) x).toNat = 0 := by simp
  exact ⟨entry 32, entry 8, entry 32⟩

theorem memByte_blank (m : MemId) (a : Nat) : memByte p (blankState k es vs) m a = p.draw m k a := by
  cases m <;> rfl

/-- Settles O10: the initial state and the state after a reset are both blank, each with the draw of its reset. -/
theorem resetClearsRegistersAndTables : Obligations.ResetClearsRegistersAndTables := by
  intro s rest hs
  refine ⟨_, step_reset hs, rfl, rfl, fun u k hu => ?_⟩
  obtain ⟨es, vs, rfl⟩ : ∃ es vs, u = blankState k es vs := by
    rcases hu with ⟨rfl, rfl⟩ | ⟨rfl, rfl⟩
    · exact ⟨[], [], reset_eq_blank⟩
    · exact ⟨rest, s.reads, resetBlock_eq_blank _⟩
  exact ⟨rfl, fun n hn => regRead_blank k es vs hn, tables_blank k es vs, rfl, memByte_blank k es vs⟩

/-! ### The reader's cursor (spec/10_state.md R50, spec/45_bitstream_reader.md R211) -/

theorem getbCmd_cursor (h : getbCmd p s = .ok t) : t.rpos.toNat ≤ t.rvalid.toNat := by
  obtain ⟨hlt, -, rfl⟩ := getbCmd_ok h
  have next : (BitVec.ofNat 64 (s.rpos.toNat + 1)).toNat = s.rpos.toNat + 1 := by
    rw [BitVec.toNat_ofNat, Nat.mod_eq_of_lt (by omega)]
  exact next.trans_le hlt

theorem getsCmd_cursor_le (h : getsCmd p s = .ok t) : t.rpos.toNat ≤ t.rvalid.toNat := by
  obtain ⟨others, -, inside, -⟩ := getsCmd_cursor h
  rw [show t.rvalid = s.rvalid by rw [others]]
  exact inside

theorem parseCmd_rpos (h : parseCmd p s = .ok t) : t.rpos = 0 := by
  obtain ⟨-, -, -, -, -, -, -, -, -, _, -, hl⟩ := parseCmd_ok h
  obtain ⟨-, rfl⟩ := parseLoad_ok hl
  rfl

/-- Each `GETS` of the loop leaves the cursor inside, and the store after it does not move it. -/
theorem getImage_cursor {n : Nat} (hs : s.rpos.toNat ≤ s.rvalid.toNat) (h : getImage p n s = .ok t) :
    t.rpos.toNat ≤ t.rvalid.toNat := by
  refine loop_inv (I := fun _ u => u.rpos.toNat ≤ u.rvalid.toNat) hs (fun i c d _ _ hd => ?_) h
  obtain ⟨u, hu, hd⟩ := bind_eq_ok.1 hd
  cases hd
  rw [setPix_rpos, setPix_rvalid]
  exact getsCmd_cursor_le hu

theorem decodeCmd_cursor (h : decodeCmd p s = .ok t) : t.rpos.toNat ≤ t.rvalid.toNat := by
  obtain ⟨s1, s2, h1, h2, h3⟩ := decodeCmd_ok h
  obtain ⟨-, -, rfl⟩ := assignCmd_ok h2
  refine getImage_cursor ?_ h3
  simp [parseCmd_rpos h1]

theorem readerCommand_cursor {i : Instr} (hi : i ∈ [Instr.getb, .gets, .parse, .decode]) (h : resultOf i s = .ok t) :
    t.rpos.toNat ≤ t.rvalid.toNat := by
  simp only [List.mem_cons, List.not_mem_nil, or_false] at hi
  rcases hi with rfl | rfl | rfl | rfl
  · exact getbCmd_cursor h
  · exact getsCmd_cursor_le h
  · simp [parseCmd_rpos h]
  · exact decodeCmd_cursor h

/-- Settles O20: the walk of `GETS` and the bit of `GETB` were inside the valid bits, and `PARSE` sets the cursor
to 0. -/
theorem readerCursorStaysInsideTheStream : Obligations.ReaderCursorStaysInsideTheStream := by
  intro i s t hi h h0
  rw [exec_eq_finish] at h
  obtain ⟨u, hu, rfl⟩ := finish_err_zero h h0
  exact readerCommand_cursor (t := u) hi hu

end Sys2Proof.Machine

/-! PROOFS of the family `20_memory.md`: the host's access to the byte memories, and what each command may change. -/

/-! ### The host's access to the memories (spec/20_memory.md R61) -/

namespace Sys2Proof.Machine

variable {p : Params} {s : State}

/-- A store of the host is a store to one of the two memories. -/
theorem setMem_eq (p : Params) (s : State) (m : MemId) (a : Nat) (b : Byte) :
    setMem p s m a b = { s with pix := (setMem p s m a b).pix, con := (setMem p s m a b).con } := by
  cases m with
  | pix =>
    rw [show (setMem p s .pix a b).con = s.con from setPix_con ..]
    exact setPix_eq p s a b
  | con =>
    rw [show (setMem p s .con a b).pix = s.pix from setCon_pix ..]
    exact setCon_eq p s a b

/-- Everything a store inside a memory does to the bytes of both. -/
theorem memByte_setMem {m : MemId} {a : Nat} (h : a < p.memSize m) (b : Byte) (m' : MemId) (a' : Nat) :
    memByte p (setMem p s m a b) m' a' = if m' = m ∧ a' = a then b else memByte p s m' a' := by
  cases m <;> cases m' <;> simp only [true_and, false_and, if_false, reduceCtorEq]
  · exact pixByte_setPix h b a'
  · exact conByte_setPix a b a'
  · exact pixByte_setCon a b a'
  · exact conByte_setCon h b a'

/-- Settles O9: inside the memory the step is the read or the store, outside it is the refusal. -/
theorem hostMemoryAccess : Obligations.HostMemoryAccess := by
  intro s rest m a hb
  refine ⟨fun ha hs => ?_, fun b ha hs => ?_, fun ha hs => ?_⟩
  · rw [step_of_idle hb hs, performIdle_memRead ha]
    cases m <;> rfl
  · refine ⟨_, (step_of_idle hb hs).trans (performIdle_memWrite ha b), setMem_eq .., fun m' a' => ?_⟩
    rw [memByte_setMem ha]
    cases m' <;> rfl
  · rcases hs with hs | ⟨b, hs⟩
    · exact (step_of_idle hb hs).trans (performIdle_memRead_outside ha)
    · exact (step_of_idle hb hs).trans (performIdle_memWrite_outside ha b)

end Sys2Proof.Machine

/-! ### The bits of an image (spec/41_symbol_statistics.md R143, spec/46_container_codec.md R232) -/

namespace Sys2Proof.Machine

variable {p : Params} {s t : State}

theorem pixels_succ (p : Params) (s : State) (n : Nat) : pixels p s (n + 1) = pixels p s n ++ [pixByte p s n] := by
  simp [pixels, List.range_succ]

@[simp] theorem pixels_length (p : Params) (s : State) (n : Nat) : (pixels p s n).length = n := by simp [pixels]

theorem pixels_congr (hp : t.pix = s.pix) (he : t.epoch = s.epoch) (n : Nat) : pixels p t n = pixels p s n :=
  List.map_congr_left fun a _ => pixByte_congr hp he a

theorem pixCount_le (p : Params) (s : State) (n : Nat) (x : Sym) : pixCount p s n x ≤ n :=
  List.count_le_length.trans_eq (pixels_length p s n)

theorem pixCount_succ (p : Params) (s : State) (n : Nat) (x : Sym) :
    pixCount p s (n + 1) x = if pixByte p s n = x then pixCount p s n x + 1 else pixCount p s n x := by
  unfold pixCount
  rw [pixels_succ, List.count_append, List.count_singleton]
  simp only [beq_iff_eq]
  split <;> rfl

/-- The loop of `STAT` counts exactly, where no counter can wrap. -/
theorem countPix_toNat {n : Nat} (h : n < 2 ^ 32) (x : Sym) :
    (tableGet (countPix p s n) x).toNat = pixCount p s n x := by
  induction n with
  | zero => simp [countPix, pixCount, pixels]
  | succ n ih =>
    have before : (tableGet (countPix p s n) x).toNat = pixCount p s n x := ih (by omega)
    have small := pixCount_le p s n x
    rw [countPix, tableGet_tableSet, pixCount_succ]
    split
    · subst_vars
      rw [BitVec.toNat_add, before, show (1 : BitVec 32).toNat = 1 from rfl, Nat.mod_eq_of_lt (by omega)]
    · exact before

theorem statCmd_counts (h : statCmd p s = .ok t) (x : Sym) : freqOf t x = pixCount p s (sampleTotal s) x := by
  obtain ⟨-, hmax, -, rfl⟩ := statCmd_ok h
  exact countPix_toNat (hmax.trans_lt (maxSamples_lt p)) x

/-- Summing a number for each symbol, as often as it occurs, is summing it along the samples. -/
theorem sumSyms_pixCount (f : Sym → Nat) (n : Nat) :
    sumSyms (fun x => pixCount p s n x * f x) = ((pixels p s n).map f).sum := by
  induction n with
  | zero => simp [pixCount, pixels]
  | succ n ih =>
    have bump (x : Sym) : pixCount p s (n + 1) x * f x =
        if pixByte p s n = x then pixCount p s n x * f x + f (pixByte p s n) else pixCount p s n x * f x := by
      rw [pixCount_succ]
      split
      · rw [Nat.add_one_mul, ‹pixByte p s n = x›]
      · rfl
    rw [sumSyms_congr bump, sumSyms_bump, ih, pixels_succ, List.map_append, List.sum_append]
    simp

/-- The bits of the codes of `PIX[0 .. n-1]` under the lengths of the state. -/
def imageBits (p : Params) (s : State) (n : Nat) : Nat := ((pixels p s n).map (lenOf s)).sum

theorem imageBits_congr (hp : t.pix = s.pix) (he : t.epoch = s.epoch) (hl : t.len = s.len) (n : Nat) :
    imageBits p t n = imageBits p s n := by
  unfold imageBits lenOf
  rw [pixels_congr hp he, hl]

theorem imageBits_succ (p : Params) (s : State) (n : Nat) :
    imageBits p s (n + 1) = imageBits p s n + lenOf s (pixByte p s n) := by
  simp [imageBits, pixels_succ]

theorem imageBits_le (h : ∀ x, lenOf s x ≤ 32) (n : Nat) : imageBits p s n ≤ 32 * n := by
  have bound := List.sum_le_card_nsmul ((pixels p s n).map (lenOf s)) 32 (by simpa using fun x _ => h x)
  rw [List.length_map, pixels_length, smul_eq_mul, Nat.mul_comm] at bound
  exact bound

/-- Where `FREQ` counts the samples, the valid-bit count of R232 is the length of their stream. -/
theorem validBitCount_eq_imageBits {n : Nat} (h : ∀ x, freqOf s x = pixCount p s n x) :
    validBitCount s = imageBits p s n := by
  unfold validBitCount imageBits
  rw [← sumSyms_pixCount, show freqOf s = pixCount p s n from funext h]

end Sys2Proof.Machine

/-! ### What the writer changes (spec/44_bitstream_writer.md R191, R195) -/

namespace Sys2Proof.Machine

variable {p : Params} {s t u : State}

theorem storeCon_eq (p : Params) (s : State) (a : Nat) (bs : List Byte) :
    storeCon p s a bs = { s with con := (storeCon p s a bs).con } := by
  induction bs generalizing s a with
  | nil => rfl
  | cons b bs ih =>
    rw [storeCon, ih, setCon_eq]

theorem pushBit_eq (p : Params) (s : State) (b : Bool) : pushBit p s b = { s with
    wbits := (pushBit p s b).wbits, wacc := (pushBit p s b).wacc, con := (pushBit p s b).con } := by
  by_cases hf : (s.wbits.toNat + 1) % 8 = 0
  · rw [pushBit_of_full hf, setCon_eq]; rfl
  · rw [pushBit_of_not_full hf]; rfl

theorem pushBits_eq (p : Params) (v n : Nat) (s : State) : pushBits p v n s = { s with
    wbits := (pushBits p v n s).wbits, wacc := (pushBits p v n s).wacc, con := (pushBits p v n s).con } := by
  induction n generalizing s with
  | zero => rfl
  | succ n ih => rw [pushBits, ih, pushBit_eq]

/-- What a run of `n` appended bits changes, whichever bits they are and whatever `WACC` holds. -/
structure WriterMoved (p : Params) (n : Nat) (s t : State) : Prop where
  others : t = { s with wbits := t.wbits, wacc := t.wacc, con := t.con, err := t.err }
  cursor : t.wbits.toNat = s.wbits.toNat + n
  bytes : ∀ a, a < writerAddr s s.wbits.toNat ∨ writerAddr s (s.wbits.toNat + n) ≤ a →
    conByte p t a = conByte p s a

theorem writerMoved_append {v n : Nat} (h : append p v n s = .ok t) : WriterMoved p n s t := by
  obtain ⟨fits, rfl⟩ := append_ok h
  have small := cursor_lt_of_capacity fits
  refine ⟨?_, pushBits_wbits small, fun a ha => conByte_pushBits small ha⟩
  rw [pushBits_err]
  exact pushBits_eq p v n s

theorem WriterMoved.refl (p : Params) (s : State) : WriterMoved p 0 s s := ⟨rfl, rfl, fun _ _ => rfl⟩

theorem WriterMoved.trans {m n : Nat} (h : WriterMoved p m s t) (h' : WriterMoved p n t u) :
    WriterMoved p (m + n) s u := by
  have base : t.wbase = s.wbase := by rw [h.others]
  refine ⟨?_, ?_, fun a ha => ?_⟩
  · rw [h'.others, h.others]
  · rw [h'.cursor, h.cursor]; omega
  · unfold writerAddr at ha
    rw [h'.bytes a, h.bytes a]
    · unfold writerAddr; omega
    · unfold writerAddr; rw [base, h.cursor]; omega

theorem writerMoved_putsCmd {x : Sym} (h : putsCmd p x s = .ok t) : WriterMoved p (lenOf s x) s t := by
  obtain ⟨-, -, -, ha⟩ := putsCmd_ok h
  exact writerMoved_append ha

/-- The loop of `ENCODE` appends the code of each sample. -/
theorem writerMoved_putImage {n : Nat} (h : putImage p n s = .ok t) : WriterMoved p (imageBits p s n) s t := by
  refine loop_inv (I := fun i u => WriterMoved p (imageBits p s i) s u) (WriterMoved.refl p s)
    (fun i c d _ hc hd => ?_) h
  have pix : pixByte p c i = pixByte p s i := by rw [hc.others]; exact pixByte_congr rfl rfl i
  have len : lenOf c = lenOf s := by rw [hc.others]; rfl
  rw [imageBits_succ, ← pix, ← len]
  exact hc.trans (writerMoved_putsCmd hd)

theorem frame_finCmd (h : finCmd p s = .ok t) : Frame p .fin s t := by
  obtain ⟨-, ⟨-, rfl⟩ | ⟨partialByte, -, rfl⟩⟩ := finCmd_ok h
  · exact ⟨rfl, fun _ _ => conByte_finalise _⟩
  · refine ⟨by rw [setCon_eq]; rfl, fun a ha => ?_⟩
    rw [conByte_finalise, conByte_setCon_ne (ha.resolve_left partialByte)]

/-! ### What the container commands change (spec/46_container_codec.md R233 to R236) -/

theorem frame_wrhdrCmd (h : wrhdrCmd p s = .ok t) : Frame p .wrhdr s t := by
  obtain ⟨-, -, -, -, -, -, rfl⟩ := wrhdrCmd_ok h
  refine ⟨by rw [storeCon_eq]; rfl, fun a ha => ?_⟩
  rw [conByte_pointWriter, conByte_header_above s ha]

/-- After `WRHDR` the payload begins at the cursor and, where `FREQ` counts the samples, `CONLEN` is where it ends. -/
theorem wrhdrCmd_payload (h : wrhdrCmd p s = .ok t) (counts : ∀ x, freqOf s x = pixCount p s (sampleTotal s) x)
    (h32 : ∀ x, lenOf s x ≤ 32) :
    t.wbits = 0 ∧ t.wbase.toNat = payloadOffset (codedSyms s).length ∧
      t.conlen.toNat = t.wbase.toNat + ceil8 (imageBits p t t.total.toNat) := by
  obtain ⟨-, -, hmax, -, htotal, -, rfl⟩ := wrhdrCmd_ok h
  have bits : imageBits p (pointWriter (codedSyms s).length (validBitCount s) (storeCon p s 0 (headerBytes s)))
      s.total.toNat = validBitCount s := by
    rw [validBitCount_eq_imageBits counts, htotal]
    exact imageBits_congr (by simp) (by simp) (by simp) _
  have few : validBitCount s ≤ 32 * sampleTotal s := by
    rw [validBitCount_eq_imageBits counts]; exact imageBits_le h32 _
  have offset := payloadOffset_le (p := p) s
  have cap := conCap_eq p
  have small := maxSamples_lt p
  have noLoss : payloadOffset (codedSyms s).length + ceil8 (validBitCount s) < 2 ^ 64 := by unfold ceil8; omega
  have base : (BitVec.ofNat 64 (payloadOffset (codedSyms s).length)).toNat = payloadOffset (codedSyms s).length := by
    rw [BitVec.toNat_ofNat, Nat.mod_eq_of_lt (by omega)]
  refine ⟨pointWriter_wbits .., ?_, ?_⟩
  · rw [pointWriter_wbase, base]
  · rw [pointWriter_conlen, pointWriter_wbase, pointWriter_total, storeCon_total, bits, base, BitVec.toNat_ofNat,
      Nat.mod_eq_of_lt noLoss]

theorem frame_encodeCmd (h : encodeCmd p s = .ok t) : Frame p .encode s t := by
  obtain ⟨s1, s2, s3, s4, s5, h1, h2, h3, h4, h5, h6⟩ := encodeCmd_ok h
  have counts := statCmd_counts h1
  obtain ⟨-, -, -, rfl⟩ := statCmd_ok h1
  obtain ⟨-, rfl⟩ := buildCmd_ok h2
  obtain ⟨h32, -, rfl⟩ := assignCmd_ok h3
  obtain ⟨empty, base, conlen⟩ := wrhdrCmd_payload h4 counts h32
  obtain ⟨header, headerKept⟩ := frame_wrhdrCmd h4
  have stream := writerMoved_putImage h5
  obtain ⟨final, finalKept⟩ := frame_finCmd h6
  have others : t = { s4 with wbits := t.wbits, wacc := t.wacc, wfin := t.wfin, con := t.con, err := t.err } := by
    rw [final, stream.others]
  refine ⟨by rw [others, header], fun a ha => ?_⟩
  rw [show t.conlen = s4.conlen by rw [others], conlen] at ha
  have cursor : s5.wbits.toNat = imageBits p s4 s4.total.toNat := by simpa [empty] using stream.cursor
  have wbase : s5.wbase = s4.wbase := by rw [stream.others]
  unfold ceil8 at ha
  calc conByte p t a
    _ = conByte p s5 a := finalKept a (by unfold writerAddr; rw [wbase, cursor]; omega)
    _ = conByte p s4 a := stream.bytes a (.inr (by unfold writerAddr; simp [empty]; omega))
    _ = conByte p _ a := headerKept a (by omega)
    _ = conByte p s a := conByte_congr rfl rfl a

/-- What reading `n` samples into `PIX` changes, whichever samples they are. -/
structure SamplesStored (p : Params) (n : Nat) (s t : State) : Prop where
  others : t = { s with rpos := t.rpos, rdata := t.rdata, pix := t.pix, err := t.err }
  bytes : ∀ a, n ≤ a → pixByte p t a = pixByte p s a

theorem SamplesStored.refl (p : Params) (s : State) : SamplesStored p 0 s s := ⟨rfl, fun _ _ => rfl⟩

/-- One more `GETS` and the store of its sample. -/
theorem SamplesStored.succ {n : Nat} (h : SamplesStored p n s t) (ht : getsCmd p t = .ok u) :
    SamplesStored p (n + 1) s (setPix p u n u.rdata) := by
  obtain ⟨-, _, -, rfl⟩ := getsCmd_ok ht
  refine ⟨by rw [setPix_eq, h.others], fun a ha => ?_⟩
  rw [pixByte_setPix_ne (by omega)]
  exact (pixByte_congr rfl rfl a).trans (h.bytes a (by omega))

theorem samplesStored_getImage {n : Nat} (h : getImage p n s = .ok t) : SamplesStored p n s t := by
  refine loop_inv (I := fun i u => SamplesStored p i s u) (SamplesStored.refl p s) (fun i c d _ hc hd => ?_) h
  obtain ⟨u, hu, hd⟩ := bind_eq_ok.1 hd
  cases hd
  exact hc.succ hu

theorem frame_parseCmd (h : parseCmd p s = .ok t) : Frame p .parse s t := by
  obtain ⟨-, -, -, -, -, -, -, -, -, _, -, hl⟩ := parseCmd_ok h
  obtain ⟨-, rfl⟩ := parseLoad_ok hl
  rfl

theorem frame_decodeCmd (h : decodeCmd p s = .ok t) : Frame p .decode s t := by
  obtain ⟨s1, s2, h1, h2, h3⟩ := decodeCmd_ok h
  have parsed : s1 = _ := frame_parseCmd h1
  obtain ⟨-, -, rfl⟩ := assignCmd_ok h2
  obtain ⟨others, bytes⟩ := samplesStored_getImage h3
  refine ⟨by rw [others, parsed], fun a ha => ?_⟩
  rw [others] at ha
  rw [bytes a ha, parsed]
  exact pixByte_congr rfl rfl a

/-! ### What each command changes (spec/20_memory.md R76) -/

theorem Frame.refl (p : Params) (i : Instr) (s : State) : Frame p i s s := by
  cases i with
  | nop | acc | stat | build | assign | winit | rinit | getb | gets | parse => rfl
  | clr => exact ⟨rfl, rfl, rfl, rfl, rfl⟩
  | putb | puts | fin | wrhdr | encode | decode => exact ⟨rfl, fun _ _ => rfl⟩

/-- Every command may write `ERR`. -/
theorem Frame.withErr {i : Instr} (h : Frame p i s t) (k : BitVec 4) : Frame p i s { t with err := k } := by
  have err {u : State} (e : t = u) : { t with err := k } = { u with err := k } := by rw [e]
  cases i with
  | nop | acc | stat | build | assign | winit | rinit | getb | gets | parse => exact (err h :)
  | clr => exact h
  | putb | puts | fin | wrhdr | encode =>
    obtain ⟨others, bytes⟩ := h
    exact ⟨(err others :), fun a ha => (conByte_err k a).trans (bytes a ha)⟩
  | decode =>
    obtain ⟨others, bytes⟩ := h
    exact ⟨(err others :), fun a ha => (pixByte_err k a).trans (bytes a ha)⟩

/-- Every successful command keeps to its columns, before its result code is committed. -/
theorem frame_resultOf {i : Instr} (h : resultOf i s = .ok t) : Frame Config.params i s t := by
  cases i with
  | nop | winit | rinit => cases h; rfl
  | clr => cases h; exact ⟨rfl, rfl, rfl, rfl, rfl⟩
  | acc x => obtain ⟨-, rfl⟩ := accCmd_ok h; rfl
  | stat => obtain ⟨-, -, -, rfl⟩ := statCmd_ok h; rfl
  | build => obtain ⟨-, rfl⟩ := buildCmd_ok h; rfl
  | assign => obtain ⟨-, -, rfl⟩ := assignCmd_ok h; rfl
  | putb n =>
    obtain ⟨-, -, ha⟩ := putbCmd_ok h
    exact ⟨(writerMoved_append ha).others, (writerMoved_append ha).bytes⟩
  | puts x => exact ⟨(writerMoved_putsCmd h).others, (writerMoved_putsCmd h).bytes⟩
  | fin => exact frame_finCmd h
  | getb => obtain ⟨-, -, rfl⟩ := getbCmd_ok h; rfl
  | gets => obtain ⟨-, _, -, rfl⟩ := getsCmd_ok h; rfl
  | parse => exact frame_parseCmd h
  | decode => exact frame_decodeCmd h
  | wrhdr => exact frame_wrhdrCmd h
  | encode => exact frame_encodeCmd h

/-- Settles O14: a success changes the columns of its command and `ERR`, an error `ERR` alone. -/
theorem commandsChangeOnlyTheirColumns : Obligations.CommandsChangeOnlyTheirColumns := by
  intro i s t h
  rcases exec_cases i s with ⟨u, hu, he⟩ | ⟨k, -, he⟩
  · rw [he] at h; cases h; exact (frame_resultOf hu).withErr 0
  · rw [he] at h; cases h; exact (Frame.refl _ i s).withErr k.code

end Sys2Proof.Machine

/-! PROOFS of the family `30_encoding.md`: the command word and its decoder, and what `DECODE` reads of a container. -/

/-! ### The command word (spec/30_encoding.md R90 to R97) -/

namespace Sys2Proof

variable {w w' : CmdWord} {op imm : BitVec 8} {f : Format} {i : Instr}

/-! #### The opcode map -/

/-- The opcodes of 30 R93. -/
def opcodes : List Nat :=
  [0x00, 0x01, 0x10, 0x11, 0x20, 0x30, 0x40, 0x41, 0x42, 0x43, 0x50, 0x51, 0x52, 0x60, 0x61, 0x62, 0x63]

/-- Those of format Z. -/
def opcodesZ : List Nat := [0x00, 0x01, 0x11, 0x20, 0x30, 0x40, 0x43, 0x50, 0x51, 0x52, 0x60, 0x61, 0x62, 0x63]

/-- Everything the opcode map can answer: no format for an unassigned opcode, else a format whose commands have this
opcode and carry the operand byte they were made from. -/
inductive OpcodeRow (op : BitVec 8) : Option Format → Prop
  | unassigned (h : op.toNat ∉ opcodes) : OpcodeRow op none
  | z (i : Instr) (h : op.toNat ∈ opcodesZ) (hop : opcodeOf i = op) (himm : immOf i = 0)
      (hwf : i.wellFormed = true) : OpcodeRow op (some (.z i))
  | s (mk : Sym → Instr) (h : op.toNat ∈ [0x10, 0x42]) (hop : ∀ x, opcodeOf (mk x) = op)
      (himm : ∀ x, immOf (mk x) = x) (hwf : ∀ x, (mk x).wellFormed = true) : OpcodeRow op (some (.s mk))
  | l (h : op.toNat = 0x41) : OpcodeRow op (some (.l .putb))

theorem formatOf_row (op : BitVec 8) : OpcodeRow op (formatOf op) := by
  unfold formatOf
  split
  case h_18 => exact .unassigned (by simp_all [opcodes])
  case h_3 h | h_9 h =>
    exact .s _ (by rw [h]; decide) (fun _ => BitVec.eq_of_toNat_eq h.symm) (fun _ => rfl) fun _ => rfl
  case h_8 h => exact .l h
  all_goals
    rename_i h
    exact .z _ (by rw [h]; decide) (BitVec.eq_of_toNat_eq h.symm) rfl rfl

/-! #### The fields of a word -/

theorem opField_toNat (w : CmdWord) : (opField w).toNat = w.toNat / 2 ^ 24 := by
  simp only [opField, BitVec.extractLsb'_toNat, Nat.shiftRight_eq_div_pow]
  omega

theorem rsvField_toNat (w : CmdWord) : (rsvField w).toNat = w.toNat / 2 ^ 8 % 2 ^ 16 := by
  simp only [rsvField, BitVec.extractLsb'_toNat, Nat.shiftRight_eq_div_pow]

theorem immField_toNat (w : CmdWord) : (immField w).toNat = w.toNat % 2 ^ 8 := by
  simp [immField, BitVec.extractLsb'_toNat]

/-- The three fields are the whole word (30 R90). -/
theorem word_ext (hop : opField w = opField w') (hrsv : rsvField w = rsvField w')
    (himm : immField w = immField w') : w = w' := by
  have hop := congrArg BitVec.toNat hop
  have hrsv := congrArg BitVec.toNat hrsv
  have himm := congrArg BitVec.toNat himm
  rw [opField_toNat, opField_toNat] at hop
  rw [rsvField_toNat, rsvField_toNat] at hrsv
  rw [immField_toNat, immField_toNat] at himm
  exact BitVec.eq_of_toNat_eq (by omega)

/-- 30 R97 as a number: opcode and operand share no bit. -/
theorem encodeInstr_toNat (i : Instr) : (encodeInstr i).toNat = (opcodeOf i).toNat * 2 ^ 24 + (immOf i).toNat := by
  have hop : (opcodeOf i).toNat < 2 ^ 8 := (opcodeOf i).isLt
  have himm : (immOf i).toNat < 2 ^ 8 := (immOf i).isLt
  have word : (encodeInstr i).toNat = (opcodeOf i).toNat * 2 ^ 24 ||| (immOf i).toNat := by
    rw [encodeInstr, BitVec.toNat_or, BitVec.toNat_shiftLeft, BitVec.toNat_setWidth, BitVec.toNat_setWidth,
      Nat.shiftLeft_eq, Nat.mod_eq_of_lt (a := (opcodeOf i).toNat) (by omega), Nat.mod_eq_of_lt (by omega),
      Nat.mod_eq_of_lt (by omega)]
  rw [word, Nat.mul_comm, Nat.two_pow_add_eq_or_of_lt (by omega)]

/-- The fields of the word of a command. -/
theorem fields_encodeInstr (i : Instr) :
    opField (encodeInstr i) = opcodeOf i ∧ rsvField (encodeInstr i) = 0 ∧ immField (encodeInstr i) = immOf i := by
  have word := encodeInstr_toNat i
  have himm : (immOf i).toNat < 2 ^ 8 := (immOf i).isLt
  refine ⟨BitVec.eq_of_toNat_eq ?_, BitVec.eq_of_toNat_eq ?_, BitVec.eq_of_toNat_eq ?_⟩
  · rw [opField_toNat]; omega
  · rw [rsvField_toNat, BitVec.ofNat_eq_ofNat, BitVec.toNat_zero]; omega
  · rw [immField_toNat]; omega

/-! #### The operand by the format (30 R91) -/

theorem operandOf_z {j : Instr} : operandOf imm (.z j) = .ok i ↔ imm = 0 ∧ j = i := by
  by_cases h : imm = 0#8 <;> simp [operandOf, h]

/-- The two tests of format L are one: the operand byte is at most 32. -/
theorem operandOf_l (mk : BitVec 6 → Instr) : operandOf imm (.l mk) =
    if imm.toNat > 32 then .error .operandRange else .ok (mk (imm.setWidth 6)) := by
  have tests : (imm.extractLsb' 6 2 = 0 ∧ (imm.extractLsb' 0 6).toNat ≤ 32) ↔ ¬ imm.toNat > 32 := by
    rw [← BitVec.toNat_inj, BitVec.ofNat_eq_ofNat, BitVec.toNat_zero]
    simp only [BitVec.extractLsb'_toNat, Nat.shiftRight_eq_div_pow]
    omega
  simp only [operandOf, tests, ite_not]
  rfl

/-! #### The decoder on the three fields -/

/-- What the success of the decoder means: all three tests of 30 R96 passed. -/
theorem decodeWord_eq_ok : decodeWord w = .ok i ↔
    ∃ f, formatOf (opField w) = some f ∧ rsvField w = 0 ∧ operandOf (immField w) f = .ok i := by
  unfold decodeWord
  cases formatOf (opField w) with
  | none => simp
  | some f => by_cases h : rsvField w = 0#16 <;> simp [h]

/-- A word with the fields of a well-formed command decodes to it. -/
theorem decodeWord_of_fields (hwf : i.wellFormed = true) (hop : opField w = opcodeOf i) (hrsv : rsvField w = 0)
    (himm : immField w = immOf i) : decodeWord w = .ok i := by
  rw [decodeWord_eq_ok, hop, himm]
  cases i with
  | putb n =>
    have hn : n.toNat ≤ 32 := of_decide_eq_true hwf
    refine ⟨_, rfl, hrsv, ?_⟩
    have himm : (n.setWidth 8).toNat = n.toNat := BitVec.toNat_setWidth_of_le (by decide)
    rw [immOf, operandOf_l, if_neg (by omega)]
    simp
  | _ => exact ⟨_, rfl, hrsv, rfl⟩

/-- A word that decodes has the fields of its command, which is well-formed. -/
theorem fields_of_decodeWord (h : decodeWord w = .ok i) :
    i.wellFormed = true ∧ opField w = opcodeOf i ∧ rsvField w = 0 ∧ immField w = immOf i := by
  obtain ⟨f, hf, hrsv, hi⟩ := decodeWord_eq_ok.1 h
  have row := formatOf_row (opField w)
  rw [hf] at row
  cases row with
  | z j _ hop hj hwf =>
    obtain ⟨himm, rfl⟩ := operandOf_z.1 hi
    exact ⟨hwf, hop.symm, hrsv, himm.trans hj.symm⟩
  | s mk _ hop himm hwf =>
    cases hi; exact ⟨hwf _, (hop _).symm, hrsv, (himm _).symm⟩
  | l hop =>
    rw [operandOf_l] at hi
    split at hi
    · nomatch hi
    · rename_i hle
      cases hi
      refine ⟨decide_eq_true ?_, BitVec.eq_of_toNat_eq hop, hrsv, BitVec.eq_of_toNat_eq ?_⟩
      · rw [BitVec.toNat_setWidth]; omega
      · rw [immOf, BitVec.toNat_setWidth, BitVec.toNat_setWidth]; omega

/-- Settles O1: the word has the fields of the command, and the decoder reads them back. -/
theorem decodeOfEncodeIsTheCommand : Obligations.DecodeOfEncodeIsTheCommand := by
  intro i hwf
  obtain ⟨hop, hrsv, himm⟩ := fields_encodeInstr i
  exact decodeWord_of_fields hwf hop hrsv himm

/-- Settles O2: the word has the fields of the command it decodes to, and so has the command's word. -/
theorem encodeOfDecodedWordIsTheWord : Obligations.EncodeOfDecodedWordIsTheWord := by
  intro w i h
  obtain ⟨hwf, hop, hrsv, himm⟩ := fields_of_decodeWord h
  obtain ⟨hop', hrsv', himm'⟩ := fields_encodeInstr i
  exact ⟨hwf, word_ext (hop'.trans hop.symm) (hrsv'.trans hrsv.symm) (himm'.trans himm.symm)⟩

/-! #### Illegal words (30 R94) -/

theorem formatOf_eq_none : formatOf op = none ↔ op.toNat ∉ opcodes := by
  have row := formatOf_row op
  generalize formatOf op = r at row
  cases row with
  | unassigned h => exact iff_of_true rfl h
  | z i h => exact iff_of_false nofun (not_not_intro ((by decide : opcodesZ ⊆ opcodes) h))
  | s mk h => exact iff_of_false nofun (not_not_intro ((by decide : [0x10, 0x42] ⊆ opcodes) h))
  | l h => exact iff_of_false nofun (not_not_intro (by rw [h]; decide))

/-- Format Z admits no operand bit, format S every operand, format L a length of at most 32. -/
theorem operandOf_error_iff (hf : formatOf op = some f) : (∃ e, operandOf imm f = .error e) ↔
    (op.toNat ∈ opcodesZ ∧ imm ≠ 0) ∨ (op.toNat = 0x41 ∧ imm.toNat > 32) := by
  have row := formatOf_row op
  rw [hf] at row
  cases row with
  | z i h =>
    have other : op.toNat ≠ 0x41 := (by decide : ∀ k ∈ opcodesZ, k ≠ 0x41) _ h
    by_cases hi : imm = 0#8 <;> simp [operandOf, h, other, hi]
  | s mk h =>
    have other : op.toNat ∉ opcodesZ ∧ op.toNat ≠ 0x41 :=
      (by decide : ∀ k ∈ [0x10, 0x42], k ∉ opcodesZ ∧ k ≠ 0x41) _ h
    simp [operandOf, other]
  | l h =>
    have other : 0x41 ∉ opcodesZ := by decide
    by_cases hi : imm.toNat > 32 <;> simp [operandOf_l, h, other, hi]

/-- The decoder's tests in a row (30 R96): the opcode, the reserved bits, the operand. -/
theorem decodeWord_error_iff : (∃ e, decodeWord w = .error e) ↔
    (opField w).toNat ∉ opcodes ∨ rsvField w ≠ 0 ∨
      ((opField w).toNat ∈ opcodesZ ∧ immField w ≠ 0) ∨
      ((opField w).toNat = 0x41 ∧ (immField w).toNat > 32) := by
  cases hf : formatOf (opField w) with
  | none => exact iff_of_true ⟨_, by rw [decodeWord, hf]⟩ (.inl (formatOf_eq_none.1 hf))
  | some f =>
    have assigned : (opField w).toNat ∈ opcodes := by
      by_contra h
      rw [formatOf_eq_none.2 h] at hf
      nomatch hf
    rw [← operandOf_error_iff hf]
    by_cases hr : rsvField w = 0#16 <;> simp [decodeWord, hf, assigned, hr]

/-- Settles O3: the tests of the decoder in the numbers of the word; `raise` sets `ERR` alone. -/
theorem illegalWordsRaiseIllegalCommand : Obligations.IllegalWordsRaiseIllegalCommand := by
  refine ⟨fun w => ?_, fun w e he s => Machine.runCommand_error he⟩
  have reserved : rsvField w ≠ 0 ↔ w.toNat / 2 ^ 8 % 2 ^ 16 ≠ 0 := by
    rw [← rsvField_toNat, BitVec.ofNat_eq_ofNat, BitVec.toNat_ne]; rfl
  have operand : immField w ≠ 0 ↔ w.toNat % 2 ^ 8 ≠ 0 := by
    rw [← immField_toNat, BitVec.ofNat_eq_ofNat, BitVec.toNat_ne]; rfl
  have tooLong : w.toNat % 2 ^ 8 > 32 ↔ w.toNat / 2 ^ 6 % 2 ^ 2 ≠ 0 ∨ w.toNat % 2 ^ 6 > 32 := by omega
  rw [decodeWord_error_iff, reserved, operand, opField_toNat, immField_toNat, tooLong]
  rfl

/-- Settles O4: each word evaluates. -/
theorem wordsOfTheTableDecode : Obligations.WordsOfTheTableDecode := by
  unfold Obligations.WordsOfTheTableDecode
  decide

end Sys2Proof

/-! ### Two runs of a command (spec/30_encoding.md R107) -/

namespace Sys2Proof.Machine

/-- Two results that are of the same kind: both successes, with values `R` relates, or both the same error. -/
inductive SameResult {α β : Type} (R : α → β → Prop) : Except ErrKind α → Except ErrKind β → Prop
  | ok {a b} (h : R a b) : SameResult R (.ok a) (.ok b)
  | error (k) : SameResult R (.error k) (.error k)

namespace SameResult

variable {α β γ δ : Type} {R : α → β → Prop} {Q : γ → δ → Prop}

/-- Two sequences of commands agree when their first commands do, and the rests do on what these leave. -/
theorem bind {x : Except ErrKind α} {y : Except ErrKind β} {f : α → Except ErrKind γ} {g : β → Except ErrKind δ}
    (h : SameResult R x y) (hfg : ∀ a b, x = .ok a → R a b → SameResult Q (f a) (g b)) :
    SameResult Q (x.bind f) (y.bind g) := by
  cases h with
  | ok h => exact hfg _ _ rfl h
  | error k => exact .error k

/-- Likewise where the first commands have the very same result. -/
theorem bind_same {x : Except ErrKind α} {f : α → Except ErrKind γ} {g : α → Except ErrKind δ}
    (hfg : ∀ a, x = .ok a → SameResult Q (f a) (g a)) : SameResult Q (x.bind f) (x.bind g) := by
  cases x with
  | ok a => exact hfg a rfl
  | error k => exact .error k

/-- The relation may be weakened on what the first command gives. -/
theorem mono {x : Except ErrKind α} {y : Except ErrKind β} {R' : α → β → Prop} (h : SameResult R x y)
    (hR : ∀ a b, x = .ok a → R a b → R' a b) : SameResult R' x y := by
  cases h with
  | ok h => exact .ok (hR _ _ rfl h)
  | error k => exact .error k

/-- A test that both runs answer alike. -/
theorem ite {c c' : Prop} [Decidable c] [Decidable c'] {x y : Except ErrKind α} {x' y' : Except ErrKind β}
    (hc : c ↔ c') (hx : c → SameResult R x x') (hy : ¬ c → SameResult R y y') :
    SameResult R (if c then x else y) (if c' then x' else y') := by
  by_cases h : c
  · rw [if_pos h, if_pos (hc.1 h)]; exact hx h
  · rw [if_neg h, if_neg (mt hc.2 h)]; exact hy h

/-- Two loops agree when each turn keeps the agreement. -/
theorem loop {S : Nat → α → β → Prop} {f : Nat → α → Except ErrKind α} {g : Nat → β → Except ErrKind β} {n : Nat}
    {a : α} {b : β} (h0 : S 0 a b)
    (hs : ∀ i c d, i < n → S i c d → SameResult (S (i + 1)) (f i c) (g i d)) :
    SameResult (S n) (loop n f a) (loop n g b) := by
  induction n with
  | zero => exact .ok h0
  | succ n ih =>
    rw [loop_succ, loop_succ]
    exact (ih fun i c d hi => hs i c d (by omega)).bind fun c d _ h => hs n c d (Nat.lt_succ_self n) h

/-- Two commands that agree are both committed or both raise the same kind. -/
theorem finish {R : State → State → Prop} {s s' t t' : State} {r r' : Except ErrKind State} (h : SameResult R r r')
    (ht : finish s r = .next t) (ht' : finish s' r' = .next t') :
    (∃ u u', R u u' ∧ t = { u with err := 0 } ∧ t' = { u' with err := 0 }) ∨
      ∃ k, t = raise k s ∧ t' = raise k s' := by
  cases h with
  | ok h => cases ht; cases ht'; exact .inl ⟨_, _, h, rfl, rfl⟩
  | error k => cases ht; cases ht'; exact .inr ⟨k, rfl, rfl⟩

end SameResult

/-- Loops of the same turns are the same. -/
theorem loop_congr {σ : Type} {f g : Nat → σ → Except ErrKind σ} {n : Nat} (h : ∀ i, i < n → f i = g i) (a : σ) :
    loop n f a = loop n g a := by
  induction n with
  | zero => rfl
  | succ n ih => rw [loop_succ, loop_succ, ih fun i hi => h i (by omega), h n (Nat.lt_succ_self n)]

variable {p : Params} {s s' t : State} {n : Nat}

/-! #### `PARSE` -/

/-- The same container: the same `CONLEN` and the same bytes below it. -/
structure SameContainer (p : Params) (s s' : State) : Prop where
  conlen : s'.conlen = s.conlen
  bytes : ∀ a, a < s.conlen.toNat → conByte p s' a = conByte p s a

theorem SameContainer.conBytes (h : SameContainer p s s') {a : Nat} (ha : a + n ≤ s.conlen.toNat) :
    conBytes p s' a n = conBytes p s a n :=
  conBytes_congr fun i _ hi => h.bytes i (by omega)

/-- The fixed fields lie in the first 15 bytes (30 R100). -/
theorem SameContainer.fields (h : SameContainer p s s') (h15 : 15 ≤ s.conlen.toNat) :
    hdrWidth p s' = hdrWidth p s ∧ hdrHeight p s' = hdrHeight p s ∧ hdrLayout p s' = hdrLayout p s ∧
      hdrCount p s' = hdrCount p s :=
  ⟨congrArg leVal (h.conBytes (by omega)), congrArg leVal (h.conBytes (by omega)),
    congrArg leVal (h.conBytes (by omega)), congrArg leVal (h.conBytes (by omega))⟩

/-- Every byte of a pair lies below the payload. -/
theorem SameContainer.parsePairs (h : SameContainer p s s') (hn : payloadOffset n ≤ s.conlen.toNat) :
    parsePairs p s' n = parsePairs p s n := by
  unfold payloadOffset at hn
  refine loop_congr (fun j hj => funext fun a => ?_) _
  have sym : pairSym p s' j = pairSym p s j := h.bytes _ (by omega)
  have len : pairLen p s' j = pairLen p s j := h.bytes _ (by omega)
  unfold parsePair
  rw [sym, len]

/-- What `PARSE` loads of a container, and the bytes of the stream it points the reader at. -/
structure SameHeader (p : Params) (s s' : State) : Prop where
  width : s'.width = s.width
  height : s'.height = s.height
  layout : s'.layout = s.layout
  len : s'.len = s.len
  rbase : s'.rbase = s.rbase
  rvalid : s'.rvalid = s.rvalid
  rpos : s'.rpos = s.rpos
  rdata : s'.rdata = s.rdata
  stream : ∀ q, q < s.rvalid.toNat → conByte p s' (readerAddr s q) = conByte p s (readerAddr s q)

theorem SameHeader.lenOf (h : SameHeader p s s') : lenOf s' = lenOf s := by
  unfold Machine.lenOf; rw [h.len]

theorem SameHeader.sampleTotal (h : SameHeader p s s') : sampleTotal s' = sampleTotal s := by
  unfold Machine.sampleTotal; rw [h.width, h.height, h.layout]

/-- The payload that `PARSE` admits ends at or below `CONLEN`. -/
theorem parseLoad_stream_lt {l : Table 8} (hn : payloadOffset n ≤ s.conlen.toNat) (h : parseLoad p s n l = .ok t)
    {q : Nat} (hq : q < t.rvalid.toNat) : readerAddr t q < s.conlen.toNat := by
  obtain ⟨whole, rfl⟩ := parseLoad_ok h
  have valid : q < hdrBits p s n := hq.trans_le (by simpa using Nat.mod_le _ _)
  have base : (BitVec.ofNat 64 (payloadOffset n)).toNat ≤ payloadOffset n := by simpa using Nat.mod_le _ _
  simp only [readerAddr]
  unfold ceil8 at whole
  omega

/-- The end of `PARSE`: the valid-bit count and the payload test. -/
theorem SameContainer.parseLoad (h : SameContainer p s s') (hn : payloadOffset n ≤ s.conlen.toNat) (l : Table 8) :
    SameResult (SameHeader p) (parseLoad p s n l) (parseLoad p s' n l) := by
  have hn' : 23 + 2 * n ≤ s.conlen.toNat := hn
  obtain ⟨width, height, layout, -⟩ := h.fields (by omega)
  have bits : hdrBits p s' n = hdrBits p s n := congrArg leVal (h.conBytes (by omega))
  unfold Machine.parseLoad
  rw [h.conlen, width, height, layout, bits]
  exact .ite Iff.rfl (fun _ => .error _) fun whole => .ok ⟨rfl, rfl, rfl, rfl, rfl, rfl, rfl, rfl,
    fun q hq => h.bytes _ (parseLoad_stream_lt hn (if_neg whole) hq)⟩

/-- `PARSE` reads `CONLEN` and no byte at or above it. -/
theorem SameContainer.parseCmd (h : SameContainer p s s') :
    SameResult (SameHeader p) (parseCmd p s) (parseCmd p s') := by
  unfold Machine.parseCmd
  rw [h.conlen]
  refine .ite Iff.rfl (fun _ => .error _) fun _ => ?_
  refine .ite (or_congr_right' fun h4 => ?_) (fun _ => .error _) fun _ => ?_
  · rw [h.conBytes (by omega)]
  refine .ite Iff.rfl (fun _ => .error _) fun h15 => ?_
  obtain ⟨width, height, layout, count⟩ := h.fields (by omega)
  rw [width, height, layout, count]
  refine .bind_same fun total _ => ?_
  refine .ite Iff.rfl (fun _ => .error _) fun _ => ?_
  refine .ite Iff.rfl (fun _ => .error _) fun _ => ?_
  refine .ite Iff.rfl (fun _ => .error _) fun hn => ?_
  have hn : payloadOffset (hdrCount p s) ≤ s.conlen.toNat := Nat.le_of_not_lt hn
  rw [h.parsePairs hn]
  exact .bind_same fun a _ => h.parseLoad hn a.1

/-- `PARSE` admits no image with more samples than `PIX` holds (46 R235). -/
theorem parseCmd_sampleTotal_le (h : parseCmd p s = .ok t) : sampleTotal t ≤ p.maxSamples := by
  obtain ⟨-, -, -, -, -, bound, -, -, -, _, -, load⟩ := parseCmd_ok h
  obtain ⟨-, rfl⟩ := parseLoad_ok load
  refine le_trans ?_ bound
  simp only [sampleTotal, BitVec.toNat_ofNat]
  gcongr <;> exact Nat.mod_le _ _

/-! #### `ASSIGN` and `GETS` -/

/-- The same header under the same code: what `GETS` reads. -/
structure SameCode (p : Params) (s s' : State) : Prop extends SameHeader p s s' where
  cv : s'.cv = s.cv
  code : s'.code = s.code

/-- `ASSIGN` reads the lengths only. -/
theorem SameHeader.assignCmd (h : SameHeader p s s') : SameResult (SameCode p) (assignCmd s) (assignCmd s') := by
  unfold Machine.assignCmd
  rw [h.lenOf]
  split
  · exact .error _
  · split
    · exact .error _
    · exact .ok { h with cv := rfl, code := rfl, stream := h.stream }

theorem SameCode.readBit (h : SameCode p s s') (q : Nat) : readBit p s' q = readBit p s q :=
  readBit_congr h.rbase h.rvalid (h.stream q)

theorem SameCode.leafAt (h : SameCode p s s') : leafAt s' = leafAt s := by
  unfold Machine.leafAt codeOf; rw [h.lenOf, h.code]

theorem SameCode.innerAt (h : SameCode p s s') : innerAt s' = innerAt s := by
  unfold Machine.innerAt codeOf; rw [h.lenOf, h.code]

/-- The walk of `GETS` goes the same way. -/
theorem SameCode.walk (h : SameCode p s s') (fuel k v : Nat) : walk p s' fuel k v = walk p s fuel k v := by
  induction fuel generalizing k v with
  | zero => rfl
  | succ fuel ih => simp only [Machine.walk, h.rpos, h.readBit, h.leafAt, h.innerAt, ih]

/-- The same code, and the same first `n` samples of `PIX`. -/
structure SameSamples (p : Params) (n : Nat) (s s' : State) : Prop extends SameCode p s s' where
  samples : ∀ a, a < n → pixByte p s' a = pixByte p s a

/-- `GETS` reads the code, the reader's registers and the bits it walks over, and leaves `PIX`. -/
theorem SameSamples.getsCmd (h : SameSamples p n s s') :
    SameResult (SameSamples p n) (getsCmd p s) (getsCmd p s') := by
  unfold Machine.getsCmd
  refine .ite (by rw [h.cv]) (fun _ => .error _) fun _ => ?_
  rw [h.walk, h.rpos]
  exact .bind_same fun r _ => .ok { h with rpos := rfl, rdata := rfl, stream := h.stream, samples := h.samples }

/-- The store of the sample read. -/
theorem SameSamples.store (h : SameSamples p n s s') (hn : n < p.maxSamples) :
    SameSamples p (n + 1) (setPix p s n s.rdata) (setPix p s' n s'.rdata) := by
  have samples : ∀ a, a < n + 1 →
      pixByte p (setPix p s' n s'.rdata) a = pixByte p (setPix p s n s.rdata) a := by
    intro a ha
    rw [pixByte_setPix hn, pixByte_setPix hn, h.rdata]
    split
    · rfl
    · exact h.samples a (by omega)
  unfold setPix at samples ⊢
  rw [if_pos hn, if_pos hn] at samples ⊢
  exact { h with stream := h.stream, samples }

/-- The loop of `DECODE` reads the same samples, as many as `PIX` holds. -/
theorem SameCode.getImage (h : SameCode p s s') (hn : n ≤ p.maxSamples) :
    SameResult (SameSamples p n) (getImage p n s) (getImage p n s') := by
  refine .loop (S := SameSamples p) { h with samples := nofun } fun i c d hi hcd => ?_
  exact hcd.getsCmd.bind fun u v _ huv => .ok (huv.store (hi.trans_le hn))

/-- `DECODE` on the same container ends alike, on success with the same code, reader registers and image. -/
theorem SameContainer.decodeCmd (h : SameContainer p s s') :
    SameResult (fun t t' => SameSamples p (sampleTotal t) t t') (decodeCmd p s) (decodeCmd p s') := by
  refine h.parseCmd.bind fun u u' hu header => header.assignCmd.bind fun v v' hv code => ?_
  have total : sampleTotal v = sampleTotal u := by obtain ⟨-, -, rfl⟩ := assignCmd_ok hv; rfl
  have bound : sampleTotal v ≤ p.maxSamples := total ▸ parseCmd_sampleTotal_le hu
  have total' : sampleTotal v' = sampleTotal v := code.sampleTotal
  change SameResult _ (Machine.getImage p (sampleTotal v) v) (Machine.getImage p (sampleTotal v') v')
  rw [total']
  refine (code.getImage bound).mono fun t t' ht samples => ?_
  rwa [show sampleTotal t = sampleTotal v by rw [(samplesStored_getImage ht).others]; rfl]

/-- Settles O57: `DECODE` in two states with the same container ends alike, command by command and sample by sample. -/
theorem decodeDependsOnTheContainerOnly : Obligations.DecodeDependsOnTheContainerOnly := by
  intro s s' t t' hc hb ht ht'
  have same : SameContainer Config.params s s' := ⟨hc.symm, fun a ha => (hb a ha).symm⟩
  rw [exec_eq_finish] at ht ht'
  rcases same.decodeCmd.finish ht ht' with ⟨u, u', h, rfl, rfl⟩ | ⟨k, rfl, rfl⟩
  · refine ⟨rfl, fun _ => ⟨h.width.symm, h.height.symm, h.layout.symm, h.len.symm, h.code.symm, h.rbase.symm,
      h.rvalid.symm, h.rpos.symm, h.rdata.symm, ?_⟩⟩
    exact List.map_congr_left fun a ha => (h.samples a (List.mem_range.1 ha)).symm
  · exact ⟨rfl, fun h0 => absurd h0 (raise_err_ne_zero k s)⟩

end Sys2Proof.Machine

/-! ### The commands that set registers and cannot fail (spec/40_control.md; 44 R192, 45 R212) -/

namespace Sys2Proof.Machine

/-- 40 R130: the result of `NOP` is the state itself, so only the commit of `ERR` shows. -/
theorem exec_nop (s : State) : exec .nop s = .next { s with err := 0 } := by
  rw [exec_eq_finish, resultOf, finish_ok]

/-- 40 R131: the cleared block has `ERR` 0 already, so the commit leaves it as it is. -/
theorem exec_clr (s : State) : exec .clr s = .next (clearBlock s) := by
  have committed : { clearBlock s with err := 0 } = clearBlock s := rfl
  rw [exec_eq_finish, resultOf, finish_ok, committed]

/-- 44 R192. -/
theorem exec_winit (s : State) : exec .winit s = .next { writerInit s with err := 0 } := by
  rw [exec_eq_finish, resultOf, finish_ok]

/-- 45 R212. -/
theorem exec_rinit (s : State) : exec .rinit s = .next { readerInit s with err := 0 } := by
  rw [exec_eq_finish, resultOf, finish_ok]

/-- Settles O21: each command is the commit of its function on the state; `clearBlock`, `writerInit` and `readerInit`
are the records the statement writes out. -/
theorem controlCommandsEffect : Obligations.ControlCommandsEffect := by
  intro s
  refine ⟨exec_nop s, ?clr, ?winit, ?rinit⟩
  case clr => rw [exec_clr]; rfl
  case winit => rw [exec_winit]; rfl
  case rinit => rw [exec_rinit]; rfl

end Sys2Proof.Machine

/-! PROOFS of the family `41_symbol_statistics.md`: the exact counts that `ACC` and `STAT` leave, and when they refuse. -/

/-! ### A command from its result (spec/60_exceptions.md R273) -/

namespace Sys2Proof.Machine

variable {i : Instr} {s t : State} {k : ErrKind}

theorem exec_of_resultOf_ok (h : resultOf i s = .ok t) : exec i s = .next { t with err := 0 } := by
  rw [exec_eq_finish, h, finish_ok]

theorem exec_of_resultOf_error (h : resultOf i s = .error k) : exec i s = .next (raise k s) := by
  rw [exec_eq_finish, h, finish_error]

end Sys2Proof.Machine

/-! ### `ACC`, once and in sequence (spec/41_symbol_statistics.md R140 to R142) -/

namespace Sys2Proof.Machine

variable {p : Params} {s t u : State} {x : Sym}

/-- What an accepted `ACC x` does: one count and `TOTAL` grow by 1 as naturals (R142), and only `ERR` changes beside
them. -/
structure SymbolCounted (x : Sym) (s t : State) : Prop where
  others : t = { s with freq := t.freq, total := t.total, err := 0 }
  total : t.total.toNat = s.total.toNat + 1
  freq : ∀ y, freqOf t y = if y = x then freqOf s y + 1 else freqOf s y

/-- Under the counts law no count passes `TOTAL`, so none can wrap. -/
theorem CountsOk.freqOf_le (h : CountsOk p s) (y : Sym) : freqOf s y ≤ s.total.toNat :=
  h.1 ▸ le_sumSyms (freqOf s) y

/-- Below the bound `ACC` is accepted. -/
theorem accCmd_of_below (below : s.total.toNat ≠ p.maxSamples) (x : Sym) : ∃ t, accCmd p x s = .ok t :=
  ⟨_, if_neg below⟩

theorem symbolCounted_accCmd (h : CountsOk p s) (ht : accCmd p x s = .ok t) :
    SymbolCounted x s { t with err := 0 } := by
  obtain ⟨below, rfl⟩ := accCmd_ok ht
  have noWrap : s.total.toNat + 1 < 2 ^ 32 := by
    have := h.2
    have := maxSamples_lt p
    omega
  have total : (s.total + 1).toNat = s.total.toNat + 1 := BitVec.toNat_add_of_lt noWrap
  refine ⟨rfl, total, fun y => ?_⟩
  by_cases hy : y = x
  · subst hy
    have count : freqOf s y + 1 < 2 ^ 32 := (Nat.succ_le_succ (h.freqOf_le y)).trans_lt noWrap
    simpa [freqOf] using BitVec.toNat_add_of_lt (x := tableGet s.freq y) (y := 1) count
  · simp [freqOf, hy, tableGet_tableSet_ne _ _ (Ne.symm hy)]

/-- R141 below the bound: the symbol is counted, and the counts law holds on. -/
theorem exec_acc (h : CountsOk Config.params s) (below : s.total.toNat ≠ Config.params.maxSamples) (x : Sym) :
    ∃ t, exec (.acc x) s = .next t ∧ CountsOk Config.params t ∧ SymbolCounted x s t := by
  obtain ⟨t, accepted⟩ := accCmd_of_below below x
  have counts := countsOk_accCmd h accepted
  exact ⟨_, exec_of_resultOf_ok accepted, counts, symbolCounted_accCmd h accepted⟩

/-- R141 at the bound. -/
theorem exec_acc_full (full : s.total.toNat = Config.params.maxSamples) (x : Sym) :
    exec (.acc x) s = .next { s with err := 5 } :=
  exec_of_resultOf_error (k := .dimensionOverflow) (if_pos full)

/-- Settles O22: the two branches of `ACC`. -/
theorem accCountsOneSymbol : Obligations.AccCountsOneSymbol := by
  intro s x h
  refine ⟨fun below => ?_, fun full => exec_acc_full full x⟩
  obtain ⟨t, ht, -, counted⟩ := exec_acc h below x
  exact ⟨t, ht, counted.others, counted.total, counted.freq⟩

/-- What a sequence of accepted `ACC` does: each count grows by how often its symbol occurs in it. -/
structure SequenceCounted (xs : List Sym) (s t : State) : Prop where
  total : t.total.toNat = s.total.toNat + xs.length
  freq : ∀ y, freqOf t y = freqOf s y + xs.count y

theorem SequenceCounted.nil (s : State) : SequenceCounted [] s s := ⟨rfl, fun _ => rfl⟩

theorem SequenceCounted.cons {xs : List Sym} (h : SymbolCounted x s t) (h' : SequenceCounted xs t u) :
    SequenceCounted (x :: xs) s u := by
  refine ⟨?_, fun y => ?_⟩
  · rw [h'.total, h.total, List.length_cons]; omega
  · rw [h'.freq, h.freq]
    by_cases hy : y = x
    · subst hy
      rw [if_pos rfl, List.count_cons_self]; omega
    · rw [if_neg hy, List.count_cons_of_ne (Ne.symm hy)]

theorem execAll_cons {i : Instr} {is : List Instr} (h : exec i s = .next t) : execAll (i :: is) s = execAll is t := by
  rw [execAll, h]

/-- From any counts that leave room for the sequence, every `ACC` of it is accepted. -/
theorem execAll_acc {xs : List Sym} (h : CountsOk Config.params s) (ok : s.err = 0)
    (room : s.total.toNat + xs.length ≤ Config.params.maxSamples) :
    ∃ t, execAll (xs.map .acc) s = .next t ∧ t.err = 0 ∧ SequenceCounted xs s t := by
  induction xs generalizing s with
  | nil => exact ⟨s, rfl, ok, .nil s⟩
  | cons x xs ih =>
    rw [List.length_cons] at room
    obtain ⟨t, ht, counts, counted⟩ := exec_acc h (by omega) x
    have committed : t.err = 0 := by rw [counted.others]
    obtain ⟨u, hu, done, rest⟩ := ih counts committed (by rw [counted.total]; omega)
    exact ⟨u, by rw [List.map_cons, execAll_cons ht, hu], done, rest.cons counted⟩

@[simp] theorem freqOf_clearBlock (s : State) (y : Sym) : freqOf (clearBlock s) y = 0 :=
  congrArg BitVec.toNat (tableGet_tableZero 32 y)

theorem countsOk_clearBlock (p : Params) (s : State) : CountsOk p (clearBlock s) :=
  countsOk_iff.2 ⟨tableSum_zero.symm, Nat.zero_le _⟩

/-- Settles O23: `CLR` leaves counts of 0 that meet the counts law, and the sequence is counted from there. -/
theorem accSequenceCountsItsSymbols : Obligations.AccSequenceCountsItsSymbols := by
  intro s xs bound
  have cleared : (clearBlock s).total.toNat = 0 := rfl
  obtain ⟨t, ht, ok, counted⟩ := execAll_acc (xs := xs) (countsOk_clearBlock _ s) rfl (by rwa [cleared, Nat.zero_add])
  refine ⟨t, by rw [execAll_cons (exec_clr s), ht], ok, ?_, fun y => ?_⟩
  · rw [counted.total, cleared, Nat.zero_add]
  · rw [counted.freq, freqOf_clearBlock, Nat.zero_add]

end Sys2Proof.Machine

/-! ### `STAT` (spec/41_symbol_statistics.md R143) -/

namespace Sys2Proof.Machine

variable {p : Params} {s t : State}

/-- `STAT` counts where the sample count is admitted and not 0. -/
theorem statCmd_of_image (layout : legalLayout s.layout.toNat) (bound : sampleTotal s ≤ p.maxSamples)
    (nonempty : sampleTotal s ≠ 0) : statCmd p s =
      .ok { s with freq := countPix p s (sampleTotal s), total := BitVec.ofNat 32 (sampleTotal s) } := by
  rw [statCmd, imageCount_ok.2 ⟨layout, bound, rfl⟩, ok_bind, if_neg nonempty]

theorem statCmd_of_illegalLayout (illegal : ¬ legalLayout s.layout.toNat) : statCmd p s = .error .formatMismatch := by
  rw [statCmd, imageCount, sampleCount_error.2 (.inl ⟨illegal, rfl⟩), error_bind]

theorem statCmd_of_large (layout : legalLayout s.layout.toNat) (large : sampleTotal s > p.maxSamples) :
    statCmd p s = .error .dimensionOverflow := by
  rw [statCmd, imageCount, sampleCount_error.2 (.inr ⟨layout, large, rfl⟩), error_bind]

theorem statCmd_of_empty (layout : legalLayout s.layout.toNat) (empty : sampleTotal s = 0) :
    statCmd p s = .error .emptyInput := by
  have bound : sampleTotal s ≤ p.maxSamples := empty ▸ Nat.zero_le _
  rw [statCmd, imageCount_ok.2 ⟨layout, bound, rfl⟩, ok_bind, if_pos empty]

theorem statCmd_total (h : statCmd p s = .ok t) : t.total.toNat = sampleTotal s := by
  obtain ⟨-, bound, -, rfl⟩ := statCmd_ok h
  exact Nat.mod_eq_of_lt (bound.trans_lt (maxSamples_lt p))

/-- Settles O24: the image that `STAT` counts, then its three refusals. -/
theorem statCountsTheImage : Obligations.StatCountsTheImage := by
  intro s
  refine ⟨fun layout bound nonempty => ?counts, fun illegal => ?illegal, fun layout large => ?large,
    fun layout empty => ?empty⟩
  case counts =>
    have counted := statCmd_of_image layout bound nonempty
    have freq := statCmd_counts counted
    have total := statCmd_total counted
    exact ⟨_, exec_of_resultOf_ok counted, rfl, total, freq⟩
  case illegal => exact exec_of_resultOf_error (i := .stat) (statCmd_of_illegalLayout illegal)
  case large => exact exec_of_resultOf_error (i := .stat) (statCmd_of_large layout large)
  case empty => exact exec_of_resultOf_error (i := .stat) (statCmd_of_empty layout empty)

end Sys2Proof.Machine

/-! PROOFS of the family `42_tree_builder.md`: the tree that `BUILD` makes, and the lengths it reads off it. -/

/-! ### What every merge keeps of the pool (spec/42_tree_builder.md R152, R153) -/

namespace Sys2Proof.Machine

variable {f : Sym → Nat} {next k : Nat} {pool : List PoolItem}

/-- A sum over the symbols needs only the present ones, in any order. -/
theorem sumSyms_eq_sum_map {g : Sym → Nat} {l : List Sym} (hl : l.Perm (presentSyms f))
    (absent : ∀ x, f x = 0 → g x = 0) : sumSyms g = (l.map g).sum := by
  rw [sumSyms_eq_sum, ← List.sum_toFinset g (hl.nodup_iff.2 (presentSyms_nodup f))]
  refine (Finset.sum_subset (Finset.subset_univ _) fun x _ hx => absent x ?_).symm
  by_contra present
  exact hx (List.mem_toFinset.2 (hl.mem_iff.2 (mem_presentSyms.2 present)))

/-- The symbols under the items of a pool. -/
def poolSyms (pool : List PoolItem) : List Sym := pool.flatMap fun c => symsUnder c.tree

theorem mem_poolSyms {c : PoolItem} {x : Sym} (hc : c ∈ pool) (hx : x ∈ symsUnder c.tree) : x ∈ poolSyms pool :=
  List.mem_flatMap.2 ⟨c, hc, hx⟩

/-- A pool of the counts `f`, whose next node takes the index `next`. -/
structure PoolOf (f : Sym → Nat) (next : Nat) (pool : List PoolItem) : Prop where
  indices : IndicesBelow next pool
  weight : (pool.map PoolItem.weight).sum = sumSyms f
  syms : (poolSyms pool).Perm (presentSyms f)

theorem PoolOf.nodup (h : PoolOf f next pool) : (poolSyms pool).Nodup := h.syms.nodup_iff.2 (presentSyms_nodup f)

/-- The leaves that R152 starts from. -/
theorem poolOf_leafItems (f : Sym → Nat) :
    PoolOf f (presentSyms f).length (leafItems f 0 (presentSyms f)) where
  indices := leafItems_indices f _
  weight := by rw [leafItems_weights, sumSyms_eq_sum_map (List.Perm.refl _) fun _ h => h]
  syms := by rw [poolSyms, leafItems_trees]

theorem PoolOf.mergeOnce (h : PoolOf f next pool) : PoolOf f (next + 1) (mergeOnce next pool) where
  indices := mergeOnce_indices h.indices
  weight := (mergeOnce_weight next pool).trans h.weight
  syms := (mergeOnce_syms next pool).trans h.syms

theorem poolAfter_succ (f : Sym → Nat) (k : Nat) :
    poolAfter f (k + 1) = mergeOnce ((presentSyms f).length + k) (poolAfter f k) := mergePool_succ _ _ _

theorem poolOf_poolAfter (f : Sym → Nat) (k : Nat) : PoolOf f ((presentSyms f).length + k) (poolAfter f k) := by
  induction k with
  | zero => exact poolOf_leafItems f
  | succ k ih => rw [poolAfter_succ]; exact ih.mergeOnce

/-- Each merge leaves one item fewer. -/
theorem poolAfter_length (hk : k < (presentSyms f).length) :
    (poolAfter f k).length = (presentSyms f).length - k := by
  induction k with
  | zero => exact leafItems_length f 0 _
  | succ k ih =>
    have before := ih (by omega)
    rw [poolAfter_succ, mergeOnce_length _ (by omega), before]
    omega

theorem leafItems_eq_map_zipIdx (f : Sym → Nat) (next : Nat) (l : List Sym) :
    leafItems f next l = (l.zipIdx next).map fun e => { weight := f e.1, index := e.2, tree := .leaf e.1 } := by
  induction l generalizing next with
  | nil => rfl
  | cons x xs ih => rw [leafItems, ih, List.zipIdx_cons, List.map_cons]

/-- One merge: `a` has the least key, `b` the least of the others, and `rest` stays beside their node (R152). -/
structure Merge (next : Nat) (pool : List PoolItem) (a b : PoolItem) (rest : List PoolItem) : Prop where
  perm : pool.Perm (a :: b :: rest)
  result : mergeOnce next pool = mergeItems next a b :: rest
  merged : mergedSyms pool = symsUnder a.tree ++ symsUnder b.tree
  least : ∀ c ∈ b :: rest, keyBefore a c
  second : ∀ c ∈ rest, keyBefore b c

/-- With distinct indices the two least keys are unique. -/
theorem PoolOf.merge (h : PoolOf f next pool) (two : 2 ≤ pool.length) : ∃ a b rest, Merge next pool a b rest := by
  rcases mergeOnce_cases next pool with ⟨rfl, -⟩ | ⟨a, rfl, -⟩ | ⟨a, b, rest, perm, result, merged, least, second⟩
  · simp at two
  · simp at two
  · have distinct : ((a :: b :: rest).map PoolItem.index).Nodup := (perm.map _).nodup_iff.1 h.indices.1
    simp only [List.map_cons, List.nodup_cons] at distinct
    obtain ⟨indexA, indexB, -⟩ := distinct
    refine ⟨a, b, rest, perm, result, merged, fun c hc => ?_, fun c hc => ?_⟩
    · exact keyBefore_of_least (least c (perm.mem_iff.2 (List.mem_cons_of_mem a hc)))
        fun e => indexA (e ▸ List.mem_map_of_mem (f := PoolItem.index) hc)
    · exact keyBefore_of_least (second c (List.mem_cons_of_mem b hc))
        fun e => indexB (e ▸ List.mem_map_of_mem (f := PoolItem.index) hc)

/-! ### The root (spec/42_tree_builder.md R152, R156(a)) -/

/-- The root of the tree of `f`. -/
structure RootOf (f : Sym → Nat) (root : PoolItem) : Prop where
  pool : rootPool f = [root]
  weight : root.weight = sumSyms f
  syms : (symsUnder root.tree).Perm (presentSyms f)
  inner : innerCount root.tree + 1 = (presentSyms f).length

theorem exists_rootOf (h : presentSyms f ≠ []) : ∃ root, RootOf f root := by
  have present := List.length_pos_iff.2 h
  have one : (rootPool f).length = 1 := by
    rw [show rootPool f = poolAfter f _ from rfl, poolAfter_length (by omega)]; omega
  obtain ⟨root, pool⟩ := List.length_eq_one_iff.1 one
  have kept : PoolOf f _ (rootPool f) := poolOf_poolAfter f _
  rw [pool] at kept
  have syms : (symsUnder root.tree).Perm (presentSyms f) := by simpa [poolSyms] using kept.syms
  exact ⟨root, pool, by simpa using kept.weight, syms, by rw [innerCount_add_one, syms.length_eq]⟩

/-! ### The lengths are the depths under the root (spec/42_tree_builder.md R152, R154) -/

variable {root : PoolItem} {x y : Sym} {d : Nat}

theorem presentSyms_cases (f : Sym → Nat) :
    presentSyms f = [] ∨ (∃ y, presentSyms f = [y]) ∨ 2 ≤ (presentSyms f).length := by
  rcases presentSyms f with _ | ⟨y, _ | ⟨z, l⟩⟩
  · exact .inl rfl
  · exact .inr (.inl ⟨y, rfl⟩)
  · exact .inr (.inr (by simp))

theorem huffmanLengths_of_empty (h : presentSyms f = []) : huffmanLengths f x = 0 := by
  have pool : rootPool f = [] := by rw [rootPool, h]; rfl
  rw [huffmanLengths, pool]

/-- R154. -/
theorem huffmanLengths_of_lone (h : presentSyms f = [y]) : huffmanLengths f x = if x = y then 1 else 0 := by
  have pool : rootPool f = [{ weight := f y, index := 0, tree := .leaf y }] := by rw [rootPool, h]; rfl
  rw [huffmanLengths, pool]

/-- Two or more symbols make the root an internal node, and the lengths a look-up among its leaves. -/
theorem RootOf.huffmanLengths_eq_lookup (h : RootOf f root) (two : 2 ≤ (presentSyms f).length) (x : Sym) :
    huffmanLengths f x = ((leafDepths root.tree 0).lookup x).getD 0 := by
  rcases ht : root.tree with y | ⟨l, r⟩
  · have := h.inner
    rw [ht, innerCount] at this
    omega
  · rw [huffmanLengths, h.pool]
    simp only [ht]

/-- No symbol stands at two leaves. -/
theorem RootOf.lookup_leafDepths (h : RootOf f root) (hd : (x, d) ∈ leafDepths root.tree 0) :
    (leafDepths root.tree 0).lookup x = some d := by
  have distinct : ((leafDepths root.tree 0).map Prod.fst).Nodup := by
    rw [leafDepths_keys]; exact h.syms.nodup_iff.2 (presentSyms_nodup f)
  obtain ⟨before, after, split⟩ := List.append_of_mem hd
  rw [split, List.map_append, List.nodup_append] at distinct
  obtain ⟨-, -, apart⟩ := distinct
  refine List.lookup_eq_some_iff.2 ⟨before, after, split, fun e he => ?_⟩
  have other : e.1 ≠ x := apart _ (List.mem_map_of_mem he) x (by simp)
  simpa using Ne.symm other

theorem RootOf.huffmanLengths_of_mem (h : RootOf f root) (two : 2 ≤ (presentSyms f).length)
    (hd : (x, d) ∈ leafDepths root.tree 0) : huffmanLengths f x = d := by
  rw [h.huffmanLengths_eq_lookup two, h.lookup_leafDepths hd, Option.getD_some]

theorem RootOf.exists_leaf (h : RootOf f root) (present : f x ≠ 0) : ∃ d, (x, d) ∈ leafDepths root.tree 0 := by
  have under : x ∈ (leafDepths root.tree 0).map Prod.fst := by
    rw [leafDepths_keys]; exact h.syms.mem_iff.2 (mem_presentSyms.2 present)
  obtain ⟨⟨_, d⟩, hd, rfl⟩ := List.mem_map.1 under
  exact ⟨d, hd⟩

/-- Settles O26: the frozen statement's parts are the leaves, the merge with its tie-break, and the root. -/
theorem huffmanTreeShape : Obligations.HuffmanTreeShape := by
  intro f present
  refine ⟨presentSyms_sorted f, fun x => mem_presentSyms, leafItems_eq_map_zipIdx f 0 _, ?merge, rfl, ?depth, ?root⟩
  case merge =>
    intro k hk
    have length := poolAfter_length (f := f) (k := k) (by omega)
    obtain ⟨a, b, rest, m⟩ := (poolOf_poolAfter f k).merge (by omega)
    exact ⟨a, b, rest, m.perm, m.least, m.second, by rw [poolAfter_succ, m.result]; exact .refl _⟩
  case depth =>
    obtain ⟨root, h⟩ := exists_rootOf present
    intro root' pool two x d hd
    obtain rfl : root = root' := List.singleton_inj.1 (h.pool.symm.trans pool)
    exact h.huffmanLengths_of_mem two hd
  case root =>
    obtain ⟨root, h⟩ := exists_rootOf present
    exact ⟨root, h.pool, h.weight, h.syms, h.inner⟩

/-! ### Bounds (spec/42_tree_builder.md R151(c), R154, R156(c)) -/

theorem exists_rootOf_of_two (two : 2 ≤ (presentSyms f).length) : ∃ root, RootOf f root :=
  exists_rootOf fun h => by rw [h] at two; simp at two

/-- Under an internal node every leaf has depth at least 1, and at most the number of internal nodes. -/
theorem RootOf.leaf_depth (h : RootOf f root) (two : 2 ≤ (presentSyms f).length) {e : Sym × Nat}
    (he : e ∈ leafDepths root.tree 0) : 1 ≤ e.2 ∧ e.2 ≤ (presentSyms f).length - 1 := by
  have inner := h.inner
  have most := (leafDepths_bound root.tree 0 e he).2
  refine ⟨?_, by omega⟩
  rcases ht : root.tree with y | ⟨l, r⟩
  · rw [ht, innerCount] at inner; omega
  · rw [ht, leafDepths] at he
    rcases List.mem_append.1 he with he | he
    · exact (leafDepths_bound l 1 e he).1
    · exact (leafDepths_bound r 1 e he).1

theorem huffmanLengths_of_absent (absent : f x = 0) : huffmanLengths f x = 0 := by
  have notPresent : x ∉ presentSyms f := fun h => mem_presentSyms.1 h absent
  rcases presentSyms_cases f with none | ⟨y, lone⟩ | two
  · exact huffmanLengths_of_empty none
  · rw [lone, List.mem_singleton] at notPresent
    rw [huffmanLengths_of_lone lone, if_neg notPresent]
  · obtain ⟨root, h⟩ := exists_rootOf_of_two two
    have noLeaf : (leafDepths root.tree 0).lookup x = none := by
      refine List.lookup_eq_none_iff.2 fun e he => ?_
      have other : x ≠ e.1 := fun hx => notPresent <| h.syms.mem_iff.1 <| by
        rw [← leafDepths_keys root.tree 0, hx]; exact List.mem_map_of_mem he
      simpa using other
    rw [h.huffmanLengths_eq_lookup two, noLeaf, Option.getD_none]

theorem huffmanLengths_of_present (two : 2 ≤ (presentSyms f).length) (present : f x ≠ 0) :
    1 ≤ huffmanLengths f x ∧ huffmanLengths f x ≤ (presentSyms f).length - 1 := by
  obtain ⟨root, h⟩ := exists_rootOf_of_two two
  obtain ⟨d, hd⟩ := h.exists_leaf present
  rw [h.huffmanLengths_of_mem two hd]
  exact h.leaf_depth two hd

theorem huffmanLengths_le (two : 2 ≤ (presentSyms f).length) (x : Sym) :
    huffmanLengths f x ≤ (presentSyms f).length - 1 := by
  by_cases hx : f x = 0
  · rw [huffmanLengths_of_absent hx]; exact Nat.zero_le _
  · exact (huffmanLengths_of_present two hx).2

theorem huffmanLengths_of_lone_present (one : (presentSyms f).length = 1) (present : f x ≠ 0) :
    huffmanLengths f x = 1 := by
  obtain ⟨y, lone⟩ := List.length_eq_one_iff.1 one
  have hx : x = y := List.mem_singleton.1 (lone ▸ mem_presentSyms.2 present)
  rw [huffmanLengths_of_lone lone, if_pos hx]

/-- R151(c). -/
theorem huffmanLengths_eq_zero : huffmanLengths f x = 0 ↔ f x = 0 := by
  refine ⟨fun zero => ?_, huffmanLengths_of_absent⟩
  by_contra present
  rcases presentSyms_cases f with none | ⟨y, lone⟩ | two
  · exact List.not_mem_nil (none ▸ mem_presentSyms.2 present)
  · have := huffmanLengths_of_lone_present (by rw [lone]; rfl) present
    omega
  · have := (huffmanLengths_of_present two present).1
    omega

/-- Settles O27: the three bounds, each from the depths under the root or the lone leaf. -/
theorem huffmanLengthBounds : Obligations.HuffmanLengthBounds := fun _ x =>
  ⟨huffmanLengths_eq_zero, fun present one => huffmanLengths_of_lone_present one present,
    fun two => huffmanLengths_le two x⟩

/-- R151(d): every length fits the 8-bit entry. -/
theorem huffmanLengths_lt (f : Sym → Nat) (x : Sym) : huffmanLengths f x < 256 := by
  rcases presentSyms_cases f with none | ⟨y, lone⟩ | two
  · rw [huffmanLengths_of_empty none]; omega
  · rw [huffmanLengths_of_lone lone]; split <;> omega
  · have := huffmanLengths_le two x
    have := presentSyms_length_le f
    omega

/-! ### `BUILD` (spec/42_tree_builder.md R151) -/

/-- Settles O25: the two branches of `BUILD`. -/
theorem buildWritesHuffmanLengths : Obligations.BuildWritesHuffmanLengths := by
  intro s
  refine ⟨fun present => ?_, fun empty => ?_⟩
  · refine ⟨_, exec_of_resultOf_ok (i := .build) (if_neg present), rfl, fun x => ?_⟩
    simp only [lenOf, tableGet_tableOf, BitVec.toNat_ofNat]
    exact Nat.mod_eq_of_lt (huffmanLengths_lt _ x)
  · exact exec_of_resultOf_error (i := .build) (k := .emptyInput) (if_pos empty)

/-! ### The Kraft sum (spec/42_tree_builder.md R156(b)) -/

/-- What a length adds to the Kraft sum, times `2^256`. -/
def kraftShare (len : Nat) : Nat := if len = 0 then 0 else 2 ^ (256 - len)

theorem kraftShare_of_pos (h : 1 ≤ d) : kraftShare d = 2 ^ (256 - d) := if_neg (by omega)

theorem kraftShare_of_absent (absent : f x = 0) : kraftShare (huffmanLengths f x) = 0 :=
  if_pos (huffmanLengths_of_absent absent)

theorem kraft_of_two (two : 2 ≤ (presentSyms f).length) :
    sumSyms (fun x => kraftShare (huffmanLengths f x)) = 2 ^ 256 := by
  obtain ⟨root, h⟩ := exists_rootOf_of_two two
  have fits : 0 + innerCount root.tree ≤ 256 := by
    have := h.inner
    have := presentSyms_length_le f
    omega
  have share : ∀ e ∈ leafDepths root.tree 0, kraftShare (huffmanLengths f e.1) = 2 ^ (256 - e.2) := fun e he => by
    rw [h.huffmanLengths_of_mem two he, kraftShare_of_pos (h.leaf_depth two he).1]
  calc sumSyms (fun x => kraftShare (huffmanLengths f x))
      = ((symsUnder root.tree).map fun x => kraftShare (huffmanLengths f x)).sum :=
        sumSyms_eq_sum_map h.syms fun _ => kraftShare_of_absent
    _ = ((leafDepths root.tree 0).map fun e => kraftShare (huffmanLengths f e.1)).sum := by
        rw [← leafDepths_keys root.tree 0, List.map_map]; rfl
    _ = ((leafDepths root.tree 0).map fun e => 2 ^ (256 - e.2)).sum := by rw [List.map_congr_left share]
    _ = 2 ^ 256 := leafDepths_kraft root.tree 0 256 fits

theorem kraft_of_lone (one : (presentSyms f).length = 1) :
    sumSyms (fun x => kraftShare (huffmanLengths f x)) = 2 ^ 255 := by
  obtain ⟨y, lone⟩ := List.length_eq_one_iff.1 one
  rw [sumSyms_eq_sum_map (List.Perm.refl (presentSyms f)) fun _ => kraftShare_of_absent, lone, List.map_singleton,
    List.sum_singleton, huffmanLengths_of_lone lone, if_pos rfl, kraftShare_of_pos le_rfl]

/-- Settles O28: with two or more symbols by the exact sum over the leaves of a tree. -/
theorem huffmanKraftSum : Obligations.HuffmanKraftSum := fun _ => ⟨kraft_of_two, kraft_of_lone⟩

end Sys2Proof.Machine

/-! ### Depths without a tree (spec/42_tree_builder.md R155) -/

namespace Sys2Proof.Machine

variable {f : Sym → Nat} {next k : Nat} {pool rest : List PoolItem} {a b c : PoolItem} {x y : Sym}
  {depth : Sym → Nat}

/-- One merge adds 1 for every symbol under either of the two items it takes out. -/
def addMerge (pool : List PoolItem) (depth : Sym → Nat) (x : Sym) : Nat :=
  if x ∈ mergedSyms pool then depth x + 1 else depth x

theorem mergeDepths_succ (k next : Nat) (pool : List PoolItem) (depth : Sym → Nat) :
    mergeDepths (k + 1) next pool depth = mergeDepths k (next + 1) (mergeOnce next pool) (addMerge pool depth) := rfl

/-- The symbols under an item that stays are not under the two taken out. -/
theorem Merge.not_merged (m : Merge next pool a b rest) (h : PoolOf f next pool) (hc : c ∈ rest)
    (hx : x ∈ symsUnder c.tree) : x ∉ mergedSyms pool := by
  have split : (poolSyms pool).Perm (mergedSyms pool ++ poolSyms rest) := by
    rw [m.merged, List.append_assoc]; exact m.perm.flatMap_right _
  have apart := List.disjoint_of_nodup_append (split.nodup_iff.1 h.nodup)
  exact fun hm => apart hm (mem_poolSyms hc hx)

theorem Merge.merged_mem (m : Merge next pool a b rest) (hx : x ∈ mergedSyms pool) : x ∈ poolSyms pool := by
  rw [m.merged] at hx
  refine (m.perm.flatMap_right _).mem_iff.2 ?_
  rw [List.flatMap_cons, List.flatMap_cons, ← List.append_assoc]
  exact List.mem_append_left _ hx

/-- `depth` gives each symbol of the pool its depth inside its item. -/
def DepthsIn (depth : Sym → Nat) (pool : List PoolItem) : Prop :=
  ∀ c ∈ pool, ∀ e ∈ leafDepths c.tree 0, depth e.1 = e.2

theorem mem_symsUnder_of_leafDepths {t : HTree} {d : Nat} {e : Sym × Nat} (he : e ∈ leafDepths t d) :
    e.1 ∈ symsUnder t := leafDepths_keys t d ▸ List.mem_map_of_mem he

theorem depthsIn_leafItems (f : Sym → Nat) (next : Nat) (l : List Sym) :
    DepthsIn (fun _ => 0) (leafItems f next l) := by
  induction l generalizing next with
  | nil => exact fun c hc => nomatch hc
  | cons x xs ih =>
    intro c hc e he
    rcases List.mem_cons.1 hc with rfl | hc
    · obtain rfl := List.mem_singleton.1 he; rfl
    · exact ih (next + 1) c hc e he

/-- One level further down each leaf of a merged item is one deeper. -/
theorem DepthsIn.addMerge_of_taken (hd : DepthsIn depth pool) (hc : c ∈ pool)
    (merged : ∀ x ∈ symsUnder c.tree, x ∈ mergedSyms pool) :
    ∀ e ∈ leafDepths c.tree 1, addMerge pool depth e.1 = e.2 := by
  intro e he
  rw [show 1 = 0 + 1 from rfl, leafDepths_shift] at he
  obtain ⟨leaf, hl, rfl⟩ := List.mem_map.1 he
  rw [addMerge, if_pos (merged _ (mem_symsUnder_of_leafDepths hl)), hd c hc leaf hl]

theorem DepthsIn.mergeOnce (hd : DepthsIn depth pool) (h : PoolOf f next pool) (two : 2 ≤ pool.length) :
    DepthsIn (addMerge pool depth) (mergeOnce next pool) := by
  obtain ⟨a, b, rest, m⟩ := h.merge two
  rw [m.result]
  intro c hc e he
  rcases List.mem_cons.1 hc with rfl | hc
  · rcases List.mem_append.1 he with he | he
    · refine hd.addMerge_of_taken (m.perm.mem_iff.2 (by simp)) (fun x hx => ?_) e he
      rw [m.merged]; exact List.mem_append_left _ hx
    · refine hd.addMerge_of_taken (m.perm.mem_iff.2 (by simp)) (fun x hx => ?_) e he
      rw [m.merged]; exact List.mem_append_right _ hx
  · rw [addMerge, if_neg (m.not_merged h hc (mem_symsUnder_of_leafDepths he))]
    exact hd c (m.perm.mem_iff.2 (by simp [hc])) e he

theorem DepthsIn.mergePool (hd : DepthsIn depth pool) (h : PoolOf f next pool) (enough : k < pool.length) :
    DepthsIn (mergeDepths k next pool depth) (mergePool k next pool) := by
  induction k generalizing next pool depth with
  | zero => exact hd
  | succ k ih =>
    exact ih (hd.mergeOnce h (by omega)) h.mergeOnce (by rw [mergeOnce_length _ (by omega)]; omega)

/-- A symbol under no item takes part in no merge. -/
theorem mergeDepths_of_not_mem (h : PoolOf f next pool) (enough : k < pool.length) (hx : x ∉ poolSyms pool) :
    mergeDepths k next pool depth x = depth x := by
  induction k generalizing next pool depth with
  | zero => rfl
  | succ k ih =>
    obtain ⟨a, b, rest, m⟩ := h.merge (by omega)
    rw [mergeDepths_succ, ih h.mergeOnce (by rw [mergeOnce_length _ (by omega)]; omega)
      fun hm => hx ((mergeOnce_syms next pool).mem_iff.1 hm), addMerge, if_neg fun hm => hx (m.merged_mem hm)]

/-- R155. -/
theorem huffmanLengths_eq_mergeDepths (two : 2 ≤ (presentSyms f).length) (x : Sym) :
    huffmanLengths f x = mergeDepths ((presentSyms f).length - 1) (presentSyms f).length
      (leafItems f 0 (presentSyms f)) (fun _ => 0) x := by
  have leaves := poolOf_leafItems f
  have enough : (presentSyms f).length - 1 < (leafItems f 0 (presentSyms f)).length := by
    rw [leafItems_length]; omega
  by_cases hx : f x = 0
  · rw [huffmanLengths_of_absent hx, mergeDepths_of_not_mem leaves enough]
    exact fun hm => mem_presentSyms.1 (leaves.syms.mem_iff.1 hm) hx
  · obtain ⟨root, h⟩ := exists_rootOf_of_two two
    obtain ⟨d, hd⟩ := h.exists_leaf hx
    have depths : DepthsIn _ (rootPool f) := (depthsIn_leafItems f 0 _).mergePool leaves enough
    rw [h.huffmanLengths_of_mem two hd]
    exact (depths root (h.pool ▸ List.mem_singleton_self root) _ hd).symm

/-- Settles O29: the count without a tree is the depth inside the item, at every turn. -/
theorem huffmanLengthsCountMerges : Obligations.HuffmanLengthsCountMerges :=
  fun _ x two => huffmanLengths_eq_mergeDepths two x

/-! ### Later items take part in fewer merges (spec/42_tree_builder.md R156(d)) -/

/-- In how many of the next `k` merges the item over `x` takes part. -/
def mergeCount (k next : Nat) (pool : List PoolItem) : Sym → Nat := mergeDepths k next pool fun _ => 0

theorem mergeDepths_eq_add (k next : Nat) (pool : List PoolItem) (depth : Sym → Nat) (x : Sym) :
    mergeDepths k next pool depth x = depth x + mergeCount k next pool x := by
  induction k generalizing next pool depth with
  | zero => rfl
  | succ k ih =>
    rw [mergeCount, mergeDepths_succ, mergeDepths_succ, ih, ih _ _ (addMerge pool fun _ => 0), addMerge, addMerge]
    split <;> omega

theorem mergeCount_succ (k next : Nat) (pool : List PoolItem) (x : Sym) :
    mergeCount (k + 1) next pool x =
      mergeCount k (next + 1) (mergeOnce next pool) x + if x ∈ mergedSyms pool then 1 else 0 := by
  rw [mergeCount, mergeDepths_succ, mergeDepths_eq_add, addMerge, Nat.zero_add, Nat.add_comm]

/-- The item `u` takes part in at most `j` of the next `k` merges more than `v`. -/
def CountLe (k next : Nat) (pool : List PoolItem) (j : Nat) (u v : PoolItem) : Prop :=
  ∀ x ∈ symsUnder u.tree, ∀ y ∈ symsUnder v.tree, mergeCount k next pool x ≤ mergeCount k next pool y + j

/-- One merge carries the symbols of `c` into the item `c'`, and counts `j` for them. -/
def Carries (pool : List PoolItem) (j : Nat) (c c' : PoolItem) : Prop :=
  ∀ x ∈ symsUnder c.tree, x ∈ symsUnder c'.tree ∧ (if x ∈ mergedSyms pool then 1 else 0) = j

theorem CountLe.of_carries {i j i' j' : Nat} {u u' v v' : PoolItem} (hu : Carries pool i u u')
    (hv : Carries pool j v v') (le : CountLe k (next + 1) (mergeOnce next pool) i' u' v')
    (h : i' + i ≤ j' + j) : CountLe (k + 1) next pool j' u v := by
  intro x hx y hy
  obtain ⟨hx, countX⟩ := hu x hx
  obtain ⟨hy, countY⟩ := hv y hy
  have := le x hx y hy
  rw [mergeCount_succ, mergeCount_succ, countX, countY]
  omega

theorem Merge.carries_taken (m : Merge next pool a b rest) (hc : c = a ∨ c = b) :
    Carries pool 1 c (mergeItems next a b) := by
  intro x hx
  have under : x ∈ symsUnder a.tree ++ symsUnder b.tree := by
    rcases hc with rfl | rfl
    · exact List.mem_append_left _ hx
    · exact List.mem_append_right _ hx
  exact ⟨under, if_pos (m.merged ▸ under)⟩

theorem Merge.carries_kept (m : Merge next pool a b rest) (h : PoolOf f next pool) (hc : c ∈ rest) :
    Carries pool 0 c c :=
  fun _ hx => ⟨hx, if_neg (m.not_merged h hc hx)⟩

theorem Merge.mem_cases (m : Merge next pool a b rest) (hc : c ∈ pool) : (c = a ∨ c = b) ∨ c ∈ rest := by
  simpa [or_assoc] using m.perm.mem_iff.1 hc

/-- An item at most twice as heavy as any item of the pool; the node of each merge is one. -/
def Light (pool : List PoolItem) (c : PoolItem) : Prop := ∀ d ∈ pool, c.weight ≤ 2 * d.weight

theorem Merge.light_node (m : Merge next pool a b rest) : Light (mergeOnce next pool) (mergeItems next a b) := by
  intro d hd
  have aLeB := m.least b List.mem_cons_self
  rw [m.result] at hd
  rcases List.mem_cons.1 hd with rfl | hd
  · omega
  · have bLeD := m.second d hd
    simp only [mergeItems]
    omega

/-- A light item that stays is no heavier than the new node. -/
theorem Merge.weight_le_node (m : Merge next pool a b rest) (light : Light pool c) :
    c.weight ≤ (mergeItems next a b).weight := by
  have twice := light a (m.perm.mem_iff.2 List.mem_cons_self)
  have aLeB := m.least b List.mem_cons_self
  simp only [mergeItems]
  omega

theorem Merge.light_kept (m : Merge next pool a b rest) (light : Light pool c) : Light (mergeOnce next pool) c := by
  intro d hd
  rw [m.result] at hd
  rcases List.mem_cons.1 hd with rfl | hd
  · have := m.weight_le_node light
    omega
  · exact light d (m.perm.mem_iff.2 (by simp [hd]))

/-- The order of the counts over a pool. The clause `light` is what lets `later` pass through a merge: the items taken
out are counted once more than their node, and no item that stays is counted more often than that. -/
structure CountsOrdered (k next : Nat) (pool : List PoolItem) : Prop where
  same : ∀ u ∈ pool, CountLe k next pool 0 u u
  later : ∀ u ∈ pool, ∀ v ∈ pool, keyBefore v u → CountLe k next pool 0 u v
  light : ∀ u ∈ pool, ∀ v ∈ pool, Light pool v → CountLe k next pool 1 u v

theorem countsOrdered_zero (next : Nat) (pool : List PoolItem) : CountsOrdered 0 next pool where
  same _ _ _ _ _ _ := Nat.zero_le _
  later _ _ _ _ _ _ _ _ _ := Nat.zero_le _
  light _ _ _ _ _ _ _ _ _ := Nat.zero_le _

section
variable (m : Merge next pool a b rest) (h : PoolOf f next pool)
  (ih : CountsOrdered k (next + 1) (mergeOnce next pool)) {u v : PoolItem} {j : Nat}
include m

theorem Merge.node_mem : mergeItems next a b ∈ mergeOnce next pool := m.result ▸ List.mem_cons_self

theorem Merge.kept_mem (hc : c ∈ rest) : c ∈ mergeOnce next pool := m.result ▸ List.mem_cons_of_mem _ hc

theorem Merge.taken_first (hu : u = a ∨ u = b) (hv : v ∈ rest) : keyBefore u v := by
  rcases hu with rfl | rfl
  · exact m.least v (List.mem_cons_of_mem _ hv)
  · exact m.second v hv

include ih in
/-- The two items taken out are counted alike. -/
theorem Merge.countLe_taken (hu : u = a ∨ u = b) (hv : v = a ∨ v = b) : CountLe (k + 1) next pool j u v :=
  .of_carries (m.carries_taken hu) (m.carries_taken hv) (ih.same _ m.node_mem) (by omega)

include h ih

theorem Merge.countsOrdered_same (hu : u ∈ pool) : CountLe (k + 1) next pool 0 u u := by
  rcases m.mem_cases hu with taken | kept
  · exact m.countLe_taken ih taken taken
  · exact .of_carries (m.carries_kept h kept) (m.carries_kept h kept) (ih.same u (m.kept_mem kept)) (by omega)

/-- What stays is counted at most as often as what is taken out: the node is light. -/
theorem Merge.countLe_kept_taken (hu : u ∈ rest) (hv : v = a ∨ v = b) : CountLe (k + 1) next pool j u v :=
  .of_carries (m.carries_kept h hu) (m.carries_taken hv) (ih.light u (m.kept_mem hu) _ m.node_mem m.light_node)
    (by omega)

theorem Merge.countsOrdered_later (hu : u ∈ pool) (hv : v ∈ pool) (key : keyBefore v u) :
    CountLe (k + 1) next pool 0 u v := by
  rcases m.mem_cases hu with taken | kept <;> rcases m.mem_cases hv with taken' | kept'
  · exact m.countLe_taken ih taken taken'
  · exact absurd (keyBefore_trans key (m.taken_first taken kept')) (by simp [keyBefore])
  · exact m.countLe_kept_taken h ih kept taken'
  · exact .of_carries (m.carries_kept h kept) (m.carries_kept h kept')
      (ih.later u (m.kept_mem kept) v (m.kept_mem kept') key) (by omega)

/-- A light item that stays comes before the new node: it is no heavier, and older. -/
theorem Merge.countsOrdered_light (hu : u ∈ pool) (hv : v ∈ pool) (light : Light pool v) :
    CountLe (k + 1) next pool 1 u v := by
  rcases m.mem_cases hv with taken' | kept'
  · rcases m.mem_cases hu with taken | kept
    · exact m.countLe_taken ih taken taken'
    · exact m.countLe_kept_taken h ih kept taken'
  · rcases m.mem_cases hu with taken | kept
    · have weight := m.weight_le_node light
      have older : v.index < (mergeItems next a b).index := h.indices.2 v hv
      have key : keyBefore v (mergeItems next a b) := by unfold keyBefore; omega
      exact .of_carries (m.carries_taken taken) (m.carries_kept h kept')
        (ih.later _ m.node_mem v (m.kept_mem kept') key) (by omega)
    · exact .of_carries (m.carries_kept h kept) (m.carries_kept h kept')
        (ih.light u (m.kept_mem kept) v (m.kept_mem kept') (m.light_kept light)) (by omega)

end

theorem PoolOf.countsOrdered (h : PoolOf f next pool) (enough : k < pool.length) : CountsOrdered k next pool := by
  induction k generalizing next pool with
  | zero => exact countsOrdered_zero next pool
  | succ k ih =>
    obtain ⟨a, b, rest, m⟩ := h.merge (by omega)
    have after := ih h.mergeOnce (by rw [mergeOnce_length _ (by omega)]; omega)
    exact ⟨fun u hu => m.countsOrdered_same h after hu, fun u hu v hv => m.countsOrdered_later h after hu hv,
      fun u hu v hv => m.countsOrdered_light h after hu hv⟩

/-- The leaf of a symbol has its frequency as weight. -/
theorem exists_leafItem (f : Sym → Nat) (next : Nat) {l : List Sym} (hx : x ∈ l) :
    ∃ c ∈ leafItems f next l, c.weight = f x ∧ c.tree = .leaf x := by
  induction l generalizing next with
  | nil => nomatch hx
  | cons z zs ih =>
    rcases List.mem_cons.1 hx with rfl | hx
    · exact ⟨_, List.mem_cons_self, rfl, rfl⟩
    · obtain ⟨c, hc, leaf⟩ := ih (next + 1) hx
      exact ⟨c, List.mem_cons_of_mem _ hc, leaf⟩

/-- Settles O30: the leaf of the more frequent symbol has the later key, so it takes part in no more merges. -/
theorem frequentSymbolsAreNotLonger : Obligations.FrequentSymbolsAreNotLonger := by
  intro f x y present less
  have memX : x ∈ presentSyms f := mem_presentSyms.2 (by omega)
  have memY : y ∈ presentSyms f := mem_presentSyms.2 present
  have two : 2 ≤ (presentSyms f).length := by
    rcases presentSyms_cases f with none | ⟨z, lone⟩ | two
    · rw [none] at memX; nomatch memX
    · rw [lone, List.mem_singleton] at memX memY
      rw [memX, memY] at less
      exact absurd less (Nat.lt_irrefl _)
    · exact two
  obtain ⟨u, hu, weightU, treeU⟩ := exists_leafItem f 0 memX
  obtain ⟨v, hv, weightV, treeV⟩ := exists_leafItem f 0 memY
  have ordered : CountsOrdered ((presentSyms f).length - 1) _ _ :=
    (poolOf_leafItems f).countsOrdered (by rw [leafItems_length]; omega)
  have key : keyBefore v u := .inl (by omega)
  rw [huffmanLengths_eq_mergeDepths two, huffmanLengths_eq_mergeDepths two]
  exact ordered.later u hu v hv key x (treeU ▸ List.mem_singleton_self x) y (treeV ▸ List.mem_singleton_self y)

end Sys2Proof.Machine

/-! PROOFS of the family `43_canonical_assigner.md`: the canonical codes and `ASSIGN`, which writes them. -/

/-! ### The intervals of the codes (spec/43_canonical_assigner.md R173, R174) -/

namespace Sys2Proof.Machine

variable {f : Sym → Nat} {x y : Sym}

theorem mem_canonOrder : x ∈ canonOrder f ↔ f x ≠ 0 := (canonOrder_perm f).mem_iff.trans mem_presentSyms

theorem canonBefore_asymm (h : canonBefore f x y) : ¬ canonBefore f y x := fun h' =>
  not_canonBefore_self x (canonBefore_trans h h')

/-- A symbol of the lesser key stands earlier in the order. -/
theorem canonOrder_index_lt {i j : Nat} (hi : (canonOrder f)[i]? = some x) (hj : (canonOrder f)[j]? = some y)
    (h : canonBefore f x y) : i < j := by
  obtain ⟨hi', rfl⟩ := List.getElem?_eq_some_iff.1 hi
  obtain ⟨hj', rfl⟩ := List.getElem?_eq_some_iff.1 hj
  rcases Nat.lt_trichotomy i j with less | rfl | greater
  · exact less
  · exact absurd h (not_canonBefore_self _)
  · exact absurd (List.pairwise_iff_getElem.1 (canonOrder_sorted f) j i hj' hi' greater) (canonBefore_asymm h)

/-- Settles O33: along the order each padded code is the sum of the Kraft terms before it, which with its own term
stays within the Kraft sum. -/
theorem canonicalCodesFit : Obligations.CanonicalCodesFit := fun _ h32 hk =>
  ⟨fun _ hx => canonicalCode_lt h32 hk hx, fun _ _ h => canonicalCode_padded h32 h⟩

/-- 43 R174: the interval of the 32-bit words that begin with the code of `x` ends before that of a later symbol
begins. -/
theorem canonicalCode_interval (h32 : ∀ z, f z ≤ 32) (hx : f x ≠ 0) (hy : f y ≠ 0) (h : canonBefore f x y) :
    (canonicalCode f x + 1) * 2 ^ (32 - f x) ≤ canonicalCode f y * 2 ^ (32 - f y) := by
  obtain ⟨i, hi⟩ := List.mem_iff_getElem?.1 (mem_canonOrder.2 hx)
  obtain ⟨j, hj⟩ := List.mem_iff_getElem?.1 (mem_canonOrder.2 hy)
  have earlier : i + 1 ≤ j := canonOrder_index_lt hi hj h
  calc (canonicalCode f x + 1) * 2 ^ (32 - f x)
    _ = kraftTerms f ((canonOrder f).take (i + 1)) := by
      rw [kraftTerms_take_succ hi, ← canonicalCode_padded h32 hi, Nat.succ_mul]
    _ = kraftTerms f (((canonOrder f).take j).take (i + 1)) := by rw [List.take_take, Nat.min_eq_left earlier]
    _ ≤ kraftTerms f ((canonOrder f).take j) := kraftTerms_take_le _ _
    _ = canonicalCode f y * 2 ^ (32 - f y) := (canonicalCode_padded h32 hj).symm

/-- 43 R174(c): padded to 32 bits, the code of the earlier symbol is the lesser one. -/
theorem canonicalCode_padded_lt (h32 : ∀ z, f z ≤ 32) (hx : f x ≠ 0) (hy : f y ≠ 0) (h : canonBefore f x y) :
    canonicalCode f x * 2 ^ (32 - f x) < canonicalCode f y * 2 ^ (32 - f y) :=
  (Nat.mul_lt_mul_of_pos_right (Nat.lt_succ_self _) (Nat.two_pow_pos _)).trans_le (canonicalCode_interval h32 hx hy h)

/-- 43 R174(a): within one length the codes are distinct. -/
theorem canonicalCode_ne (h32 : ∀ z, f z ≤ 32) (hx : f x ≠ 0) (hy : f y ≠ 0) (hxy : x ≠ y) (same : f x = f y) :
    canonicalCode f x ≠ canonicalCode f y := by
  intro equal
  have padded : canonicalCode f x * 2 ^ (32 - f x) = canonicalCode f y * 2 ^ (32 - f y) := by rw [equal, same]
  rcases canonBefore_total hxy with before | before
  · exact (canonicalCode_padded_lt h32 hx hy before).ne padded
  · exact (canonicalCode_padded_lt h32 hy hx before).ne' padded

/-! ### Beginnings of bit strings (spec/20_memory.md R65) -/

@[simp] theorem patternBits_length (v n : Nat) : (patternBits v n).length = n := by simp [patternBits]

@[simp] theorem patternBits_getElem {v n i : Nat} (h : i < (patternBits v n).length) :
    (patternBits v n)[i] = v.testBit (n - 1 - i) := by simp [patternBits]

/-- A pattern that begins another is that one with its last bits shifted out. -/
theorem eq_div_of_patternBits_isPrefix {v w n m : Nat} (hv : v < 2 ^ n) (hw : w < 2 ^ m)
    (h : (patternBits v n).IsPrefix (patternBits w m)) : n ≤ m ∧ v = w / 2 ^ (m - n) := by
  have hnm : n ≤ m := by simpa using h.length_le
  refine ⟨hnm, Nat.eq_of_testBit_eq fun k => ?_⟩
  rw [Nat.testBit_div_two_pow]
  rcases Nat.lt_or_ge k n with hk | hk
  · have inside : n - 1 - k < (patternBits v n).length := by rw [patternBits_length]; omega
    have bit := h.getElem inside
    rwa [patternBits_getElem, patternBits_getElem, show n - 1 - (n - 1 - k) = k by omega,
      show m - 1 - (n - 1 - k) = k + (m - n) by omega] at bit
  · rw [Nat.testBit_eq_false_of_lt, Nat.testBit_eq_false_of_lt]
    · exact hw.trans_le (Nat.pow_le_pow_right Nat.two_pos (by omega))
    · exact hv.trans_le (Nat.pow_le_pow_right Nat.two_pos hk)

/-- 43 R174(b): the code of `x` begins no other, for the interval of the other would lie inside that of `x`. -/
theorem codeBits_not_isPrefix (h32 : ∀ z, f z ≤ 32) (hk : kraftSum f ≤ 2 ^ 32) (hx : f x ≠ 0) (hy : f y ≠ 0)
    (hxy : x ≠ y) : ¬ (codeBits f x).IsPrefix (codeBits f y) := by
  intro begins
  obtain ⟨shorter, shifted⟩ :=
    eq_div_of_patternBits_isPrefix (canonicalCode_lt h32 hk hx) (canonicalCode_lt h32 hk hy) begins
  rcases canonBefore_total (f := f) hxy with before | before
  · have inside : canonicalCode f y * 2 ^ (32 - f y) < (canonicalCode f x + 1) * 2 ^ (32 - f x) := by
      have split : 2 ^ (32 - f x) = 2 ^ (f y - f x) * 2 ^ (32 - f y) := by
        rw [← Nat.pow_add]; congr 1; have := h32 y; omega
      have last := Nat.lt_mul_of_div_lt (Nat.lt_succ_self (canonicalCode f y / 2 ^ (f y - f x))) (Nat.two_pow_pos _)
      rw [split, ← Nat.mul_assoc, shifted]
      exact Nat.mul_lt_mul_of_pos_right last (Nat.two_pow_pos _)
    exact absurd (canonicalCode_interval h32 hx hy before) (Nat.not_le.2 inside)
  · have same : f x = f y := by unfold canonBefore at before; omega
    rw [same, Nat.sub_self, Nat.pow_zero, Nat.div_one] at shifted
    exact canonicalCode_ne h32 hx hy hxy same shifted

/-! ### The codes one by one (spec/43_canonical_assigner.md R172) -/

theorem codeList_getElem? {i : Nat} (h : (canonOrder f)[i]? = some x) :
    (codeList f)[i]? = some (x, canonicalCode f x) := by simp [codeList_eq_map, h]

theorem codeList_of_cons {l : List Sym} (h : canonOrder f = x :: l) : codeList f = (x, 0) :: codesAfter f x 0 l := by
  rw [codeList, h]

/-- 43 R172: the first symbol of the order has code 0. -/
theorem canonicalCode_of_first (h : (canonOrder f)[0]? = some x) : canonicalCode f x = 0 := by
  cases order : canonOrder f with
  | nil => rw [order] at h; nomatch h
  | cons q l =>
    have listed := codeList_getElem? h
    rw [codeList_of_cons order] at listed
    exact (Prod.mk.inj (Option.some.inj listed)).2.symm

/-- A symbol before all others of the code is the first of the order. -/
theorem canonOrder_first (hx : f x ≠ 0) (least : ∀ z, f z ≠ 0 → z = x ∨ canonBefore f x z) :
    (canonOrder f)[0]? = some x := by
  obtain ⟨i, hi⟩ := List.mem_iff_getElem?.1 (mem_canonOrder.2 hx)
  obtain ⟨z, hz⟩ : ∃ z, (canonOrder f)[0]? = some z :=
    ⟨_, List.getElem?_eq_getElem (Nat.zero_lt_of_lt (List.getElem?_eq_some_iff.1 hi).1)⟩
  rcases least z (mem_canonOrder.1 (List.mem_of_getElem? hz)) with rfl | before
  · exact hz
  · exact absurd (canonOrder_index_lt hi hz before) (Nat.not_lt_zero i)

/-- Settles O34: the intervals of the codes follow one another along the order, so two codes of one length differ and
none begins another. -/
theorem canonicalCodeIsAPrefixCode : Obligations.CanonicalCodeIsAPrefixCode := fun _ _ _ h32 hk hx hy =>
  ⟨canonicalCode_ne h32 hx hy, codeBits_not_isPrefix h32 hk hx hy, fun h => canonicalCode_padded_lt h32 hx hy (.inl h),
    fun least => canonicalCode_of_first (canonOrder_first hx least)⟩

/-- Each code of the list is the one before it plus 1, shifted left by the difference of the lengths. -/
theorem codesAfter_next {q : Sym} {c d e i : Nat} {l : List Sym} (hx : ((q, c) :: codesAfter f q c l)[i]? = some (x, d))
    (hy : (codesAfter f q c l)[i]? = some (y, e)) : e = (d + 1) * 2 ^ (f y - f x) := by
  induction l generalizing q c i with
  | nil => nomatch hy
  | cons z zs ih =>
    cases i with
    | zero =>
      cases hx
      cases hy
      rfl
    | succ i => exact ih hx hy

/-- 43 R172: the code of the next symbol of the order. -/
theorem canonicalCode_next {i : Nat} (hx : (canonOrder f)[i]? = some x) (hy : (canonOrder f)[i + 1]? = some y) :
    canonicalCode f y = (canonicalCode f x + 1) * 2 ^ (f y - f x) := by
  cases order : canonOrder f with
  | nil => rw [order] at hx; nomatch hx
  | cons q l =>
    have listedX := codeList_getElem? hx
    have listedY := codeList_getElem? hy
    rw [codeList_of_cons order] at listedX listedY
    exact codesAfter_next listedX listedY

/-- Settles O32: the order is an insertion sort of the symbols with a length, and the list gives each its code from
the one before. -/
theorem canonicalCodesAreConsecutive : Obligations.CanonicalCodesAreConsecutive := fun f =>
  ⟨canonOrder_sorted f, fun _ => mem_canonOrder, fun _ => canonicalCode_of_length_zero,
    fun _ => canonicalCode_of_first, fun _ _ _ => canonicalCode_next⟩

end Sys2Proof.Machine

/-! ### `ASSIGN` (spec/43_canonical_assigner.md R171) -/

namespace Sys2Proof.Machine

variable {s : State}

theorem assignCmd_of_tooLong (h : ∃ x, lenOf s x > 32) : assignCmd s = .error .codeLengthOverflow :=
  if_pos (someSym_iff.2 h)

theorem not_someSym_tooLong (h32 : ∀ x, lenOf s x ≤ 32) : ¬ (someSym fun x => lenOf s x > maxLen) = true := by
  rw [someSym_iff]
  exact fun ⟨x, hx⟩ => Nat.not_lt.2 (h32 x) hx

theorem assignCmd_of_overfull (h32 : ∀ x, lenOf s x ≤ 32) (hk : kraftSum (lenOf s) > 2 ^ 32) :
    assignCmd s = .error .formatMismatch := by
  rw [assignCmd, if_neg (not_someSym_tooLong h32), maxLen, if_pos hk]

theorem assignCmd_of_kraft (h32 : ∀ x, lenOf s x ≤ 32) (hk : kraftSum (lenOf s) ≤ 2 ^ 32) :
    assignCmd s =
      .ok { s with code := tableOf fun x => BitVec.ofNat 32 (canonicalCode (lenOf s) x), cv := true } := by
  rw [assignCmd, if_neg (not_someSym_tooLong h32), maxLen, if_neg (Nat.not_lt.2 hk)]

/-- Settles O31: the three answers of `ASSIGN`; no code is cut to its 32-bit entry, for each fits its length. -/
theorem assignWritesCanonicalCodes : Obligations.AssignWritesCanonicalCodes := by
  intro s
  refine ⟨fun h32 hk => ?codes, fun tooLong => ?tooLong, fun h32 overfull => ?overfull⟩
  case codes =>
    have assigned := assignCmd_of_kraft h32 hk
    obtain ⟨-, -, codes⟩ := codeOk_assignCmd assigned rfl
    exact ⟨_, exec_of_resultOf_ok (i := .assign) assigned, rfl, codes⟩
  case tooLong => exact exec_of_resultOf_error (i := .assign) (assignCmd_of_tooLong tooLong)
  case overfull => exact exec_of_resultOf_error (i := .assign) (assignCmd_of_overfull h32 overfull)

end Sys2Proof.Machine

/-! PROOFS of the family `44_bitstream_writer.md`: what `PUTB`, `PUTS` and `FIN` do, and the stream they leave in `CON`. -/

/-! ### The bits that `FIN` leaves in `CON` (spec/44_bitstream_writer.md R195) -/

namespace Sys2Proof.Machine

variable {p : Params} {s t u : State} {bits : List Bool} {v n : Nat}

theorem finCmd_of_aligned (notFinal : s.wfin = false) (aligned : s.wbits.toNat % 8 = 0) :
    finCmd p s = .ok (finalise s) := by
  rw [finCmd, if_neg (by simp [notFinal]), if_pos aligned]

theorem finCmd_of_partial (notFinal : s.wfin = false) (partialByte : s.wbits.toNat % 8 ≠ 0)
    (room : writerAddr s s.wbits.toNat < p.conCap) :
    finCmd p s = .ok (finalise (setCon p s (writerAddr s s.wbits.toNat) s.wacc)) := by
  rw [finCmd, if_neg (by simp [notFinal]), if_neg partialByte, if_neg (Nat.not_le.2 room)]

/-- 44 R195: "`WBITS` and `WACC` are not changed", and `WBASE` neither. -/
theorem finCmd_keeps_cursor (h : finCmd p s = .ok t) : t.wbase = s.wbase ∧ t.wbits = s.wbits := by
  rw [(frame_finCmd h).1]
  exact ⟨rfl, rfl⟩

/-- After `FIN` every bit of the writer's stream stands in `CON`, those of the partial byte up to its end. -/
theorem conBit_finCmd (h : finCmd p s = .ok t) {q : Nat} (hq : q < 8 * ceil8 s.wbits.toNat) :
    conBit p t s.wbase.toNat q = writerBit p s q := by
  unfold ceil8 at hq
  unfold writerBit conBit
  obtain ⟨-, ⟨aligned, rfl⟩ | ⟨partialByte, room, rfl⟩⟩ := finCmd_ok h
  · rw [if_pos (by omega), conByte_finalise]
  · rw [conByte_finalise, conByte_setCon room, writerAddr]
    by_cases full : q / 8 < s.wbits.toNat / 8
    · rw [if_neg (by omega), if_pos full]
    · rw [if_pos (by omega), if_neg full]

/-- 10 R50(b) in stream order: the rest of the partial byte is 0. -/
theorem writerBit_of_unfilled (unfilled : PartialOk s) {q : Nat} (hq : s.wbits.toNat ≤ q)
    (inside : q < 8 * ceil8 s.wbits.toNat) : writerBit p s q = false := by
  unfold ceil8 at inside
  rw [writerBit, if_neg (by omega)]
  exact unfilled _ (by omega)

/-- Settles O38: with no partial byte the result is `finalise` alone; else the one store of `CON` is read back. -/
theorem finStoresThePartialByte : Obligations.FinStoresThePartialByte := by
  intro s notFinal
  refine ⟨fun aligned => ?aligned, fun partialByte room => ?partialByte⟩
  case aligned => exact exec_of_resultOf_ok (i := .fin) (finCmd_of_aligned notFinal aligned)
  case partialByte =>
    have stored := finCmd_of_partial notFinal partialByte room
    refine ⟨_, exec_of_resultOf_ok (i := .fin) stored, ?_, fun a => ?_⟩
    · rw [finalise, setCon_eq]
    · rw [conByte_err, conByte_finalise]
      exact conByte_setCon room s.wacc a

/-! ### The stream of a sequence of appends (spec/44_bitstream_writer.md R196) -/

/-- From base `s.wbase` on the writer of `t` holds exactly these bits, the full bytes in `CON` and the rest in `WACC`;
every other byte of `CON` is as in `s`. -/
structure Streamed (p : Params) (bits : List Bool) (s t : State) : Prop where
  base : t.wbase = s.wbase
  cursor : t.wbits.toNat = bits.length
  stream : ∀ q (h : q < bits.length), writerBit p t q = bits[q]
  unfilled : PartialOk t
  bytes : ∀ a, a < s.wbase.toNat ∨ writerAddr s bits.length ≤ a → conByte p t a = conByte p s a

theorem streamed_writerInit (p : Params) (s : State) : Streamed p [] s (writerInit s) where
  base := rfl
  cursor := rfl
  stream := fun _ h => absurd h (Nat.not_lt_zero _)
  unfilled := fun _ _ => by simp
  bytes := fun a _ => conByte_writerInit a

theorem Streamed.append (h : Streamed p bits s t) (ht : append p v n t = .ok u) :
    Streamed p (bits ++ patternBits v n) s u := by
  have appended := append_appended ht h.unfilled
  have base : u.wbase = t.wbase := by rw [appended.others]
  have longer : (bits ++ patternBits v n).length = bits.length + n := by simp
  refine { base := base.trans h.base, cursor := ?cursor, stream := fun q hq => ?stream,
           unfilled := appended.unfilled, bytes := fun a ha => ?bytes }
  case cursor => rw [appended.cursor, h.cursor, longer]
  case stream =>
    rw [longer] at hq
    by_cases old : q < bits.length
    · rw [appended.kept q (h.cursor ▸ old), h.stream q old, List.getElem_append_left old]
    · have new := appended.added (q - bits.length) (by omega)
      rw [h.cursor, Nat.add_sub_of_le (Nat.not_lt.1 old)] at new
      rw [new, List.getElem_append_right (Nat.not_lt.1 old), patternBits_getElem]
  case bytes =>
    rw [longer] at ha
    unfold writerAddr at ha
    rw [appended.bytes a, h.bytes a]
    · unfold writerAddr; omega
    · unfold writerAddr; rw [h.base, h.cursor]; omega

theorem Streamed.appendAll {ws : List (Nat × Nat)} (h : Streamed p bits s t) (ht : appendAll p ws t = .ok u) :
    Streamed p (bits ++ ws.flatMap fun w => patternBits w.1 w.2) s u := by
  induction ws generalizing bits t with
  | nil =>
    cases ht
    rwa [List.flatMap_nil, List.append_nil]
  | cons w ws ih =>
    obtain ⟨t', first, rest⟩ := bind_eq_ok.1 ht
    rw [List.flatMap_cons, ← List.append_assoc]
    exact ih (h.append first) rest

/-- `FIN` brings the whole stream to `CON`. -/
theorem Streamed.holdsBits_finCmd (h : Streamed p bits s t) (hu : finCmd p t = .ok u) :
    HoldsBits p u s.wbase.toNat bits := by
  intro q hq
  have inside : q < 8 * ceil8 t.wbits.toNat := by rw [h.cursor]; unfold ceil8; omega
  rw [← h.base, conBit_finCmd hu inside, h.stream q hq]

/-- The padding that `FIN` stores is 0. -/
theorem Streamed.padding_finCmd (h : Streamed p bits s t) (hu : finCmd p t = .ok u) {q : Nat}
    (hq : bits.length ≤ q) (inside : q < 8 * ceil8 bits.length) : conBit p u s.wbase.toNat q = false := by
  rw [← h.cursor] at hq inside
  rw [← h.base, conBit_finCmd hu inside, writerBit_of_unfilled h.unfilled hq inside]

/-- No byte outside the stream's own is written. -/
theorem Streamed.conByte_finCmd (h : Streamed p bits s t) (hu : finCmd p t = .ok u) {a : Nat}
    (ha : a < s.wbase.toNat ∨ s.wbase.toNat + ceil8 bits.length ≤ a) : conByte p u a = conByte p s a := by
  unfold ceil8 at ha
  rw [(frame_finCmd hu).2 a, h.bytes a]
  · unfold writerAddr; omega
  · unfold writerAddr; rw [h.base, h.cursor]; omega

theorem length_flatMap_patternBits (ws : List (Nat × Nat)) :
    (ws.flatMap fun w => patternBits w.1 w.2).length = (ws.map Prod.snd).sum := by
  simp only [List.length_flatMap, patternBits_length]

/-- Settles O39: the appends keep `Streamed` from the initialised writer on, and `FIN` brings the stream to `CON`. -/
theorem writerStreamIsTheConcatenation : Obligations.WriterStreamIsTheConcatenation := by
  intro p s t u ws ht hu
  have streamed := (streamed_writerInit p s).appendAll ht
  rw [List.nil_append] at streamed
  have bitCount : u.wbits.toNat = (ws.flatMap fun w => patternBits w.1 w.2).length := by
    rw [(finCmd_keeps_cursor hu).2, streamed.cursor]
  refine ⟨bitCount.trans (length_flatMap_patternBits ws), streamed.holdsBits_finCmd hu, fun q hq inside => ?_,
    fun a ha => ?_⟩
  · rw [bitCount] at hq inside
    exact streamed.padding_finCmd hu hq inside
  · rw [bitCount] at ha
    exact streamed.conByte_finCmd hu ha

/-! ### `PUTB` and `PUTS` (spec/44_bitstream_writer.md R193, R194) -/

/-- The commit of the result code is no part of an append. -/
theorem Appended.commit (h : Appended p v n s t) (k : BitVec 4) : Appended p v n s { t with err := k } :=
  { h with others := by rw [h.others] }

/-- A command whose result is `Append(v, n)`, where the bits fit. -/
theorem exec_of_append {i : Instr} (result : resultOf i s = append Config.params v n s) (unfilled : PartialOk s)
    (room : s.wbase.toNat + ceil8 (s.wbits.toNat + n) ≤ Config.params.conCap) :
    ∃ t, exec i s = .next t ∧ t.err = 0 ∧ Appended Config.params v n s t :=
  ⟨_, exec_of_resultOf_ok (result.trans (append_total room)), rfl, (pushBits_appended room unfilled).commit 0⟩

theorem append_of_noRoom (noRoom : s.wbase.toNat + ceil8 (s.wbits.toNat + n) > p.conCap) :
    append p v n s = .error .stateError :=
  if_pos noRoom

theorem putbCmd_of_long {len : BitVec 6} (long : len.toNat > 32) : putbCmd p len s = .error .illegalCommand :=
  if_pos long

theorem putbCmd_of_final {len : BitVec 6} (legal : len.toNat ≤ 32) (final : s.wfin = true) :
    putbCmd p len s = .error .stateError := by
  rw [putbCmd, lenOperand, if_neg (Nat.not_lt.2 legal), if_pos final]

theorem putbCmd_eq_append {len : BitVec 6} (legal : len.toNat ≤ 32) (notFinal : s.wfin = false) :
    putbCmd p len s = append p (s.wdata.toNat % 2 ^ len.toNat) len.toNat s := by
  rw [putbCmd, lenOperand, if_neg (Nat.not_lt.2 legal), if_neg (by simp [notFinal]), patternOperand]

theorem putsCmd_eq_append {x : Sym} (valid : s.cv = true) (coded : lenOf s x ≠ 0) (notFinal : s.wfin = false) :
    putsCmd p x s = append p (codeOf s x) (lenOf s x) s := by
  rw [putsCmd, if_neg (by simp [valid]), if_neg coded, if_neg (by simp [notFinal])]

/-- The three tests of `PUTS` before its append. -/
theorem putsCmd_of_unready {x : Sym} (unready : s.cv = false ∨ lenOf s x = 0 ∨ s.wfin = true) :
    putsCmd p x s = .error .stateError := by
  unfold putsCmd
  split_ifs with invalid uncoded final
  · rfl
  · rfl
  · rfl
  · exact absurd unready (by simp [invalid, uncoded, final])

theorem finCmd_of_final (final : s.wfin = true) : finCmd p s = .error .stateError :=
  if_pos final

theorem finCmd_of_noRoom (partialByte : s.wbits.toNat % 8 ≠ 0) (noRoom : writerAddr s s.wbits.toNat ≥ p.conCap) :
    finCmd p s = .error .stateError := by
  by_cases final : s.wfin = true
  · exact finCmd_of_final final
  · rw [finCmd, if_neg final, if_neg partialByte, if_pos noRoom]

/-- Settles O35: past its two tests `PUTB` is `Append` of the low bits of `WDATA`. -/
theorem putbAppendsTheLowBits : Obligations.PutbAppendsTheLowBits := by
  intro s len legal notFinal unfilled room
  exact exec_of_append (i := .putb len) (putbCmd_eq_append legal notFinal) unfilled room

/-- Settles O36: past its three tests `PUTS` is `Append` of the symbol's code. -/
theorem putsAppendsTheCode : Obligations.PutsAppendsTheCode := by
  intro s x valid coded notFinal unfilled room
  exact exec_of_append (i := .puts x) (putsCmd_eq_append valid coded notFinal) unfilled room

/-- `PUTB` refuses where the writer is finalised or the bits do not fit. -/
theorem putbCmd_refuses {len : BitVec 6} (legal : len.toNat ≤ 32)
    (h : s.wfin = true ∨ s.wbase.toNat + ceil8 (s.wbits.toNat + len.toNat) > p.conCap) :
    putbCmd p len s = .error .stateError := by
  by_cases final : s.wfin = true
  · exact putbCmd_of_final legal final
  · rw [putbCmd_eq_append legal (Bool.eq_false_of_not_eq_true final)]
    exact append_of_noRoom (h.resolve_left final)

/-- `PUTS` refuses where one of its tests fails or the bits do not fit. -/
theorem putsCmd_refuses {x : Sym} (h : s.cv = false ∨ lenOf s x = 0 ∨ s.wfin = true ∨
    s.wbase.toNat + ceil8 (s.wbits.toNat + lenOf s x) > p.conCap) : putsCmd p x s = .error .stateError := by
  by_cases unready : s.cv = false ∨ lenOf s x = 0 ∨ s.wfin = true
  · exact putsCmd_of_unready unready
  · have noRoom : s.wbase.toNat + ceil8 (s.wbits.toNat + lenOf s x) > p.conCap := by tauto
    obtain ⟨valid, coded, notFinal⟩ : s.cv = true ∧ lenOf s x ≠ 0 ∧ s.wfin = false := by simpa using unready
    rw [putsCmd_eq_append valid coded notFinal, append_of_noRoom noRoom]

/-- Settles O37: the refusals of the three commands, each raised before any change. -/
theorem writerRefusals : Obligations.WriterRefusals := by
  intro s
  refine ⟨fun len long => ?long, fun len legal h => ?putb, fun x h => ?puts, fun h => ?fin⟩
  case long => exact exec_of_resultOf_error (i := .putb len) (putbCmd_of_long long)
  case putb => exact exec_of_resultOf_error (i := .putb len) (putbCmd_refuses legal h)
  case puts => exact exec_of_resultOf_error (i := .puts x) (putsCmd_refuses h)
  case fin =>
    obtain final | ⟨partialByte, noRoom⟩ := h
    · exact exec_of_resultOf_error (i := .fin) (finCmd_of_final final)
    · exact exec_of_resultOf_error (i := .fin) (finCmd_of_noRoom partialByte noRoom)

end Sys2Proof.Machine

/-! PROOFS of the family `45_bitstream_reader.md`: the one bit of `GETB`, the walk of `GETS`, and that the reader
returns what the writer wrote. -/

/-! ### `GETB` (spec/45_bitstream_reader.md R211, R213) -/

namespace Sys2Proof.Machine

variable {p : Params} {s t : State} {b : Bool} {k : ErrKind} {q : Nat}

/-- 45 R211: a valid bit inside `CON` is read. -/
theorem readBit_of_inside (valid : q < s.rvalid.toNat) (inside : readerAddr s q < p.conCap) :
    readBit p s q = .ok (conBit p s s.rbase.toNat q) :=
  readBit_ok.2 ⟨valid, inside, rfl⟩

theorem readBit_of_end (atEnd : q ≥ s.rvalid.toNat) : readBit p s q = .error .truncatedStream :=
  readBit_error.2 (.inl ⟨atEnd, rfl⟩)

theorem readBit_of_outside (valid : q < s.rvalid.toNat) (outside : readerAddr s q ≥ p.conCap) :
    readBit p s q = .error .stateError :=
  readBit_error.2 (.inr ⟨valid, outside, rfl⟩)

theorem getbCmd_of_bit (h : readBit p s s.rpos.toNat = .ok b) :
    getbCmd p s = .ok { s with rdata := BitVec.ofNat 8 b.toNat, rpos := BitVec.ofNat 64 (s.rpos.toNat + 1) } := by
  rw [getbCmd, h, ok_bind]

theorem getbCmd_of_noBit (h : readBit p s s.rpos.toNat = .error k) : getbCmd p s = .error k := by
  rw [getbCmd, h, error_bind]

/-- Settles O40: `GETB` is the bit at the cursor, or what `Bit` raises there; the cursor has room to grow below
`RVALID`. -/
theorem getbReadsOneBit : Obligations.GetbReadsOneBit := by
  intro s
  refine ⟨fun valid inside => ?bit, fun atEnd => ?atEnd, fun valid outside => ?outside⟩
  case bit =>
    refine ⟨_, exec_of_resultOf_ok (i := .getb) (getbCmd_of_bit (readBit_of_inside valid inside)), rfl, ?_, ?_⟩
    · have room := s.rvalid.isLt
      exact Nat.mod_eq_of_lt (by omega)
    · change BitVec.ofNat 8 (conBit Config.params s s.rbase.toNat s.rpos.toNat).toNat = if conBit _ _ _ _ then 1 else 0
      cases conBit Config.params s s.rbase.toNat s.rpos.toNat <;> rfl
  case atEnd => exact exec_of_resultOf_error (i := .getb) (getbCmd_of_noBit (readBit_of_end atEnd))
  case outside => exact exec_of_resultOf_error (i := .getb) (getbCmd_of_noBit (readBit_of_outside valid outside))

/-! ### The walk of `GETS` past its inner nodes (spec/45_bitstream_reader.md R214) -/

/-- The first `m` bits from the reader's cursor on are there and lead to inner nodes only. -/
structure InnerPath (p : Params) (s : State) (m : Nat) : Prop where
  bits : ∀ k, k < m → readBit p s (s.rpos.toNat + k) = .ok (conBit p s s.rbase.toNat (s.rpos.toNat + k))
  noLeaf : ∀ k, 1 ≤ k → k ≤ m → leafAt s k (nodeValue p s k) = none
  inner : ∀ k, 1 ≤ k → k ≤ m → innerAt s k (nodeValue p s k)

variable {m : Nat} {x y : Sym}

theorem innerPath_zero (p : Params) (s : State) : InnerPath p s 0 where
  bits _ h := absurd h (Nat.not_lt_zero _)
  noLeaf _ h h' := absurd (h.trans h') (Nat.not_succ_le_zero 0)
  inner _ h h' := absurd (h.trans h') (Nat.not_succ_le_zero 0)

theorem InnerPath.init (h : InnerPath p s (m + 1)) : InnerPath p s m where
  bits k hk := h.bits k (hk.trans (Nat.lt_succ_self m))
  noLeaf k h1 hk := h.noLeaf k h1 (hk.trans (Nat.le_succ m))
  inner k h1 hk := h.inner k h1 (hk.trans (Nat.le_succ m))

/-- The walk follows the path, one turn for each bit. -/
theorem InnerPath.walk_eq (h : InnerPath p s m) (fuel : Nat) :
    walk p s (fuel + m) 0 0 = walk p s fuel m (nodeValue p s m) := by
  induction m generalizing fuel with
  | zero => rfl
  | succ m ih =>
    rw [Nat.add_left_comm fuel m 1, Nat.add_comm m, ih h.init]
    exact walk_inner (h.bits m (Nat.lt_succ_self m)) (h.noLeaf (m + 1) (Nat.le_add_left 1 m) le_rfl)
      (h.inner (m + 1) (Nat.le_add_left 1 m) le_rfl)

/-- No path is longer than the length entries allow. -/
theorem InnerPath.lt (h : InnerPath p s m) : m < 255 := by
  cases m with
  | zero => decide
  | succ m => exact innerAt_lt (h.inner (m + 1) (Nat.le_add_left 1 m) le_rfl)

/-- At the end of the path `GETS` has a turn left. -/
theorem InnerPath.turn (h : InnerPath p s m) :
    ∃ fuel, walk p s 256 0 0 = walk p s (fuel + 1) m (nodeValue p s m) := by
  have short := h.lt
  refine ⟨255 - m, ?_⟩
  rw [← h.walk_eq, show 255 - m + 1 + m = 256 by omega]

theorem getsCmd_of_walk {r : Sym × Nat} (valid : s.cv = true) (h : walk p s 256 0 0 = .ok r) :
    getsCmd p s = .ok { s with rdata := r.1, rpos := BitVec.ofNat 64 (s.rpos.toNat + r.2) } := by
  rw [getsCmd, if_neg (by simp [valid]), h, ok_bind]

theorem getsCmd_of_walk_error (valid : s.cv = true) (h : walk p s 256 0 0 = .error k) : getsCmd p s = .error k := by
  rw [getsCmd, if_neg (by simp [valid]), h, error_bind]

theorem getsCmd_of_invalid (invalid : s.cv = false) : getsCmd p s = .error .stateError :=
  if_pos invalid

/-- The bit after the path leads to a leaf. -/
theorem InnerPath.getsCmd_leaf (h : InnerPath p s m) (valid : s.cv = true)
    (bit : readBit p s (s.rpos.toNat + m) = .ok (conBit p s s.rbase.toNat (s.rpos.toNat + m)))
    (leaf : leafAt s (m + 1) (nodeValue p s (m + 1)) = some x) :
    getsCmd p s = .ok { s with rdata := x, rpos := BitVec.ofNat 64 (s.rpos.toNat + (m + 1)) } := by
  obtain ⟨fuel, turn⟩ := h.turn
  exact getsCmd_of_walk valid (turn.trans (walk_leaf bit leaf))

/-- The bit after the path is not there. -/
theorem InnerPath.getsCmd_stop (h : InnerPath p s m) (valid : s.cv = true)
    (noBit : readBit p s (s.rpos.toNat + m) = .error k) : getsCmd p s = .error k := by
  obtain ⟨fuel, turn⟩ := h.turn
  exact getsCmd_of_walk_error valid (turn.trans (walk_stop noBit))

/-- The bit after the path leads to a node that is neither leaf nor inner. -/
theorem InnerPath.getsCmd_dead (h : InnerPath p s m) (valid : s.cv = true)
    (bit : readBit p s (s.rpos.toNat + m) = .ok (conBit p s s.rbase.toNat (s.rpos.toNat + m)))
    (noLeaf : leafAt s (m + 1) (nodeValue p s (m + 1)) = none)
    (notInner : ¬ innerAt s (m + 1) (nodeValue p s (m + 1))) : getsCmd p s = .error .formatMismatch := by
  obtain ⟨fuel, turn⟩ := h.turn
  exact getsCmd_of_walk_error valid (turn.trans (walk_dead bit noLeaf notInner))

/-- Settles O42: the walk follows the path of inner nodes, and the bit after it decides the refusal. -/
theorem getsRefusals : Obligations.GetsRefusals := by
  intro s m
  refine ⟨fun invalid => ?invalid, fun valid bits nodes => ?_⟩
  case invalid => exact exec_of_resultOf_error (i := .gets) (getsCmd_of_invalid invalid)
  have path : InnerPath Config.params s m :=
    { bits := fun k hk => readBit_of_inside (bits k hk).1 (bits k hk).2
      noLeaf := fun k h1 hk => leafAt_none.2 (nodes k h1 hk).1
      inner := fun k h1 hk => innerAt_iff.2 (nodes k h1 hk).2 }
  refine ⟨fun atEnd => ?atEnd, fun inValid outside => ?outside, fun inValid inside noLeaf notInner => ?dead⟩
  case atEnd => exact exec_of_resultOf_error (i := .gets) (path.getsCmd_stop valid (readBit_of_end atEnd))
  case outside =>
    exact exec_of_resultOf_error (i := .gets) (path.getsCmd_stop valid (readBit_of_outside inValid outside))
  case dead =>
    refine exec_of_resultOf_error (i := .gets) (path.getsCmd_dead valid (readBit_of_inside inValid inside)
      (leafAt_none.2 noLeaf) fun inner => ?_)
    obtain ⟨x, longer, same⟩ := innerAt_iff.1 inner
    exact notInner x longer same

/-! ### The path of a code (spec/43_canonical_assigner.md R174(b), R175) -/

/-- A number shifted right one place less ends in one more of its bits. -/
theorem div_two_pow_bit (c i : Nat) : 2 * (c / 2 ^ (i + 1)) + (c.testBit i).toNat = c / 2 ^ i := by
  rw [Nat.toNat_testBit, Nat.pow_succ, ← Nat.div_div_eq_div_mul]
  exact Nat.div_add_mod _ 2

/-- The first bits of a pattern are the pattern with its last bits shifted out. -/
theorem patternBits_div_isPrefix {n m : Nat} (c : Nat) (h : n ≤ m) :
    (patternBits (c / 2 ^ (m - n)) n).IsPrefix (patternBits c m) := by
  refine List.prefix_iff_getElem.2 ⟨by simpa using h, fun i hi => ?_⟩
  rw [patternBits_length] at hi
  rw [patternBits_getElem, patternBits_getElem, Nat.testBit_div_two_pow]
  congr 1
  omega

/-- On the way to the leaf of `x` there is no other leaf, for its code would begin that of `x`. -/
theorem eq_of_leaf_on_path (code : CodeOk s) (valid : s.cv = true) (hx : lenOf s x ≠ 0) (hy : lenOf s y ≠ 0)
    (shorter : lenOf s y ≤ lenOf s x) (onPath : codeOf s y = codeOf s x / 2 ^ (lenOf s x - lenOf s y)) : y = x := by
  obtain ⟨h32, hk, canonical⟩ := code valid
  by_contra other
  refine codeBits_not_isPrefix h32 hk hy hx other ?_
  rw [canonical, canonical] at onPath
  rw [codeBits, onPath]
  exact patternBits_div_isPrefix _ shorter

@[simp] theorem codeBits_length (f : Sym → Nat) (x : Sym) : (codeBits f x).length = f x := patternBits_length _ _

/-- 10 R40: with a valid code the canonical codes are those that `CODE` holds. -/
theorem codeBits_of_valid (code : CodeOk s) (valid : s.cv = true) :
    codeBits (lenOf s) x = patternBits (codeOf s x) (lenOf s x) := by
  obtain ⟨-, -, canonical⟩ := code valid
  rw [codeBits, canonical]

/-- The bits from the reader's cursor on are there and are these. -/
def BitsAhead (p : Params) (s : State) (bits : List Bool) : Prop :=
  ∀ q (h : q < bits.length), readBit p s (s.rpos.toNat + q) = .ok bits[q]

theorem BitsAhead.pattern {c n : Nat} (h : BitsAhead p s (patternBits c n)) {j : Nat} (hj : j < n) :
    readBit p s (s.rpos.toNat + j) = .ok (c.testBit (n - 1 - j)) := by
  have bit := h j (by rwa [patternBits_length])
  rwa [patternBits_getElem] at bit

/-- The nodes on the way are the pattern's first bits. -/
theorem BitsAhead.nodeValue_eq {c n : Nat} (h : BitsAhead p s (patternBits c n)) (fits : c < 2 ^ n) (hm : m ≤ n) :
    nodeValue p s m = c / 2 ^ (n - m) := by
  induction m with
  | zero => exact (Nat.div_eq_of_lt fits).symm
  | succ m ih =>
    obtain ⟨-, -, bit⟩ := readBit_ok.1 (h.pattern hm)
    rw [nodeValue, ih (Nat.le_of_succ_le hm), ← bit, show n - m = n - 1 - m + 1 by omega,
      show n - (m + 1) = n - 1 - m by omega]
    exact div_two_pow_bit c _

theorem BitsAhead.isBit {bits : List Bool} (h : BitsAhead p s bits) (hq : q < bits.length) :
    readBit p s (s.rpos.toNat + q) = .ok (conBit p s s.rbase.toNat (s.rpos.toNat + q)) := by
  obtain ⟨inValid, inside, -⟩ := readBit_ok.1 (h q hq)
  exact readBit_of_inside inValid inside

/-- With the code of `x` ahead the nodes on the way are its first bits. -/
theorem BitsAhead.nodeValue_of_code (code : CodeOk s) (valid : s.cv = true) (hx : lenOf s x ≠ 0)
    (ahead : BitsAhead p s (codeBits (lenOf s) x)) (hm : m ≤ lenOf s x) :
    nodeValue p s m = codeOf s x / 2 ^ (lenOf s x - m) := by
  obtain ⟨-, -, bounded, -⟩ := validCodeIsBounded s code valid
  rw [codeBits_of_valid code valid] at ahead
  exact ahead.nodeValue_eq (bounded x hx) hm

/-- 43 R175: above the leaf of `x` the code of `x` leads to inner nodes only. -/
theorem innerPath_of_codeAhead (code : CodeOk s) (valid : s.cv = true) (ahead : BitsAhead p s (codeBits (lenOf s) x))
    (hm : m < lenOf s x) : InnerPath p s m := by
  have hx : lenOf s x ≠ 0 := Nat.ne_zero_of_lt hm
  refine { bits := fun k hk => ahead.isBit (by rw [codeBits_length]; omega)
           noLeaf := fun k h1 hk => leafAt_none.2 fun y ⟨len, onPath⟩ => ?noLeaf
           inner := fun k h1 hk => innerAt_iff.2 ⟨x, by omega, ?inner⟩ }
  case noLeaf =>
    rw [ahead.nodeValue_of_code code valid hx (by omega), ← len] at onPath
    have same := eq_of_leaf_on_path code valid hx (by omega) (by omega) onPath
    rw [same] at len
    omega
  case inner => exact (ahead.nodeValue_of_code code valid hx (by omega)).symm

/-- With a valid code the only leaf at the end of the code of `x` is that of `x`. -/
theorem leafAt_of_code (code : CodeOk s) (valid : s.cv = true) (hx : lenOf s x ≠ 0) :
    leafAt s (lenOf s x) (codeOf s x) = some x := by
  refine leafAt_eq_some ⟨rfl, rfl⟩ fun y len same => eq_of_leaf_on_path code valid hx (len ▸ hx) len.le ?_
  rw [same, len, Nat.sub_self, Nat.pow_zero, Nat.div_one]

/-- 45 R214: with the code of `x` ahead `GETS` reads `x` and no bit more. -/
theorem getsCmd_of_codeAhead (code : CodeOk s) (valid : s.cv = true) (hx : lenOf s x ≠ 0)
    (ahead : BitsAhead p s (codeBits (lenOf s) x)) :
    getsCmd p s = .ok { s with rdata := x, rpos := BitVec.ofNat 64 (s.rpos.toNat + lenOf s x) } := by
  have leaf := leafAt_of_code code valid hx
  have last := ahead.nodeValue_of_code code valid hx le_rfl
  rw [Nat.sub_self, Nat.pow_zero, Nat.div_one] at last
  obtain ⟨n, hn⟩ := Nat.exists_eq_succ_of_ne_zero hx
  rw [← last, hn] at leaf
  rw [hn]
  exact (innerPath_of_codeAhead code valid ahead (by omega)).getsCmd_leaf valid
    (ahead.isBit (by rw [codeBits_length]; omega)) leaf

/-- Settles O41: the walk passes the inner nodes above the leaf of `x`, where no other code ends, and stops there. -/
theorem getsReadsOneSymbol : Obligations.GetsReadsOneSymbol := by
  intro s x code valid hx bits
  have ahead : BitsAhead Config.params s (codeBits (lenOf s) x) := by
    rw [codeBits_of_valid code valid]
    intro q hq
    rw [patternBits_length] at hq
    rw [patternBits_getElem]
    obtain ⟨inValid, inside, bit⟩ := bits q hq
    exact readBit_ok.2 ⟨inValid, inside, bit.symm⟩
  have read := getsCmd_of_codeAhead code valid hx ahead
  obtain ⟨-, cursor, -, -⟩ := getsCmd_cursor read
  exact ⟨_, exec_of_resultOf_ok (i := .gets) read, rfl, cursor⟩

end Sys2Proof.Machine

/-! ### The reader after the writer (spec/45_bitstream_reader.md R215) -/

namespace Sys2Proof.Machine

variable {p : Params} {s t u : State} {xs : List Sym} {ws : List (Nat × Nat)}

theorem streamOf_cons (f : Sym → Nat) (x : Sym) (xs : List Sym) :
    streamOf f (x :: xs) = codeBits f x ++ streamOf f xs := List.flatMap_cons

theorem streamOf_of_valid (code : CodeOk s) (valid : s.cv = true) :
    streamOf (lenOf s) xs = xs.flatMap fun x => patternBits (codeOf s x) (lenOf s x) :=
  List.flatMap_congr fun _ _ => codeBits_of_valid code valid

/-! #### What the writer leaves -/

/-- The bits written so far lie inside `CON`. -/
def WrittenInside (p : Params) (s : State) : Prop := ∀ q, q < s.wbits.toNat → writerAddr s q < p.conCap

theorem writtenInside_writerInit (p : Params) (s : State) : WrittenInside p (writerInit s) :=
  fun q hq => absurd hq (Nat.not_lt_zero q)

theorem writtenInside_append {v n : Nat} (h : append p v n s = .ok t) : WrittenInside p t := by
  intro q hq
  have moved := writerMoved_append h
  have base : t.wbase = s.wbase := by rw [moved.others]
  obtain ⟨fits, -⟩ := append_ok h
  rw [moved.cursor] at hq
  unfold ceil8 at fits
  rw [writerAddr, base]
  omega

theorem WrittenInside.appendAll (h : WrittenInside p s) (ht : appendAll p ws s = .ok t) : WrittenInside p t := by
  induction ws generalizing s with
  | nil => cases ht; exact h
  | cons w ws ih =>
    obtain ⟨s', first, rest⟩ := bind_eq_ok.1 ht
    exact ih (writtenInside_append first) rest

theorem writerMoved_appendAll (h : appendAll p ws s = .ok t) : WriterMoved p (ws.map Prod.snd).sum s t := by
  induction ws generalizing s with
  | nil => cases h; exact WriterMoved.refl p _
  | cons w ws ih =>
    obtain ⟨s', first, rest⟩ := bind_eq_ok.1 h
    rw [List.map_cons, List.sum_cons]
    exact (writerMoved_append first).trans (ih rest)

/-- A sequence of `PUTS` is one of appends of codes, and each of its symbols has a code. -/
theorem putAll_ok (h : putAll p xs s = .ok t) :
    (∀ x ∈ xs, lenOf s x ≠ 0) ∧ appendAll p (xs.map fun x => (codeOf s x, lenOf s x)) s = .ok t := by
  induction xs generalizing s with
  | nil => exact ⟨nofun, h⟩
  | cons x xs ih =>
    obtain ⟨s', first, rest⟩ := bind_eq_ok.1 h
    obtain ⟨-, coded, -, appended⟩ := putsCmd_ok first
    obtain ⟨codedRest, appendedRest⟩ := ih rest
    have others := (writerMoved_append appended).others
    have len : lenOf s' = lenOf s := by rw [others]; rfl
    have code : codeOf s' = codeOf s := by rw [others]; rfl
    rw [len] at codedRest appendedRest
    rw [code] at appendedRest
    exact ⟨List.forall_mem_cons.2 ⟨coded, codedRest⟩, bind_eq_ok.2 ⟨s', appended, appendedRest⟩⟩

/-- What `PUTS` of a sequence of symbols on an initialised writer, then `FIN`, leave to a reader. -/
structure Written (p : Params) (xs : List Sym) (s u : State) : Prop where
  others : u = { s with wbits := u.wbits, wacc := u.wacc, wfin := u.wfin, con := u.con, err := u.err }
  coded : ∀ x ∈ xs, lenOf s x ≠ 0
  cursor : u.wbits.toNat = (streamOf (lenOf s) xs).length
  stream : HoldsBits p u u.wbase.toNat (streamOf (lenOf s) xs)
  inside : WrittenInside p u

theorem written_of_putAll_finCmd (code : CodeOk s) (valid : s.cv = true)
    (ht : putAll p xs (writerInit s) = .ok t) (hu : finCmd p t = .ok u) : Written p xs s u := by
  obtain ⟨coded, appended⟩ := putAll_ok ht
  have others := (writerMoved_appendAll appended).others
  obtain ⟨final, -⟩ := frame_finCmd hu
  obtain ⟨base, cursor⟩ := finCmd_keeps_cursor hu
  have streamed : Streamed p (streamOf (lenOf s) xs) s t := by
    have written := (streamed_writerInit p s).appendAll appended
    rw [List.nil_append, List.flatMap_map] at written
    rw [streamOf_of_valid code valid]
    exact written
  have insideAtEnd : WrittenInside p t := WrittenInside.appendAll (writtenInside_writerInit p s) appended
  exact
    { others := by rw [final, others, writerInit]
      coded
      cursor := by rw [cursor, streamed.cursor]
      stream := by rw [base, streamed.base]; exact streamed.holdsBits_finCmd hu
      inside := fun q hq => by
        rw [cursor] at hq
        rw [writerAddr, base]
        exact insideAtEnd q hq }

/-! #### What the reader returns -/

theorem BitsAhead.append_left {bits rest : List Bool} (h : BitsAhead p s (bits ++ rest)) : BitsAhead p s bits :=
  fun q hq => by
    rw [h q (by rw [List.length_append]; omega), List.getElem_append_left hq]

/-- Past the first bits the others are ahead. -/
theorem BitsAhead.append_right {bits rest : List Bool} (h : BitsAhead p s (bits ++ rest))
    (others : t = { s with rdata := t.rdata, rpos := t.rpos }) (cursor : t.rpos.toNat = s.rpos.toNat + bits.length) :
    BitsAhead p t rest := fun q hq => by
  have same : readBit p t (t.rpos.toNat + q) = readBit p s (t.rpos.toNat + q) :=
    readBit_congr (by rw [others]) (by rw [others]) fun _ => conByte_congr (by rw [others]) (by rw [others]) _
  rw [same, cursor, Nat.add_assoc, h (bits.length + q) (by rw [List.length_append]; omega)]
  simp

/-- With the codes of a sequence of symbols ahead, as many `GETS` return it and move the cursor past its codes. -/
theorem getAll_of_streamAhead (code : CodeOk s) (valid : s.cv = true) (coded : ∀ x ∈ xs, lenOf s x ≠ 0)
    (ahead : BitsAhead p s (streamOf (lenOf s) xs)) :
    ∃ v, getAll p xs.length s = .ok (xs, v) ∧ v = { s with rdata := v.rdata, rpos := v.rpos } ∧
      v.rpos.toNat = s.rpos.toNat + (streamOf (lenOf s) xs).length := by
  induction xs generalizing s with
  | nil => exact ⟨s, rfl, rfl, rfl⟩
  | cons x xs ih =>
    obtain ⟨codedFirst, codedRest⟩ := List.forall_mem_cons.1 coded
    rw [streamOf_cons] at ahead
    obtain ⟨t, read, rdata⟩ : ∃ t, getsCmd p s = .ok t ∧ t.rdata = x :=
      ⟨_, getsCmd_of_codeAhead code valid codedFirst ahead.append_left, rfl⟩
    obtain ⟨others, cursor, -, -⟩ := getsCmd_cursor read
    rw [rdata] at cursor
    have rest := ahead.append_right others (by rw [cursor, codeBits_length])
    have len : lenOf t = lenOf s := by rw [others]; rfl
    obtain ⟨v, all, othersRest, cursorRest⟩ :=
      ih (by rw [others]; exact code) (by rw [others]; exact valid) (len ▸ codedRest) (len ▸ rest)
    refine ⟨v, ?_, by rw [othersRest, others], ?_⟩
    · rw [List.length_cons, getAll, read, ok_bind, all, ok_bind, rdata]
    · rw [cursorRest, cursor, len, streamOf_cons, List.length_append, codeBits_length, Nat.add_assoc]

/-- The reader pointed at the writer's stream, as 45 R215 does. -/
def readBack (u : State) : State := readerInit { u with rbase := u.wbase, rvalid := u.wbits }

theorem conBit_readBack (base q : Nat) : conBit p (readBack u) base q = conBit p u base q := by
  unfold conBit
  rw [conByte_congr (t := readBack u) (s := u) rfl rfl]

/-- What was written is ahead of that reader. -/
theorem Written.bitsAhead (h : Written p xs s u) : BitsAhead p (readBack u) (streamOf (lenOf s) xs) := by
  intro q hq
  have inValid : q < u.wbits.toNat := h.cursor ▸ hq
  rw [show (readBack u).rpos.toNat + q = q from Nat.zero_add q]
  refine readBit_ok.2 ⟨inValid, h.inside q inValid, ?_⟩
  rw [← h.stream q hq]
  exact (conBit_readBack u.wbase.toNat q).symm

/-- Settles O43: the writer leaves the codes one after the other (R196), each `GETS` takes one off (R214), and with all
taken no bit is left. -/
theorem readerReturnsWhatWasWritten : Obligations.ReaderReturnsWhatWasWritten := by
  intro p s t u xs code valid ht hu
  have written := written_of_putAll_finCmd code valid ht hu
  have validBack : (readBack u).cv = true := by rw [written.others]; exact valid
  have codeBack : CodeOk (readBack u) := by rw [written.others]; exact code
  have len : lenOf (readBack u) = lenOf s := by rw [written.others]; rfl
  obtain ⟨v, all, others, cursor⟩ := getAll_of_streamAhead codeBack validBack (len ▸ written.coded)
    (len ▸ written.bitsAhead)
  have atEnd : v.rpos.toNat = v.rvalid.toNat := by
    rw [cursor, len, others, ← written.cursor]
    exact Nat.zero_add _
  refine ⟨v, all, BitVec.eq_of_toNat_eq atEnd, ?_⟩
  have validEnd : v.cv = true := by rw [others]; exact validBack
  exact (innerPath_zero p v).getsCmd_stop validEnd (readBit_of_end atEnd.ge)

end Sys2Proof.Machine

/-! PROOFS of the family `46_container_codec.md`: the results of `WRHDR` and `PARSE`, the header that one writes and the
other loads, and that `ENCODE` and `DECODE` undo each other. -/

/-! ### The result code of a command (spec/60_exceptions.md R270, R277) -/

namespace Sys2Proof.Machine

variable {p : Params} {s t : State}

/-- The result code that a command ends with. -/
def resultCode : Except ErrKind State → BitVec 4
  | .ok _ => 0
  | .error k => k.code

theorem exec_err {i : Instr} (h : exec i s = .next t) : t.err = resultCode (resultOf i s) := by
  rcases exec_cases i s with ⟨u, result, he⟩ | ⟨k, result, he⟩
  · rw [he] at h; cases h; rw [result]; rfl
  · rw [he] at h; cases h; rw [result]; rfl

/-- A successful command leaves the state of its result, with the code committed. -/
theorem resultOf_of_exec {i : Instr} (h : exec i s = .next t) (h0 : t.err = 0) :
    ∃ u, resultOf i s = .ok u ∧ t = { u with err := 0 } := by
  rw [exec_eq_finish] at h
  exact finish_err_zero h h0

/-- The two tests of `SampleCount` in front of what uses the count (46 R231). -/
theorem sampleCount_bind {α : Type} (w h l : Nat) (f : Nat → Except ErrKind α) : (sampleCount p w h l).bind f =
    if ¬ legalLayout l then .error .formatMismatch
    else if w * h * l > p.maxSamples then .error .dimensionOverflow
    else f (w * h * l) := by
  unfold sampleCount
  by_cases legal : legalLayout l
  · by_cases large : w * h * l > p.maxSamples
    · simp only [legal, large, if_true, not_true, if_false, error_bind]
    · simp only [legal, large, if_true, not_true, if_false, ok_bind]
  · simp only [legal, if_false, not_false_eq_true, if_true, error_bind]

/-! ### `WRHDR` (spec/46_container_codec.md R233) -/

/-- Everything `WRHDR` can do, its tests in order. -/
theorem wrhdrCmd_eq (p : Params) (s : State) : wrhdrCmd p s =
    if s.cv = false then .error .stateError
    else if ¬ legalLayout s.layout.toNat then .error .formatMismatch
    else if sampleTotal s > p.maxSamples then .error .dimensionOverflow
    else if s.total = 0 then .error .emptyInput
    else if sampleTotal s ≠ s.total.toNat then .error .stateError
    else if ∃ x ∈ allSyms, ¬ (freqOf s x ≠ 0 ↔ lenOf s x ≠ 0) then .error .stateError
    else .ok (pointWriter (codedSyms s).length (validBitCount s) (storeCon p s 0 (headerBytes s))) := by
  have mismatch : (someSym fun x => ¬ (freqOf s x ≠ 0 ↔ lenOf s x ≠ 0)) = true ↔
      ∃ x ∈ allSyms, ¬ (freqOf s x ≠ 0 ↔ lenOf s x ≠ 0) := by
    rw [someSym_iff]; simp only [mem_allSyms, true_and]
  unfold wrhdrCmd imageCount
  rw [sampleCount_bind]
  simp only [mismatch]
  rfl

/-- Settles O45: each branch of `WRHDR` with its code. -/
theorem wrhdrResult : Obligations.WrhdrResult := by
  intro s t h
  rw [exec_err h, resultOf, wrhdrCmd_eq]
  simp only [apply_ite resultCode]
  rfl

theorem wrhdrCmd_of_coded (valid : s.cv = true) (layout : legalLayout s.layout.toNat)
    (bound : sampleTotal s ≤ p.maxSamples) (nonempty : s.total ≠ 0) (total : sampleTotal s = s.total.toNat)
    (counted : ∀ x, freqOf s x ≠ 0 ↔ lenOf s x ≠ 0) : wrhdrCmd p s =
      .ok (pointWriter (codedSyms s).length (validBitCount s) (storeCon p s 0 (headerBytes s))) := by
  have matching : ¬ ∃ x ∈ allSyms, ¬ (freqOf s x ≠ 0 ↔ lenOf s x ≠ 0) := fun ⟨x, _, hx⟩ => hx (counted x)
  rw [wrhdrCmd_eq, if_neg (by simp [valid]), if_neg (not_not_intro layout), if_neg (Nat.not_lt.2 bound),
    if_neg nonempty, if_neg (not_not_intro total), if_neg matching]

/-! #### The fields of a header (spec/30_encoding.md R100 to R102) -/

theorem conBytes_zero (a : Nat) : conBytes p s a 0 = [] := rfl

theorem conBytes_succ (a n : Nat) : conBytes p s a (n + 1) = conByte p s a :: conBytes p s (a + 1) n := by
  rw [Nat.add_comm n 1, conBytes_add]; rfl

/-- A range that reads as two lists one after the other. -/
theorem conBytes_eq_append {a : Nat} {xs ys : List Byte} : conBytes p s a (xs ++ ys).length = xs ++ ys ↔
    conBytes p s a xs.length = xs ∧ conBytes p s (a + xs.length) ys.length = ys := by
  rw [List.length_append, conBytes_add]
  exact ⟨fun h => List.append_inj h (conBytes_length a _), fun ⟨h, h'⟩ => by rw [h, h']⟩

/-- A range that reads as pairs of a symbol and a byte. -/
theorem conBytes_eq_pairs {g : Sym → Byte} {a : Nat} {l : List Sym} :
    conBytes p s a (2 * l.length) = (l.flatMap fun x => [x, g x]) ↔
      ∀ j x, l[j]? = some x → conByte p s (a + 2 * j) = x ∧ conByte p s (a + 1 + 2 * j) = g x := by
  induction l generalizing a with
  | nil => simp [conBytes_zero]
  | cons y ys ih =>
    rw [List.length_cons, Nat.mul_add_one, conBytes_succ, conBytes_succ, List.flatMap_cons, List.cons_append,
      List.cons_append, List.nil_append, List.cons.injEq, List.cons.injEq, ih]
    have sym (j : Nat) : a + 1 + 1 + 2 * j = a + 2 * (j + 1) := by omega
    have len (j : Nat) : a + 1 + 1 + 1 + 2 * j = a + 1 + 2 * (j + 1) := by omega
    simp only [sym, len]
    constructor
    · rintro ⟨first, second, rest⟩ j x hj
      cases j with
      | zero => cases hj; exact ⟨first, second⟩
      | succ j => exact rest j x hj
    · exact fun all => ⟨(all 0 y rfl).1, (all 0 y rfl).2, fun j x hj => all (j + 1) x hj⟩

/-- 46 R232: the valid-bit count fits its field, whatever the tables hold. -/
theorem validBitCount_lt (s : State) : validBitCount s < 2 ^ 48 := by
  have bound : ∀ x, freqOf s x * lenOf s x ≤ (2 ^ 32 - 1) * (2 ^ 8 - 1) := fun x =>
    Nat.mul_le_mul (Nat.le_sub_one_of_lt (tableGet s.freq x).isLt) (Nat.le_sub_one_of_lt (tableGet s.len x).isLt)
  have sum := sumSyms_le bound
  have total : sumSyms (fun _ => (2 ^ 32 - 1) * (2 ^ 8 - 1)) = 256 * ((2 ^ 32 - 1) * (2 ^ 8 - 1)) := by
    rw [sumSyms, List.map_const', List.sum_replicate, allSyms_length, smul_eq_mul]
  exact (sum.trans_eq total).trans_lt (by decide)

/-- `CON` begins with the header of the dimensions and tables of `s`, field by field. -/
structure HeaderOf (p : Params) (s t : State) : Prop where
  magic : conBytes p t 0 4 = Sys2Proof.Machine.magic
  width : hdrWidth p t = s.width.toNat
  height : hdrHeight p t = s.height.toNat
  layout : hdrLayout p t = s.layout.toNat
  count : hdrCount p t = (codedSyms s).length
  pairs : conBytes p t 15 (2 * (codedSyms s).length) = pairBytes s
  bits : hdrBits p t (codedSyms s).length = validBitCount s

theorem headerOf_of_conBytes (h : conBytes p t 0 (payloadOffset (codedSyms s).length) = headerBytes s) :
    HeaderOf p s t := by
  have few : (codedSyms s).length ≤ 256 := presentSyms_length_le _
  have small := validBitCount_lt s
  rw [← headerBytes_length, headerBytes] at h
  simp only [conBytes_eq_append] at h
  simp only [List.length_append, leBytes_length, pairBytes_length,
    show Sys2Proof.Machine.magic.length = 4 from rfl, Nat.zero_add, Nat.reduceAdd] at h
  obtain ⟨⟨⟨⟨⟨⟨magic, width⟩, height⟩, layout⟩, count⟩, pairs⟩, bits⟩ := h
  exact
    { magic
      width := by rw [hdrWidth, width, leVal_leBytes _ _ s.width.isLt]
      height := by rw [hdrHeight, height, leVal_leBytes _ _ s.height.isLt]
      layout := by rw [hdrLayout, layout, leVal_leBytes _ _ s.layout.isLt]
      count := by rw [hdrCount, count, leVal_leBytes _ _ (by omega)]
      pairs
      bits := by rw [hdrBits, bits, leVal_leBytes _ _ (by omega)] }

/-- The writer's offsets as naturals: no header and no valid-bit count is too large for the registers. -/
theorem pointWriter_offsets {n vbc : Nat} (few : n ≤ 256) (small : vbc < 2 ^ 48) :
    (pointWriter n vbc s).wbase.toNat = payloadOffset n ∧
      (pointWriter n vbc s).conlen.toNat = payloadOffset n + ceil8 vbc := by
  have end_lt : payloadOffset n + ceil8 vbc < 2 ^ 64 := by unfold payloadOffset ceil8; omega
  rw [pointWriter_wbase, pointWriter_conlen, BitVec.toNat_ofNat, BitVec.toNat_ofNat]
  exact ⟨Nat.mod_eq_of_lt (by omega), Nat.mod_eq_of_lt end_lt⟩

/-- What a successful `WRHDR` writes: the header in `CON`, and where the payload begins and ends. -/
theorem wrhdrCmd_header (h : wrhdrCmd p s = .ok t) :
    conBytes p t 0 (payloadOffset (codedSyms s).length) = headerBytes s ∧
    t.wbase.toNat = payloadOffset (codedSyms s).length ∧
      t.conlen.toNat = payloadOffset (codedSyms s).length + ceil8 (validBitCount s) := by
  obtain ⟨-, -, -, -, -, -, rfl⟩ := wrhdrCmd_ok h
  exact ⟨(conBytes_congr fun i _ _ => conByte_pointWriter _ _ i).trans (conBytes_header s),
    pointWriter_offsets (presentSyms_length_le _) (validBitCount_lt s)⟩

/-- Settles O44: the header that `WRHDR` stores is read back field by field. -/
theorem wrhdrWritesTheHeader : Obligations.WrhdrWritesTheHeader := by
  intro s valid layout bound nonempty total counted
  have written := wrhdrCmd_of_coded valid layout bound nonempty total counted
  obtain ⟨stored, base, conlen⟩ := wrhdrCmd_header written
  have header := headerOf_of_conBytes stored
  obtain ⟨-, kept⟩ := frame_wrhdrCmd written
  refine ⟨_, exec_of_resultOf_ok (i := .wrhdr) written, ?others, base, conlen.trans (by rw [← base]; rfl),
    header.magic, header.width, header.height, header.layout, header.count, header.pairs, header.bits,
    fun a ha => kept a (base ▸ ha)⟩
  case others =>
    rw [storeCon_eq]
    rfl

/-! ### The tests of `PARSE` (spec/46_container_codec.md R235) -/

/-- The pair is refused: its length is 0, or its symbol is not above the one before. -/
abbrev PairRefused (p : Params) (s : State) (j : Nat) : Prop :=
  pairLen p s j = 0 ∨ (0 < j ∧ (pairSym p s j).toNat ≤ (pairSym p s (j - 1)).toNat)

theorem parsePairs_of_refused {n : Nat} (h : ∃ j < n, PairRefused p s j) :
    parsePairs p s n = .error .formatMismatch := by
  cases result : parsePairs p s n with
  | error k => rw [(parsePairs_error result).1]
  | ok a =>
    have read := parsePairs_ok result
    obtain ⟨j, hj, zero | ⟨pos, notAbove⟩⟩ := h
    · exact absurd zero (read.nonzero j hj)
    · exact absurd (read.ascending (j - 1) j (by omega) hj) (Nat.not_lt.2 notAbove)

theorem parsePairs_of_accepted {n : Nat} (h : ∀ j < n, ¬ PairRefused p s j) :
    ∃ a, parsePairs p s n = .ok a ∧ PairsRead p s n a :=
  parsePairs_total (fun j hj zero => h j hj (.inl zero))
    fun j pos hj => Nat.lt_of_not_le fun notAbove => h j hj (.inr ⟨pos, notAbove⟩)

/-- The tests of `PARSE` in front of the pairs, in order. -/
theorem parseCmd_eq (p : Params) (s : State) : parseCmd p s =
    if s.conlen.toNat > p.conCap then .error .stateError
    else if s.conlen.toNat < 4 ∨ conBytes p s 0 4 ≠ magic then .error .formatMismatch
    else if s.conlen.toNat < 15 then .error .formatMismatch
    else if ¬ legalLayout (hdrLayout p s) then .error .formatMismatch
    else if hdrWidth p s * hdrHeight p s * hdrLayout p s > p.maxSamples then .error .dimensionOverflow
    else if hdrCount p s = 0 ∧ hdrWidth p s * hdrHeight p s * hdrLayout p s > 0 then .error .formatMismatch
    else if hdrCount p s > 256 then .error .formatMismatch
    else if s.conlen.toNat < payloadOffset (hdrCount p s) then .error .formatMismatch
    else (parsePairs p s (hdrCount p s)).bind fun a => parseLoad p s (hdrCount p s) a.1 := by
  unfold parseCmd
  rw [sampleCount_bind]

/-- The pairs and the payload test. -/
theorem resultCode_table (p : Params) (s : State) (n : Nat) :
    resultCode ((parsePairs p s n).bind fun a => parseLoad p s n a.1) =
      if ∃ j < n, PairRefused p s j then 3
      else if s.conlen.toNat - payloadOffset n < ceil8 (hdrBits p s n) then 4 else 0 := by
  by_cases refused : ∃ j < n, PairRefused p s j
  · rw [parsePairs_of_refused refused, if_pos refused]; rfl
  · obtain ⟨a, accepted, -⟩ := parsePairs_of_accepted fun j hj hr => refused ⟨j, hj, hr⟩
    rw [accepted, if_neg refused, ok_bind, parseLoad, apply_ite resultCode]
    rfl

/-- Settles O48: each branch of `PARSE` with its code. -/
theorem parseResult : Obligations.ParseResult := by
  intro s t h
  rw [exec_err h, resultOf, parseCmd_eq]
  simp only [apply_ite resultCode, resultCode_table]
  rfl

/-! ### The table that `PARSE` loads (spec/46_container_codec.md R235, spec/30_encoding.md R102) -/

variable {f : Sym → Nat}

/-- Where the pairs read are those of a list of symbols, the table is that of the list. -/
theorem PairsRead.table {a : PairScan} {l : List Sym} {g : Sym → Byte} (h : PairsRead p s l.length a)
    (pairs : ∀ j x, l[j]? = some x → pairSym p s j = x ∧ pairLen p s j = g x) (x : Sym) :
    tableGet a.1 x = if x ∈ l then g x else 0 := by
  split
  · rename_i listed
    obtain ⟨j, hj⟩ := List.mem_iff_getElem?.1 listed
    obtain ⟨sym, len⟩ := pairs j x hj
    rw [← len, ← h.listed j (List.getElem?_eq_some_iff.1 hj).1, sym]
  · rename_i absent
    refine h.others x fun j hj sym => absent ?_
    have listed := List.getElem?_eq_getElem hj
    rw [← sym, (pairs j _ listed).1]
    exact List.getElem_mem hj

/-- Sorted lists of symbols with the same members are equal. -/
theorem sorted_ext {l l' : List Sym} (h : l.Pairwise fun x y => x.toNat < y.toNat)
    (h' : l'.Pairwise fun x y => x.toNat < y.toNat) (same : ∀ x, x ∈ l ↔ x ∈ l') : l = l' := by
  have nodup {k : List Sym} (hk : k.Pairwise fun x y => x.toNat < y.toNat) : k.Nodup :=
    hk.imp fun hlt e => by subst e; omega
  refine List.Perm.eq_of_pairwise (le := fun x y : Sym => x.toNat < y.toNat) ?_ h h' ?_
  · intro x y _ _ h1 h2; omega
  · exact (List.perm_ext_iff_of_nodup (nodup h) (nodup h')).2 same

/-- The symbols of the table loaded are those of the pairs. -/
theorem PairsRead.presentSyms {n : Nat} {a : PairScan} (h : PairsRead p s n a) :
    presentSyms (fun x => (tableGet a.1 x).toNat) = (List.range n).map (pairSym p s) := by
  refine sorted_ext (presentSyms_sorted _) ?_ fun x => ?_
  · rw [List.pairwise_map]
    exact List.Pairwise.imp_of_mem (fun _ hj hij => h.ascending _ _ hij (List.mem_range.1 hj)) List.pairwise_lt_range
  · rw [mem_presentSyms, List.mem_map]
    constructor
    · intro present
      by_contra unlisted
      refine present ?_
      rw [h.others x fun j hj sym => unlisted ⟨j, List.mem_range.2 hj, sym⟩]
      rfl
    · rintro ⟨j, hj, rfl⟩ zero
      rw [h.listed j (List.mem_range.1 hj)] at zero
      exact h.nonzero j (List.mem_range.1 hj) (BitVec.eq_of_toNat_eq zero)

/-- The state that `PARSE` leaves holds the table of the header (46 R235). -/
theorem holdsHeader_of_parseCmd (h : parseCmd p s = .ok t) : HoldsHeader p s (lenOf t) := by
  obtain ⟨fits, -, magic, -, layout, bound, empty, -, offset, a, table, load⟩ := parseCmd_ok h
  have read := parsePairs_ok table
  obtain ⟨whole, rfl⟩ := parseLoad_ok load
  have syms : presentSyms (fun x => (tableGet a.1 x).toNat) = _ := read.presentSyms
  have count : (presentSyms fun x => (tableGet a.1 x).toNat).length = hdrCount p s := by simp [syms]
  change HoldsHeader p s fun x => (tableGet a.1 x).toNat
  refine { fits, magic, layout, bound, count := count.symm, lengths := fun x => (tableGet a.1 x).isLt,
           pairs := conBytes_eq_pairs.2 fun j x hj => ?pairs, empty := fun none => by omega,
           whole := by rw [count]; omega }
  case pairs =>
    rw [syms, List.getElem?_map, Option.map_eq_some_iff] at hj
    obtain ⟨i, hi, rfl⟩ := hj
    obtain ⟨hlt, rfl⟩ := List.getElem?_eq_some_iff.1 hi
    rw [List.length_range] at hlt
    rw [List.getElem_range, BitVec.ofNat_toNat, BitVec.setWidth_eq, read.listed j hlt]
    exact ⟨rfl, rfl⟩

/-- Settles O47: the pairs read ascend, so they list the symbols of the table loaded. -/
theorem parseAcceptsOnlyHeaders : Obligations.ParseAcceptsOnlyHeaders := by
  intro s t h h0
  obtain ⟨u, parsed, rfl⟩ := resultOf_of_exec h h0
  exact holdsHeader_of_parseCmd (t := u) parsed

/-! ### What `PARSE` loads (spec/46_container_codec.md R235) -/

/-- Each pair of a header is a symbol with its length. -/
theorem HoldsHeader.pair (h : HoldsHeader p s f) {j : Nat} {x : Sym} (hj : (presentSyms f)[j]? = some x) :
    pairSym p s j = x ∧ pairLen p s j = BitVec.ofNat 8 (f x) :=
  conBytes_eq_pairs.1 h.pairs j x hj

theorem HoldsHeader.accepted (h : HoldsHeader p s f) {j : Nat} (hj : j < (presentSyms f).length) :
    ¬ PairRefused p s j := by
  obtain ⟨sym, len⟩ := h.pair (List.getElem?_eq_getElem hj)
  rintro (zero | ⟨pos, notAbove⟩)
  · have present : f (presentSyms f)[j] ≠ 0 := mem_presentSyms.1 (List.getElem_mem hj)
    have small := h.lengths (presentSyms f)[j]
    rw [len] at zero
    have := congrArg BitVec.toNat zero
    rw [BitVec.toNat_ofNat, Nat.mod_eq_of_lt small] at this
    exact present this
  · rw [sym, (h.pair (List.getElem?_eq_getElem (show j - 1 < _ by omega))).1] at notAbove
    have := List.pairwise_iff_getElem.1 (presentSyms_sorted f) (j - 1) j (by omega) hj (by omega)
    omega

/-- The pairs of a header are accepted, and the table made of them is that of the lengths. -/
theorem parsePairs_of_holdsHeader (h : HoldsHeader p s f) : ∃ a, parsePairs p s (hdrCount p s) = .ok a ∧
    ∀ x, (tableGet a.1 x).toNat = f x := by
  rw [h.count]
  obtain ⟨a, accepted, read⟩ := parsePairs_of_accepted fun j hj => h.accepted hj
  refine ⟨a, accepted, fun x => ?_⟩
  rw [read.table (fun j x hj => h.pair hj) x]
  split
  · exact Nat.mod_eq_of_lt (h.lengths x)
  · rename_i absent
    exact (not_not.1 (mt mem_presentSyms.2 absent)).symm

end Sys2Proof.Machine

/-! ### What `PARSE` loads of a header (spec/46_container_codec.md R235) -/

namespace Sys2Proof.Machine

variable {p : Params} {s t u : State} {f : Sym → Nat}

/-- With `CONLEN` lowered to where the pairs and the count still lie below it, `PARSE` comes to the payload test. -/
theorem parseCmd_of_cut (h : HoldsHeader p s f) {c : BitVec 64} (below : c.toNat ≤ s.conlen.toNat)
    (offset : payloadOffset (presentSyms f).length ≤ c.toNat) : parseCmd p { s with conlen := c } =
      (parsePairs p s (hdrCount p s)).bind fun a => parseLoad p { s with conlen := c } (hdrCount p s) a.1 := by
  have fits := h.fits
  have long : 23 ≤ c.toNat := (Nat.le_add_right 23 _).trans offset
  have count := h.count
  have few := presentSyms_length_le f
  have empty : ¬ (hdrCount p s = 0 ∧ hdrWidth p s * hdrHeight p s * hdrLayout p s > 0) := fun ⟨noPairs, samples⟩ =>
    Nat.ne_of_gt samples (h.empty noPairs)
  have magic : ¬ (c.toNat < 4 ∨ conBytes p s 0 4 ≠ magic) := not_or.2 ⟨by omega, not_not_intro h.magic⟩
  rw [parseCmd_eq]
  exact (if_neg (by dsimp only; omega)).trans <| (if_neg magic).trans <| (if_neg (by dsimp only; omega)).trans <|
    (if_neg (not_not_intro h.layout)).trans <| (if_neg (Nat.not_lt.2 h.bound)).trans <| (if_neg empty).trans <|
    (if_neg (show ¬ hdrCount p s > 256 by omega)).trans <|
    if_neg (show ¬ c.toNat < payloadOffset (hdrCount p s) by rw [count]; omega)

/-- With `CONLEN` lowered into the header, `PARSE` refuses. -/
theorem parseCmd_of_short (h : HoldsHeader p s f) {c : BitVec 64} (below : c.toNat ≤ s.conlen.toNat)
    (short : c.toNat < payloadOffset (presentSyms f).length) :
    parseCmd p { s with conlen := c } = .error .formatMismatch := by
  have fits := h.fits
  have few := presentSyms_length_le f
  rw [← h.count] at short few
  rw [parseCmd_eq]
  refine (if_neg (by dsimp only; omega)).trans ?_
  refine ite_eq_left_iff.2 fun _ => ite_eq_left_iff.2 fun _ => ?_
  refine (if_neg (not_not_intro h.layout)).trans <| (if_neg (Nat.not_lt.2 h.bound)).trans ?_
  exact ite_eq_left_iff.2 fun _ => (if_neg (Nat.not_lt.2 few)).trans (if_pos short)

/-- What `PARSE` makes of a container with the header of the lengths `f`. -/
structure Loaded (p : Params) (s : State) (f : Sym → Nat) (t : State) : Prop where
  others : t = { s with
    width := t.width, height := t.height, layout := t.layout, len := t.len, cv := false, rbase := t.rbase
    rvalid := t.rvalid, rpos := 0, rdata := 0 }
  width : t.width.toNat = hdrWidth p s
  height : t.height.toNat = hdrHeight p s
  layout : t.layout.toNat = hdrLayout p s
  len : ∀ x, lenOf t x = f x
  rbase : t.rbase.toNat = payloadOffset (presentSyms f).length
  rvalid : t.rvalid.toNat = hdrBits p s (presentSyms f).length

/-- A field of `n` bytes fits a register of as many. -/
theorem toNat_ofNat_leVal (a n : Nat) {w : Nat} (hw : 256 ^ n ≤ 2 ^ w) :
    (BitVec.ofNat w (leVal (conBytes p s a n))).toNat = leVal (conBytes p s a n) := by
  have small := leVal_lt (conBytes p s a n)
  rw [conBytes_length] at small
  rw [BitVec.toNat_ofNat, Nat.mod_eq_of_lt (small.trans_le hw)]

theorem parseCmd_of_holdsHeader (h : HoldsHeader p s f) : ∃ t, parseCmd p s = .ok t ∧ Loaded p s f t := by
  have whole := h.whole
  have tested : parseCmd p s = (parsePairs p s (hdrCount p s)).bind fun a => parseLoad p s (hdrCount p s) a.1 :=
    parseCmd_of_cut h (c := s.conlen) le_rfl (by omega)
  obtain ⟨a, table, lens⟩ := parsePairs_of_holdsHeader h
  rw [tested, table, ok_bind, h.count, parseLoad, if_neg (show ¬ s.conlen.toNat - _ < _ by omega)]
  have offset : payloadOffset (presentSyms f).length < 2 ^ 64 := by have := s.conlen.isLt; omega
  exact ⟨_, rfl,
    { others := rfl
      width := toNat_ofNat_leVal 4 4 (by decide)
      height := toNat_ofNat_leVal 8 4 (by decide)
      layout := toNat_ofNat_leVal 12 1 (by decide)
      len := lens
      rbase := Nat.mod_eq_of_lt offset
      rvalid := toNat_ofNat_leVal _ 8 (by decide) }⟩

/-- Settles O46: the header passes every test of `PARSE`, and the fields fit their registers. -/
theorem parseLoadsTheHeader : Obligations.ParseLoadsTheHeader := by
  intro s f h
  obtain ⟨t, parsed, loaded⟩ := parseCmd_of_holdsHeader h
  refine ⟨_, exec_of_resultOf_ok (i := .parse) parsed, ?others, loaded.width, loaded.height, loaded.layout, loaded.len,
    loaded.rbase, loaded.rvalid⟩
  case others => rw [loaded.others]

/-- A container cut in its payload is refused for that, one cut in its header for its format (46 R242). -/
theorem parseCmd_of_truncated (h : HoldsHeader p s f) {c : BitVec 64}
    (cut : c.toNat < payloadOffset (presentSyms f).length + ceil8 (hdrBits p s (presentSyms f).length)) :
    parseCmd p { s with conlen := c } =
      .error (if c.toNat < payloadOffset (presentSyms f).length then .formatMismatch else .truncatedStream) := by
  have whole := h.whole
  split
  · exact parseCmd_of_short h (by omega) ‹_›
  · obtain ⟨a, table, -⟩ := parsePairs_of_holdsHeader h
    rw [parseCmd_of_cut h (by omega) (by omega), table, ok_bind, h.count]
    exact if_pos (show c.toNat - payloadOffset _ < ceil8 (hdrBits p s _) by omega)

/-! ### `GETS` in sequence and the loop of `DECODE` (spec/46_container_codec.md R236) -/

namespace SameResult

variable {α β : Type} {R : α → β → Prop} {a : α} {x : Except ErrKind α} {y : Except ErrKind β} {k : ErrKind}

theorem of_ok (h : SameResult R (.ok a) y) : ∃ b, y = .ok b ∧ R a b := by
  cases h with
  | ok h => exact ⟨_, rfl, h⟩

theorem of_error (h : SameResult R (.error k) y) : y = .error k := by
  cases h with
  | error => rfl

/-- What the results were may be used of the values. -/
theorem withResults (h : SameResult R x y) : SameResult (fun a b => R a b ∧ x = .ok a ∧ y = .ok b) x y := by
  cases h with
  | ok h => exact .ok ⟨h, rfl, rfl⟩
  | error k => exact .error k

end SameResult

variable {n : Nat} {xs : List Sym}

/-- One more `GETS` after the others. -/
theorem getAll_succ (n : Nat) (s : State) : getAll p (n + 1) s =
    (getAll p n s).bind fun r => (getsCmd p r.2).bind fun t => .ok (r.1 ++ [t.rdata], t) := by
  induction n generalizing s with
  | zero => rfl
  | succ n ih =>
    rw [getAll, getAll]
    cases getsCmd p s with
    | error k => rfl
    | ok t =>
      rw [ok_bind, ok_bind, ih]
      cases getAll p n t with
      | error k => rfl
      | ok r =>
        rw [ok_bind, ok_bind, ok_bind]
        cases getsCmd p r.2 <;> rfl

/-- `RDATA` holds the symbol read last. -/
theorem getAll_rdata (h : getAll p n s = .ok (xs, t)) : t.rdata = xs.getLast?.getD s.rdata := by
  induction n generalizing s xs with
  | zero => cases h; rfl
  | succ n ih =>
    obtain ⟨s', -, h⟩ := bind_eq_ok.1 h
    obtain ⟨⟨ys, t'⟩, rest, h⟩ := bind_eq_ok.1 h
    cases h
    rw [ih rest, List.getLast?_cons]
    rfl

/-- A store to `PIX` changes nothing that `GETS` reads. -/
theorem SameCode.setPix (h : SameCode p s t) (a : Nat) (b : Byte) : SameCode p s (setPix p t a b) := by
  rw [setPix_eq]
  exact { h with stream := h.stream }

theorem SameCode.getsCmd (h : SameCode p s t) : SameResult (SameCode p) (getsCmd p s) (getsCmd p t) := by
  have same : SameSamples p 0 s t := { h with samples := nofun }
  exact same.getsCmd.mono fun _ _ _ h => h.toSameCode

/-- The loop of `DECODE` stands where as many `GETS` do, and has stored the symbols they have read. -/
structure ReadInto (p : Params) (n : Nat) (r : List Sym × State) (t : State) : Prop extends SameCode p r.2 t where
  samples : pixels p t n = r.1

theorem readInto_of_sameCode (h : SameCode p s t) (hn : n ≤ p.maxSamples) :
    SameResult (ReadInto p n) (getAll p n s) (getImage p n t) := by
  induction n with
  | zero => exact .ok { h with samples := rfl }
  | succ n ih =>
    rw [getAll_succ, getImage_succ]
    refine (ih (Nat.le_of_succ_le hn)).bind fun r c _ read => ?_
    refine read.toSameCode.getsCmd.withResults.bind fun u v _ ⟨same, _, gets⟩ => .ok ?_
    obtain ⟨-, _, -, rfl⟩ := getsCmd_ok gets
    refine { same.setPix _ _ with samples := ?_ }
    rw [pixels_succ, pixByte_setPix hn, if_pos rfl, ← same.rdata, ← read.samples]
    congr 1
    exact List.map_congr_left fun a ha => by
      rw [pixByte_setPix_ne (Nat.ne_of_lt (List.mem_range.1 ha))]
      exact pixByte_congr rfl rfl a

/-! ### `DECODE` of a container (spec/46_container_codec.md R236) -/

variable {img : List Sym}

/-- What `DECODE` makes of a container of `img` under the lengths `f`. -/
structure Decoded (p : Params) (s : State) (f : Sym → Nat) (img : List Sym) (t : State) : Prop where
  cv : t.cv = true
  width : t.width.toNat = hdrWidth p s
  height : t.height.toNat = hdrHeight p s
  layout : t.layout.toNat = hdrLayout p s
  len : ∀ x, lenOf t x = f x
  code : ∀ x, codeOf t x = canonicalCode f x
  rbase : t.rbase.toNat = payloadOffset (presentSyms f).length
  rvalid : t.rvalid.toNat = hdrBits p s (presentSyms f).length
  rpos : t.rpos.toNat = (streamOf f img).length
  rdata : t.rdata = img.getLast?.getD 0
  samples : pixels p t img.length = img

/-- The payload of a container is ahead of the reader that `PARSE` has pointed at it. -/
theorem HoldsContainer.bitsAhead (h : HoldsContainer p s f img) (hp : Loaded p s f t)
    (hu : u = { t with code := u.code, cv := u.cv }) : BitsAhead p u (streamOf f img) := by
  intro q hq
  have whole := h.header.whole
  have fits := h.header.fits
  have valid := h.valid
  have rbase : u.rbase.toNat = payloadOffset (presentSyms f).length := by rw [hu]; exact hp.rbase
  have rvalid : u.rvalid.toNat = hdrBits p s (presentSyms f).length := by rw [hu]; exact hp.rvalid
  have rpos : u.rpos.toNat = 0 := by rw [hu, hp.others]; rfl
  have con (a : Nat) : conByte p u a = conByte p s a :=
    conByte_congr (by rw [hu, hp.others]) (by rw [hu, hp.others]) a
  rw [rpos, Nat.zero_add]
  refine readBit_ok.2 ⟨by omega, ?_, ?_⟩
  · unfold readerAddr
    unfold ceil8 at whole
    omega
  · rw [conBit, con, rbase, ← h.payload q hq, conBit]

theorem decodeCmd_of_holdsContainer (h : HoldsContainer p s f img) :
    ∃ t, decodeCmd p s = .ok t ∧ Decoded p s f img t := by
  obtain ⟨t1, parsed, loaded⟩ := parseCmd_of_holdsHeader h.header
  have len : lenOf t1 = f := funext loaded.len
  obtain ⟨t2, assigned⟩ : ∃ t2, assignCmd t1 = .ok t2 :=
    ⟨_, assignCmd_of_kraft (by rw [len]; exact h.admitted) (by rw [len]; exact h.kraft)⟩
  have codeOk := codeOk_assignCmd assigned
  obtain ⟨-, -, ht2⟩ := assignCmd_ok assigned
  have cv : t2.cv = true := by rw [ht2]
  have len2 : lenOf t2 = f := by rw [ht2]; exact len
  have total : sampleTotal t2 = img.length := by
    rw [ht2, ← h.samples, ← loaded.width, ← loaded.height, ← loaded.layout]; rfl
  have ahead : BitsAhead p t2 (streamOf f img) := h.bitsAhead loaded (by rw [ht2])
  rw [← len2] at ahead
  obtain ⟨w, all, others, cursor⟩ :=
    getAll_of_streamAhead codeOk cv (by rw [len2]; exact h.coded) ahead
  have self : SameCode p t2 t2 := ⟨⟨rfl, rfl, rfl, rfl, rfl, rfl, rfl, rfl, fun _ _ => rfl⟩, rfl, rfl⟩
  have read := readInto_of_sameCode (n := img.length) self (by rw [← h.samples]; exact h.header.bound)
  rw [all] at read
  obtain ⟨t, image, same⟩ := read.of_ok
  have decoded : decodeCmd p s = .ok t := by
    rw [decodeCmd, parsed, ok_bind, assigned, ok_bind, ← image, ← total]; rfl
  obtain ⟨-, -, codes⟩ := codeOk cv
  have rpos0 : t2.rpos.toNat = 0 := by rw [ht2, loaded.others]; rfl
  have rdata0 : t2.rdata = 0 := by rw [ht2, loaded.others]
  exact ⟨t, decoded,
    { cv := by rw [same.cv, others]; exact cv
      width := by rw [same.width, others, ht2]; exact loaded.width
      height := by rw [same.height, others, ht2]; exact loaded.height
      layout := by rw [same.layout, others, ht2]; exact loaded.layout
      len := fun x => by rw [same.lenOf, others, ← len2]; rfl
      code := fun x => by
        rw [← len2, ← codes x, codeOf, same.code, others]; rfl
      rbase := by rw [same.rbase, others, ht2]; exact loaded.rbase
      rvalid := by rw [same.rvalid, others, ht2]; exact loaded.rvalid
      rpos := by rw [same.rpos, cursor, len2, rpos0, Nat.zero_add]
      rdata := by rw [same.rdata, getAll_rdata all, rdata0]
      samples := same.samples }⟩

/-- Settles O53: `PARSE` loads the header, `ASSIGN` makes its code, and the loop stores what as many `GETS` read. -/
theorem decodeReadsTheContainer : Obligations.DecodeReadsTheContainer := by
  intro s f img h
  obtain ⟨t, decoded, d⟩ := decodeCmd_of_holdsContainer h
  have frame := frame_decodeCmd decoded
  have total : sampleTotal t = img.length := by
    rw [← h.samples, ← d.width, ← d.height, ← d.layout]; rfl
  refine ⟨_, exec_of_resultOf_ok (i := .decode) decoded, rfl, frame.withErr 0, d.cv, d.width, d.height, d.layout, d.len,
    d.code, d.rbase, d.rvalid, d.rpos, d.rdata, d.samples, fun a ha => ?_⟩
  exact frame.2 a (total.trans_le ha)

end Sys2Proof.Machine

/-! ### Which errors the decode side can end with (spec/46_container_codec.md R247) -/

namespace Sys2Proof.Machine

variable {p : Params} {s t u : State} {n : Nat}

/-- Every error that the result can be is one of these kinds. -/
def ErrsIn {α : Type} (ks : List ErrKind) (x : Except ErrKind α) : Prop := ∀ k, x = .error k → k ∈ ks

namespace ErrsIn

variable {α β : Type} {ks : List ErrKind} {x y : Except ErrKind α}

theorem ok (a : α) : ErrsIn ks (.ok a) := nofun

theorem error {k : ErrKind} (hk : k ∈ ks) : ErrsIn ks (.error k : Except ErrKind α) := fun j h => by
  cases h; exact hk

theorem ite {c : Prop} [Decidable c] (hx : c → ErrsIn ks x) (hy : ¬ c → ErrsIn ks y) :
    ErrsIn ks (if c then x else y) := by
  split
  · exact hx ‹_›
  · exact hy ‹_›

theorem bind {f : α → Except ErrKind β} (hx : ErrsIn ks x) (hf : ∀ a, x = .ok a → ErrsIn ks (f a)) :
    ErrsIn ks (x.bind f) := by
  intro k h
  rcases bind_eq_error.1 h with h | ⟨a, ha, h⟩
  · exact hx k h
  · exact hf a ha k h

theorem mono {js : List ErrKind} (h : ErrsIn js x) (hj : js ⊆ ks) : ErrsIn ks x := fun k hk => hj (h k hk)

end ErrsIn

/-- With `CONLEN` inside the memory `PARSE` never ends with `StateError`. -/
theorem parseCmd_errsIn (fits : s.conlen.toNat ≤ p.conCap) :
    ErrsIn [.formatMismatch, .dimensionOverflow, .truncatedStream] (parseCmd p s) := by
  rw [parseCmd_eq, if_neg (Nat.not_lt.2 fits)]
  refine .ite (fun _ => .error (by decide)) fun _ => ?_
  refine .ite (fun _ => .error (by decide)) fun _ => ?_
  refine .ite (fun _ => .error (by decide)) fun _ => ?_
  refine .ite (fun _ => .error (by decide)) fun _ => ?_
  refine .ite (fun _ => .error (by decide)) fun _ => ?_
  refine .ite (fun _ => .error (by decide)) fun _ => ?_
  refine .ite (fun _ => .error (by decide)) fun _ => ?_
  refine .bind (fun k h => ?_) fun a _ => ?_
  · rw [(parsePairs_error h).1]; decide
  · exact .ite (fun _ => .error (by decide)) fun _ => .ok _

theorem parseCmd_of_conlen (tooLong : s.conlen.toNat > p.conCap) : parseCmd p s = .error .stateError := by
  rw [parseCmd_eq, if_pos tooLong]

theorem assignCmd_errsIn (s : State) : ErrsIn [.codeLengthOverflow, .formatMismatch] (assignCmd s) :=
  .ite (fun _ => .error (by decide)) fun _ => .ite (fun _ => .error (by decide)) fun _ => .ok _

/-- With a valid code and the whole stream inside `CON`, `GETS` never ends with `StateError`. -/
theorem getsCmd_errsIn (valid : s.cv = true) (inside : ∀ q, q < s.rvalid.toNat → readerAddr s q < p.conCap) :
    ErrsIn [.truncatedStream, .formatMismatch] (getsCmd p s) := by
  refine .ite (fun invalid => by rw [valid] at invalid; cases invalid) fun _ => .bind (fun k h => ?_) fun _ _ => .ok _
  rcases walk_error (by decide) (by decide) h with rfl | rfl | ⟨-, q, hq, outside⟩
  · decide
  · decide
  · exact absurd (inside _ hq) (Nat.not_lt.2 outside)

theorem getImage_errsIn (valid : s.cv = true) (inside : ∀ q, q < s.rvalid.toNat → readerAddr s q < p.conCap) :
    ErrsIn [.truncatedStream, .formatMismatch] (getImage p n s) := by
  intro k h
  have turn : ∀ i c d, i < n → SamplesStored p i s c →
      ((getsCmd p c).bind fun u => .ok (setPix p u i u.rdata)) = .ok d → SamplesStored p (i + 1) s d := by
    intro i c d _ hc hd
    obtain ⟨u, hu, hd⟩ := bind_eq_ok.1 hd
    cases hd
    exact hc.succ hu
  obtain ⟨i, c, -, hc, hk⟩ := loop_error (I := fun i u => SamplesStored p i s u) (SamplesStored.refl p s) turn h
  have read : ErrsIn [.truncatedStream, .formatMismatch] (getsCmd p c) :=
    getsCmd_errsIn (by rw [hc.others]; exact valid) (by rw [hc.others]; exact inside)
  exact (read.bind fun _ _ => .ok _) k hk

/-- What `PARSE` admits lies inside `CON` whole. -/
theorem parseCmd_stream_lt (h : parseCmd p s = .ok t) {q : Nat} (hq : q < t.rvalid.toNat) :
    readerAddr t q < p.conCap := by
  obtain ⟨fits, -, -, -, -, -, -, -, offset, _, -, load⟩ := parseCmd_ok h
  exact (parseLoad_stream_lt offset load hq).trans_le fits

theorem decodeCmd_errsIn (fits : s.conlen.toNat ≤ p.conCap) :
    ErrsIn [.formatMismatch, .dimensionOverflow, .truncatedStream, .codeLengthOverflow] (decodeCmd p s) := by
  refine ((parseCmd_errsIn fits).mono (by decide)).bind fun t ht => ?_
  refine ((assignCmd_errsIn t).mono (by decide)).bind fun u hu => ?_
  obtain ⟨-, -, others⟩ := assignCmd_ok hu
  have loop : ErrsIn [.truncatedStream, .formatMismatch] (getImage p (sampleTotal u) u) :=
    getImage_errsIn (by rw [others]) (by rw [others]; exact fun q hq => parseCmd_stream_lt ht hq)
  exact loop.mono (by decide)

theorem decodeCmd_of_parse_error {k : ErrKind} (h : parseCmd p s = .error k) : decodeCmd p s = .error k := by
  rw [decodeCmd, h, error_bind]

/-- 46 R247: the kinds of `DECODE`. -/
theorem decodeCmd_code (p : Params) (s : State) : resultCode (decodeCmd p s) ∈ [(0 : BitVec 4), 2, 3, 4, 5, 7] ∧
    (resultCode (decodeCmd p s) = 7 ↔ s.conlen.toNat > p.conCap) := by
  by_cases tooLong : s.conlen.toNat > p.conCap
  · rw [decodeCmd_of_parse_error (parseCmd_of_conlen tooLong)]
    exact ⟨by decide, fun _ => tooLong, fun _ => rfl⟩
  · have kinds := decodeCmd_errsIn (p := p) (Nat.not_lt.1 tooLong)
    cases result : decodeCmd p s with
    | ok t => exact ⟨List.mem_cons_self, fun h => absurd h (by decide : (0 : BitVec 4) ≠ 7), fun h => absurd h tooLong⟩
    | error k =>
      have codes : ∀ j ∈ [ErrKind.formatMismatch, .dimensionOverflow, .truncatedStream, .codeLengthOverflow],
          j.code ∈ [(0 : BitVec 4), 2, 3, 4, 5, 7] ∧ j.code ≠ 7 := by decide
      obtain ⟨listed, notState⟩ := codes k (kinds k result)
      exact ⟨listed, fun h => absurd h notState, fun h => absurd h tooLong⟩

/-! ### Which of the inner commands of `DECODE` fails (spec/46_container_codec.md R236, spec/60_exceptions.md R277) -/

/-- A loop that fails in its first turns fails. -/
theorem loop_error_of_le {σ : Type} {f : Nat → σ → Except ErrKind σ} {m : Nat} {a : σ} {k : ErrKind}
    (h : loop m f a = .error k) (hmn : m ≤ n) : loop n f a = .error k := by
  induction n, hmn using Nat.le_induction with
  | base => exact h
  | succ n _ ih => rw [loop_succ, ih, error_bind]

/-- The result code is no part of what `PARSE` loads. -/
theorem sameHeader_err (p : Params) (s : State) (k : BitVec 4) : SameHeader p { s with err := k } s :=
  ⟨rfl, rfl, rfl, rfl, rfl, rfl, rfl, rfl, fun _ _ => rfl⟩

/-- If the `GETS` of a sample fails, the loop of `DECODE` ends with its error. -/
theorem getImage_of_gets_error {v w : State} {xs : List Sym} {m : Nat} {k : ErrKind} (same : SameCode p v s)
    (bound : n ≤ p.maxSamples) (hm : m < n) (all : getAll p m v = .ok (xs, w)) (gets : getsCmd p w = .error k) :
    getImage p n s = .error k := by
  have read := readInto_of_sameCode same (hm.le.trans bound)
  rw [all] at read
  obtain ⟨c, image, hc⟩ := read.of_ok
  have failed := hc.toSameCode.getsCmd
  rw [gets] at failed
  refine loop_error_of_le (m := m + 1) ?_ hm
  have turns : loop m (fun i t => (getsCmd p t).bind fun u => .ok (setPix p u i u.rdata)) s = .ok c := image
  rw [loop_succ, turns, ok_bind, failed.of_error, error_bind]

/-- A command always has a next state (60 R286). -/
theorem exec_next (i : Instr) (s : State) : ∃ t, exec i s = .next t := by
  rcases exec_cases i s with ⟨_, -, h⟩ | ⟨_, -, h⟩
  · exact ⟨_, h⟩
  · exact ⟨_, h⟩

theorem decodeCmd_of_parsed (parsed : parseCmd p s = .ok t) : decodeCmd p s =
    (assignCmd t).bind fun u => getImage p (sampleTotal u) u := by
  rw [decodeCmd, parsed, ok_bind]
  rfl

/-- `ASSIGN` after `PARSE` fails as it does inside `DECODE`. -/
theorem decodeCmd_of_assign_error {k : ErrKind} (parsed : parseCmd p s = .ok t)
    (refused : assignCmd { t with err := 0 } = .error k) : decodeCmd p s = .error k := by
  have assign := (sameHeader_err p t 0).assignCmd
  rw [refused] at assign
  rw [decodeCmd_of_parsed parsed, assign.of_error, error_bind]

/-- After `PARSE` and `ASSIGN` the state reads as the one from which `DECODE` reads its samples. -/
theorem decodeCmd_of_assigned (parsed : parseCmd p s = .ok t) (assigned : assignCmd { t with err := 0 } = .ok u) :
    ∃ v, decodeCmd p s = getImage p (sampleTotal u) v ∧ SameCode p { u with err := 0 } v ∧
      sampleTotal u ≤ p.maxSamples := by
  have assign := (sameHeader_err p t 0).assignCmd
  rw [assigned] at assign
  obtain ⟨v, inner, same⟩ := assign.of_ok
  have bound : sampleTotal v ≤ p.maxSamples := by
    obtain ⟨-, -, others⟩ := assignCmd_ok inner
    rw [others]
    exact parseCmd_sampleTotal_le (t := t) parsed
  rw [same.sampleTotal] at bound
  refine ⟨v, ?_, { same with stream := same.stream }, bound⟩
  rw [decodeCmd_of_parsed parsed, inner, ok_bind, same.sampleTotal]

/-- Settles O54: `DECODE` is `PARSE`, `ASSIGN` and a loop whose states read as those of `GETS` in sequence do. -/
theorem decodeErrorKinds : Obligations.DecodeErrorKinds := by
  intro s t h
  have code := exec_err h
  rw [resultOf] at code
  obtain ⟨listed, state⟩ := decodeCmd_code Config.params s
  refine ⟨code ▸ listed, code ▸ state, ?_⟩
  rcases exec_cases .parse s with ⟨s1, parsed, hu⟩ | ⟨k, refused, hu⟩
  case inr =>
    obtain ⟨v, hv⟩ := exec_next .assign (raise k s)
    have failed : (raise k s).err ≠ 0 := raise_err_ne_zero k s
    rw [decodeCmd_of_parse_error refused] at code
    exact ⟨_, v, hu, hv, fun _ => code, fun h0 => absurd h0 failed, fun h0 => absurd h0 failed⟩
  rcases exec_cases .assign { s1 with err := 0 } with ⟨v, assigned, hv⟩ | ⟨k, refused, hv⟩
  case inr =>
    have failed : (raise k { s1 with err := 0 }).err ≠ 0 := raise_err_ne_zero k _
    rw [decodeCmd_of_assign_error parsed refused] at code
    exact ⟨_, _, hu, hv, fun h0 => absurd rfl h0, fun _ _ => code, fun _ h0 => absurd h0 failed⟩
  obtain ⟨s2, decode, same, bound⟩ := decodeCmd_of_assigned parsed assigned
  rw [decode] at code
  refine ⟨_, _, hu, hv, fun h0 => absurd rfl h0, fun _ h0 => absurd rfl h0, fun _ _ => ⟨?_, ?_⟩⟩
  · intro m xs w x hm all hx failed
    rcases exec_cases .gets w with ⟨_, -, hg⟩ | ⟨k, refused, hg⟩
    · rw [hg] at hx; cases hx; exact absurd rfl failed
    · rw [hg] at hx; cases hx
      rw [code, getImage_of_gets_error same bound hm all refused]
      rfl
  · intro xs w all
    have read := readInto_of_sameCode same bound
    change getAll Config.params (sampleTotal v) _ = _ at all
    rw [all] at read
    obtain ⟨c, image, -⟩ := read.of_ok
    rw [code, image]
    rfl

end Sys2Proof.Machine

/-! ### The code that `ENCODE` makes of an image (spec/46_container_codec.md R234, R244) -/

namespace Sys2Proof.Machine

variable {p : Params} {s t u : State} {xs : List Sym} {n : Nat} {f : Sym → Nat}

/-- 46 R244: Huffman lengths that `ASSIGN` admits pass its Kraft test. -/
theorem kraftSum_huffmanLengths_le (shallow : ∀ x, huffmanLengths f x ≤ 32) :
    kraftSum (huffmanLengths f) ≤ 2 ^ 32 := by
  have share : ∀ x, kraftShare (huffmanLengths f x) =
      2 ^ 224 * if huffmanLengths f x = 0 then 0 else 2 ^ (maxLen - huffmanLengths f x) := by
    intro x
    unfold kraftShare
    split
    · rfl
    · have := shallow x
      rw [← Nat.pow_add, show 224 + (maxLen - huffmanLengths f x) = 256 - huffmanLengths f x by unfold maxLen; omega]
  have scaled : sumSyms (fun x => kraftShare (huffmanLengths f x)) = 2 ^ 224 * kraftSum (huffmanLengths f) := by
    rw [sumSyms_congr share, kraftSum, sumSyms_eq_sum, sumSyms_eq_sum, Finset.mul_sum]
  have bound : sumSyms (fun x => kraftShare (huffmanLengths f x)) ≤ 2 ^ 256 := by
    rcases presentSyms_cases f with none | ⟨y, lone⟩ | two
    · have zero : ∀ x, kraftShare (huffmanLengths f x) = 0 := fun x => by rw [huffmanLengths_of_empty none]; rfl
      rw [sumSyms_congr zero, sumSyms_zero]
      exact Nat.zero_le _
    · rw [kraft_of_lone (by rw [lone]; rfl)]
      exact Nat.pow_le_pow_right (by decide) (by decide)
    · exact (kraft_of_two two).le
  rw [scaled, show 2 ^ 256 = 2 ^ 224 * 2 ^ 32 by rw [← Nat.pow_add]] at bound
  exact Nat.le_of_mul_le_mul_left bound (Nat.two_pow_pos _)

/-- The code depths of the image of a state. -/
def imageDepth (p : Params) (s : State) : Sym → Nat := huffmanLengths (pixCount p s (sampleTotal s))

/-- `STAT` and `BUILD` succeed on an image that is not empty, and leave its code depths. -/
theorem exists_built (layout : legalLayout s.layout.toNat) (bound : sampleTotal s ≤ p.maxSamples)
    (nonempty : sampleTotal s ≠ 0) :
    ∃ s1 s2, statCmd p s = .ok s1 ∧ buildCmd s1 = .ok s2 ∧ lenOf s2 = imageDepth p s := by
  have counted := statCmd_of_image layout bound nonempty
  have freq := funext (statCmd_counts counted)
  have total := statCmd_total counted
  refine ⟨_, _, counted, if_neg fun zero => nonempty ?_, funext fun x => ?_⟩
  · rw [← total, zero]; rfl
  · rw [lenOf, tableGet_tableOf, freq, BitVec.toNat_ofNat, Nat.mod_eq_of_lt (huffmanLengths_lt _ x)]
    rfl

/-- A state with the counts and the code of the image of `s`, as `STAT`, `BUILD` and `ASSIGN` make them. -/
structure Coded (p : Params) (s u : State) : Prop where
  width : u.width = s.width
  height : u.height = s.height
  layout : u.layout = s.layout
  pix : u.pix = s.pix
  epoch : u.epoch = s.epoch
  legal : legalLayout s.layout.toNat
  bound : sampleTotal s ≤ p.maxSamples
  nonempty : sampleTotal s ≠ 0
  total : u.total.toNat = sampleTotal s
  freq : ∀ x, freqOf u x = pixCount p s (sampleTotal s) x
  len : ∀ x, lenOf u x = huffmanLengths (freqOf u) x
  cv : u.cv = true
  code : CodeOk u

theorem coded_of_assignCmd {s1 s2 s3 : State} (h1 : statCmd p s = .ok s1) (h2 : buildCmd s1 = .ok s2)
    (h3 : assignCmd s2 = .ok s3) : Coded p s s3 := by
  have total := statCmd_total h1
  have freq := statCmd_counts h1
  have code := codeOk_assignCmd h3
  obtain ⟨legal, bound, nonempty, rfl⟩ := statCmd_ok h1
  obtain ⟨-, rfl⟩ := buildCmd_ok h2
  obtain ⟨-, -, rfl⟩ := assignCmd_ok h3
  refine { width := rfl, height := rfl, layout := rfl, pix := rfl, epoch := rfl, legal, bound, nonempty, total, freq,
           len := fun x => ?len, cv := rfl, code }
  case len =>
    rw [lenOf, tableGet_tableOf, BitVec.toNat_ofNat, Nat.mod_eq_of_lt (huffmanLengths_lt _ x)]
    rfl

namespace Coded

/-- `WRHDR`, `PUTS` and `FIN` keep the image, the counts and the code. -/
theorem of_others (h : Coded p s u) (others : t = { u with
    conlen := t.conlen, wbase := t.wbase, wbits := t.wbits, wacc := t.wacc, wfin := t.wfin, con := t.con
    err := t.err }) : Coded p s t := by
  rw [others]
  exact { h with }

theorem sampleTotal_eq (h : Coded p s u) : sampleTotal u = sampleTotal s := by
  rw [sampleTotal, h.width, h.height, h.layout]; rfl

theorem pixels_eq (h : Coded p s u) (n : Nat) : pixels p u n = pixels p s n := pixels_congr h.pix h.epoch n

/-- 46 R244: exactly the symbols of the image have a code. -/
theorem counted (h : Coded p s u) (x : Sym) : freqOf u x ≠ 0 ↔ lenOf u x ≠ 0 := by
  rw [h.len, not_iff_not, huffmanLengths_eq_zero]

theorem coded (h : Coded p s u) {x : Sym} (hx : x ∈ pixels p s (sampleTotal s)) : lenOf u x ≠ 0 := by
  rw [← h.counted, h.freq]
  exact Nat.ne_of_gt (List.count_pos_iff.2 hx)

/-- 46 R232: the valid bits are those of the codes of the samples. -/
theorem validBitCount_eq (h : Coded p s u) :
    validBitCount u = ((pixels p s (sampleTotal s)).map (lenOf u)).sum := by
  have counts : ∀ x, freqOf u x = pixCount p u (sampleTotal s) x := fun x => by
    rw [h.freq, pixCount, pixCount, h.pixels_eq]
  rw [validBitCount_eq_imageBits counts, imageBits, h.pixels_eq]

theorem streamOf_length (h : Coded p s u) :
    (streamOf (lenOf u) (pixels p s (sampleTotal s))).length = validBitCount u := by
  rw [h.validBitCount_eq, streamOf, List.length_flatMap]
  simp only [codeBits_length]

/-- 46 R232: `N <= vbc <= 32 N`. -/
theorem validBitCount_bounds (h : Coded p s u) :
    sampleTotal s ≤ validBitCount u ∧ validBitCount u ≤ 32 * sampleTotal s := by
  have few := imageBits_le (p := p) (h.code h.cv).1 (sampleTotal s)
  rw [imageBits, h.pixels_eq] at few
  have many := List.card_nsmul_le_sum ((pixels p s (sampleTotal s)).map (lenOf u)) 1 fun k hk => by
    obtain ⟨x, hx, rfl⟩ := List.mem_map.1 hk
    exact Nat.one_le_iff_ne_zero.2 (h.coded hx)
  rw [List.length_map, pixels_length, smul_eq_mul, Nat.mul_one] at many
  rw [h.validBitCount_eq]
  exact ⟨many, few⟩

/-- 00 R8: the container of an admitted image fits `CON`. -/
theorem fits (h : Coded p s u) : payloadOffset (codedSyms u).length + ceil8 (validBitCount u) ≤ p.conCap := by
  have few := h.validBitCount_bounds.2
  have bound := h.bound
  have cap := conCap_eq p
  have pairs : (codedSyms u).length ≤ 256 := presentSyms_length_le _
  unfold payloadOffset ceil8
  omega

theorem wrhdrCmd_eq (h : Coded p s u) : wrhdrCmd p u =
    .ok (pointWriter (codedSyms u).length (validBitCount u) (storeCon p u 0 (headerBytes u))) := by
  have total : sampleTotal u = u.total.toNat := h.sampleTotal_eq.trans h.total.symm
  refine wrhdrCmd_of_coded h.cv (h.layout ▸ h.legal) (h.sampleTotal_eq.trans_le h.bound)
    (fun zero => h.nonempty ?_) total h.counted
  rw [← h.total, zero]
  rfl

end Coded

/-! ### The payload that `ENCODE` writes (spec/46_container_codec.md R234) -/

theorem putAll_append (xs ys : List Sym) (s : State) :
    putAll p (xs ++ ys) s = (putAll p xs s).bind (putAll p ys) := by
  induction xs generalizing s with
  | nil => rfl
  | cons x xs ih =>
    rw [List.cons_append, putAll, putAll]
    cases putsCmd p x s with
    | error k => rfl
    | ok t => exact ih t

theorem putAll_others (h : putAll p xs s = .ok t) :
    t = { s with wbits := t.wbits, wacc := t.wacc, con := t.con, err := t.err } :=
  (writerMoved_appendAll (putAll_ok h).2).others

/-- No `PUTS` changes the image, so the loop of `ENCODE` is the `PUTS` of its samples. -/
theorem putImage_eq_putAll (n : Nat) (s : State) : putImage p n s = putAll p (pixels p s n) s := by
  induction n with
  | zero => rfl
  | succ n ih =>
    rw [putImage_succ, ih, pixels_succ, putAll_append]
    cases result : putAll p (pixels p s n) s with
    | error k => rfl
    | ok t =>
      have pix : pixByte p t n = pixByte p s n := by rw [putAll_others result]; exact pixByte_congr rfl rfl n
      rw [ok_bind, ok_bind, pix, putAll]
      cases putsCmd p (pixByte p s n) t <;> rfl

/-- A sequence of `PUTS` succeeds where every symbol has a code and the capacity suffices. -/
theorem putAll_total (valid : s.cv = true) (notFinal : s.wfin = false) (coded : ∀ x ∈ xs, lenOf s x ≠ 0)
    (room : s.wbase.toNat + ceil8 (s.wbits.toNat + (xs.map (lenOf s)).sum) ≤ p.conCap) :
    ∃ t, putAll p xs s = .ok t ∧ t.wbits.toNat = s.wbits.toNat + (xs.map (lenOf s)).sum := by
  induction xs generalizing s with
  | nil => exact ⟨s, rfl, rfl⟩
  | cons x xs ih =>
    obtain ⟨codedFirst, codedRest⟩ := List.forall_mem_cons.1 coded
    rw [List.map_cons, List.sum_cons] at room ⊢
    obtain ⟨t, first⟩ : ∃ t, append p (codeOf s x) (lenOf s x) s = .ok t :=
      ⟨_, append_total (by unfold ceil8 at room ⊢; omega)⟩
    have moved := writerMoved_append first
    have len : lenOf t = lenOf s := by rw [moved.others]; rfl
    have base : t.wbase = s.wbase := by rw [moved.others]
    rw [putAll, putsCmd_eq_append valid codedFirst notFinal, first, ok_bind]
    obtain ⟨v, rest, cursor⟩ := ih (s := t) (by rw [moved.others]; exact valid) (by rw [moved.others]; exact notFinal)
      (by rw [len]; exact codedRest) (by rw [len, base, moved.cursor, Nat.add_assoc]; exact room)
    exact ⟨v, rest, by rw [cursor, len, moved.cursor, Nat.add_assoc]⟩

theorem finCmd_total (notFinal : s.wfin = false) (room : s.wbase.toNat + ceil8 s.wbits.toNat ≤ p.conCap) :
    ∃ t, finCmd p s = .ok t := by
  by_cases aligned : s.wbits.toNat % 8 = 0
  · exact ⟨_, finCmd_of_aligned notFinal aligned⟩
  · exact ⟨_, finCmd_of_partial notFinal aligned (by unfold writerAddr; unfold ceil8 at room; omega)⟩

/-- 46 R234: where the image has a code, the rest of `ENCODE` succeeds. -/
theorem Coded.rest_total (h : Coded p s u) : ∃ v, ((wrhdrCmd p u).bind fun s4 =>
    (putImage p s4.total.toNat s4).bind fun s5 => finCmd p s5) = .ok v := by
  obtain ⟨s4, header, empty, notFinal⟩ : ∃ s4, wrhdrCmd p u = .ok s4 ∧ s4.wbits = 0 ∧ s4.wfin = false :=
    ⟨_, h.wrhdrCmd_eq, rfl, rfl⟩
  obtain ⟨-, base, -⟩ := wrhdrCmd_header header
  have coded : Coded p s s4 := h.of_others (by rw [(frame_wrhdrCmd header).1])
  have vbc : validBitCount s4 = validBitCount u := by rw [(frame_wrhdrCmd header).1]; rfl
  have room : s4.wbase.toNat + ceil8 (s4.wbits.toNat + ((pixels p s (sampleTotal s)).map (lenOf s4)).sum) ≤
      p.conCap := by
    rw [base, empty, ← coded.validBitCount_eq, vbc, show (0 : BitVec 64).toNat = 0 from rfl, Nat.zero_add]
    exact h.fits
  obtain ⟨s5, image, cursor⟩ := putAll_total coded.cv notFinal (fun _ hx => coded.coded hx) room
  have others := putAll_others image
  obtain ⟨v, final⟩ := finCmd_total (p := p) (s := s5) (by rw [others]; exact notFinal)
    (by rw [cursor, others]; exact room)
  exact ⟨v, by rw [header, ok_bind, putImage_eq_putAll, coded.total, coded.pixels_eq, image, ok_bind, final]⟩

/-! ### The result of `ENCODE` (spec/46_container_codec.md R246) -/

theorem encodeCmd_of_stat_error {k : ErrKind} (h : statCmd p s = .error k) : encodeCmd p s = .error k := by
  rw [encodeCmd, h, error_bind]

theorem encodeCmd_of_deep (layout : legalLayout s.layout.toNat) (bound : sampleTotal s ≤ p.maxSamples)
    (nonempty : sampleTotal s ≠ 0) (deep : ∃ x, imageDepth p s x > 32) :
    encodeCmd p s = .error .codeLengthOverflow := by
  obtain ⟨s1, s2, h1, h2, len⟩ := exists_built layout bound nonempty
  rw [encodeCmd, h1, ok_bind, h2, ok_bind, assignCmd_of_tooLong (by rw [len]; exact deep), error_bind]

theorem encodeCmd_of_image (layout : legalLayout s.layout.toNat) (bound : sampleTotal s ≤ p.maxSamples)
    (nonempty : sampleTotal s ≠ 0) (shallow : ∀ x, imageDepth p s x ≤ 32) : ∃ t, encodeCmd p s = .ok t := by
  obtain ⟨s1, s2, h1, h2, len⟩ := exists_built layout bound nonempty
  have h3 := assignCmd_of_kraft (s := s2) (by rw [len]; exact shallow)
    (by rw [len]; exact kraftSum_huffmanLengths_le shallow)
  obtain ⟨t, rest⟩ := (coded_of_assignCmd h1 h2 h3).rest_total
  exact ⟨t, by rw [encodeCmd, h1, ok_bind, h2, ok_bind, h3, ok_bind, rest]⟩

/-- Settles O50: `STAT` gives the first three kinds, `ASSIGN` the fourth, and after it nothing fails. -/
theorem encodeResult : Obligations.EncodeResult := by
  intro s t h
  have code := exec_err h
  rw [resultOf] at code
  by_cases layout : legalLayout s.layout.toNat
  case neg => rw [if_pos layout, code, encodeCmd_of_stat_error (statCmd_of_illegalLayout layout)]; rfl
  by_cases large : sampleTotal s > Config.params.maxSamples
  case pos =>
    rw [if_neg (not_not_intro layout), if_pos large, code, encodeCmd_of_stat_error (statCmd_of_large layout large)]
    rfl
  by_cases empty : sampleTotal s = 0
  case pos =>
    rw [if_neg (not_not_intro layout), if_neg large, if_pos empty, code,
      encodeCmd_of_stat_error (statCmd_of_empty layout empty)]
    rfl
  rw [if_neg (not_not_intro layout), if_neg large, if_neg empty, code]
  split
  · rename_i deep
    obtain ⟨x, -, hx⟩ := deep
    rw [encodeCmd_of_deep layout (Nat.not_lt.1 large) empty ⟨x, hx⟩]
    rfl
  · rename_i shallow
    obtain ⟨t, encoded⟩ := encodeCmd_of_image (p := Config.params) layout (Nat.not_lt.1 large) empty fun x =>
      Nat.not_lt.1 fun hx => shallow ⟨x, mem_allSyms x, hx⟩
    rw [encoded]
    rfl

end Sys2Proof.Machine

/-! ### What a successful `ENCODE` leaves (spec/46_container_codec.md R234, spec/30_encoding.md R100 to R104) -/

namespace Sys2Proof.Machine

variable {p : Params} {s t u : State} {xs : List Sym} {n : Nat} {f : Sym → Nat}

/-- The registers, the tables and the container that `ENCODE` makes of the image of `s`. -/
structure Encoded (p : Params) (s t : State) : Prop where
  coded : Coded p s t
  wfin : t.wfin = true
  wbits : t.wbits.toNat = validBitCount t
  wacc : t.wacc = if t.wbits.toNat % 8 = 0 then 0 else conByte p t (writerAddr t t.wbits.toNat)
  wbase : t.wbase.toNat = payloadOffset (codedSyms t).length
  conlen : t.conlen.toNat = t.wbase.toNat + ceil8 t.wbits.toNat
  header : conBytes p t 0 (payloadOffset (codedSyms t).length) = headerBytes t
  stream : HoldsBits p t t.wbase.toNat (streamOf (lenOf t) (pixels p s (sampleTotal s)))
  padding : ∀ q, t.wbits.toNat ≤ q → q < 8 * ceil8 t.wbits.toNat → conBit p t t.wbase.toNat q = false

/-- With a valid code the `PUTS` of a sequence of symbols hold its stream. -/
theorem streamed_of_putAll (code : CodeOk s) (valid : s.cv = true) (initialised : writerInit s = s)
    (h : putAll p xs s = .ok t) : Streamed p (streamOf (lenOf s) xs) s t := by
  obtain ⟨-, appended⟩ := putAll_ok h
  have start := streamed_writerInit p s
  rw [initialised] at start
  have written := start.appendAll appended
  rwa [List.nil_append, List.flatMap_map, ← streamOf_of_valid code valid] at written

theorem wrhdrCmd_initialised (h : wrhdrCmd p s = .ok t) : writerInit t = t := by
  obtain ⟨-, -, -, -, -, -, rfl⟩ := wrhdrCmd_ok h
  rfl

theorem finCmd_wfin (h : finCmd p s = .ok t) : t.wfin = true := by
  obtain ⟨-, ⟨-, rfl⟩ | ⟨-, -, rfl⟩⟩ := finCmd_ok h
  · rfl
  · rfl

/-- 46 R234(a): `WACC` after `FIN` is the last byte stored, or 0 with no partial byte. -/
theorem finCmd_wacc (unfilled : PartialOk s) (h : finCmd p s = .ok t) :
    t.wacc = if t.wbits.toNat % 8 = 0 then 0 else conByte p t (writerAddr t t.wbits.toNat) := by
  obtain ⟨base, cursor⟩ := finCmd_keeps_cursor h
  have addr : writerAddr t t.wbits.toNat = writerAddr s s.wbits.toNat := by rw [writerAddr, base, cursor]; rfl
  rw [addr, cursor]
  obtain ⟨-, ⟨aligned, rfl⟩ | ⟨partialByte, room, rfl⟩⟩ := finCmd_ok h
  · rw [if_pos aligned]
    exact BitVec.eq_of_getLsbD_eq fun j hj => (unfilled j (by omega)).trans BitVec.getLsbD_zero.symm
  · rw [if_neg partialByte, conByte_finalise, conByte_setCon room, if_pos rfl, finalise_wacc, setCon_wacc]

theorem encoded_of_encodeCmd (h : encodeCmd p s = .ok t) : Encoded p s t := by
  obtain ⟨s1, s2, s3, s4, s5, h1, h2, h3, h4, h5, h6⟩ := encodeCmd_ok h
  obtain ⟨header, base, conlen⟩ := wrhdrCmd_header h4
  obtain ⟨others4, -⟩ := frame_wrhdrCmd h4
  have coded : Coded p s s4 := (coded_of_assignCmd h1 h2 h3).of_others (by rw [others4])
  rw [putImage_eq_putAll, coded.total, coded.pixels_eq] at h5
  have streamed := streamed_of_putAll coded.code coded.cv (wrhdrCmd_initialised h4) h5
  have others : t = { s4 with wbits := t.wbits, wacc := t.wacc, wfin := t.wfin, con := t.con, err := t.err } := by
    rw [(frame_finCmd h6).1, putAll_others h5]
  have others3 : t = { s3 with
      conlen := t.conlen, wbase := t.wbase, wbits := t.wbits, wacc := t.wacc, wfin := t.wfin, con := t.con
      err := t.err } := by
    rw [others, others4]
  have coded : Coded p s t := coded.of_others (by rw [others])
  have len : lenOf s4 = lenOf t := by rw [others]; rfl
  have syms : codedSyms t = codedSyms s3 := by rw [others3]; rfl
  have vbc : validBitCount t = validBitCount s3 := by rw [others3]; rfl
  have bytes : headerBytes t = headerBytes s3 := by rw [others3]; rfl
  rw [len] at streamed
  obtain ⟨keptBase, cursor⟩ := finCmd_keeps_cursor h6
  have wbase : t.wbase = s4.wbase := by rw [keptBase, streamed.base]
  have wbits : t.wbits.toNat = validBitCount t := by rw [cursor, streamed.cursor, coded.streamOf_length]
  refine
    { coded
      wfin := finCmd_wfin h6
      wbits
      wacc := finCmd_wacc streamed.unfilled h6
      wbase := by rw [wbase, base, syms]
      conlen := ?conlen
      header := ?header
      stream := by rw [wbase]; exact streamed.holdsBits_finCmd h6
      padding := fun q hq inside => ?padding }
  case conlen => rw [wbits, wbase, base, vbc, ← conlen, others]
  case header =>
    rw [bytes, syms, ← header]
    exact conBytes_congr fun i _ hi => streamed.conByte_finCmd h6 (.inl (by rw [base]; omega))
  case padding =>
    rw [wbits, ← coded.streamOf_length] at hq inside
    rw [wbase]
    exact streamed.padding_finCmd h6 hq inside

/-- The result code is no part of what `ENCODE` makes. -/
theorem Encoded.withErr (h : Encoded p s t) (k : BitVec 4) : Encoded p s { t with err := k } :=
  { h with coded := { h.coded with } }

theorem encoded_of_exec (h : exec .encode s = .next t) (h0 : t.err = 0) : Encoded Config.params s t := by
  obtain ⟨u, encoded, rfl⟩ := resultOf_of_exec h h0
  exact (encoded_of_encodeCmd (t := u) encoded).withErr 0

namespace Encoded

theorem streamOf_length (h : Encoded p s t) :
    (streamOf (lenOf t) (pixels p s (sampleTotal s))).length = t.wbits.toNat := by
  rw [h.wbits, h.coded.streamOf_length]

theorem headerOf (h : Encoded p s t) : HeaderOf p t t := headerOf_of_conBytes h.header

theorem hdrWidth_eq (h : Encoded p s t) : hdrWidth p t = s.width.toNat := by rw [h.headerOf.width, h.coded.width]

theorem hdrHeight_eq (h : Encoded p s t) : hdrHeight p t = s.height.toNat := by
  rw [h.headerOf.height, h.coded.height]

theorem hdrLayout_eq (h : Encoded p s t) : hdrLayout p t = s.layout.toNat := by
  rw [h.headerOf.layout, h.coded.layout]

theorem hdrBits_eq (h : Encoded p s t) : hdrBits p t (codedSyms t).length = t.wbits.toNat := by
  rw [h.headerOf.bits, h.wbits]

theorem samples_eq (h : Encoded p s t) : hdrWidth p t * hdrHeight p t * hdrLayout p t = sampleTotal s := by
  rw [h.hdrWidth_eq, h.hdrHeight_eq, h.hdrLayout_eq]; rfl

/-- An image that is not empty has a symbol. -/
theorem codedSyms_ne_nil (h : Encoded p s t) : codedSyms t ≠ [] := by
  have first : pixByte p s 0 ∈ pixels p s (sampleTotal s) :=
    List.mem_map.2 ⟨0, List.mem_range.2 (Nat.pos_of_ne_zero h.coded.nonempty), rfl⟩
  exact List.ne_nil_of_mem (mem_presentSyms.2 (h.coded.coded first))

/-- The header is one that `PARSE` admits. -/
theorem holdsHeader (h : Encoded p s t) : HoldsHeader p t (lenOf t) where
  fits := by
    rw [h.conlen, h.wbase, h.wbits]
    exact h.coded.fits
  magic := h.headerOf.magic
  layout := by rw [h.hdrLayout_eq]; exact h.coded.legal
  bound := by rw [h.samples_eq]; exact h.coded.bound
  count := h.headerOf.count
  lengths x := (tableGet t.len x).isLt
  pairs := by
    have pairs := h.headerOf.pairs
    unfold pairBytes codedSyms at pairs
    simpa only [lenOf, BitVec.ofNat_toNat, BitVec.setWidth_eq] using pairs
  empty none := by
    rw [h.headerOf.count] at none
    exact absurd (List.eq_nil_of_length_eq_zero none) h.codedSyms_ne_nil
  whole := by
    rw [h.conlen, h.wbase, ← h.hdrBits_eq]
    exact le_rfl

/-- 46 R234: `CON[0 .. CONLEN-1]` is the container of the image. -/
theorem holdsContainer (h : Encoded p s t) :
    HoldsContainer p t (lenOf t) (pixels p s (sampleTotal s)) where
  header := h.holdsHeader
  admitted := (h.coded.code h.coded.cv).1
  kraft := (h.coded.code h.coded.cv).2.1
  samples := by rw [h.samples_eq, pixels_length]
  coded _ hx := h.coded.coded hx
  valid := by
    rw [h.streamOf_length, ← h.hdrBits_eq]
    exact le_rfl
  payload := by
    have stream := h.stream
    rwa [h.wbase] at stream

end Encoded

/-- Settles O49: `ENCODE` succeeds on the image, and `Encoded` says what it leaves. -/
theorem encodeMakesTheContainer : Obligations.EncodeMakesTheContainer := by
  intro s layout nonempty bound shallow
  obtain ⟨t, encoded⟩ := encodeCmd_of_image layout bound (Nat.one_le_iff_ne_zero.1 nonempty) shallow
  have done := exec_of_resultOf_ok (i := .encode) encoded
  have e := encoded_of_exec done rfl
  have frame := frame_encodeCmd encoded
  obtain ⟨many, few⟩ := e.coded.validBitCount_bounds
  rw [← e.wbits] at many few
  have syms : presentSyms (freqOf t) = codedSyms t := presentSyms_congr e.coded.counted
  exact ⟨_, done, rfl, frame.withErr 0, e.coded.cv, e.wfin, e.coded.total, e.coded.freq, e.coded.len,
    (e.coded.code e.coded.cv).2.2, e.wbits, e.wacc, many, few,
    e.wbase.trans (congrArg (fun l => 23 + 2 * l.length) syms.symm), e.conlen, e.holdsContainer, e.hdrWidth_eq,
    e.hdrHeight_eq, e.hdrLayout_eq, e.hdrBits_eq, e.padding, frame.2⟩

end Sys2Proof.Machine

/-! ### The container is a function of the image (spec/46_container_codec.md R241) -/

namespace Sys2Proof.Machine

variable {p : Params} {s s' t t' u : State} {xs : List Sym} {n : Nat} {k : BitVec 4} {x : Sym}

/-- Every bit of the payload: the stream, then zeros. -/
theorem Encoded.payloadBit (h : Encoded p s t) {q : Nat} (hq : q < 8 * ceil8 t.wbits.toNat) :
    conBit p t t.wbase.toNat q = (streamOf (lenOf t) (pixels p s (sampleTotal s)))[q]?.getD false := by
  by_cases inside : q < (streamOf (lenOf t) (pixels p s (sampleTotal s))).length
  · rw [h.stream q inside, List.getElem?_eq_getElem inside]; rfl
  · rw [List.getElem?_eq_none (Nat.not_lt.1 inside)]
    exact h.padding q (by rw [← h.streamOf_length]; omega) hq

/-- A bit of a byte is a bit of the stream (20 R65). -/
theorem conByte_getLsbD (base i : Nat) {j : Nat} (hj : j < 8) :
    (conByte p s (base + i)).getLsbD j = conBit p s base (8 * i + (7 - j)) := by
  rw [conBit, show base + (8 * i + (7 - j)) / 8 = base + i by omega, show 7 - (8 * i + (7 - j)) % 8 = j by omega]

theorem pixels_eq_iff : pixels p t n = pixels p s n ↔ ∀ a, a < n → pixByte p t a = pixByte p s a := by
  simp only [pixels, List.map_inj_left, List.mem_range]

/-- Two states with the same image: the same dimensions and samples. -/
structure SameImage (p : Params) (s s' : State) : Prop where
  width : s'.width = s.width
  height : s'.height = s.height
  layout : s'.layout = s.layout
  samples : pixels p s' (sampleTotal s) = pixels p s (sampleTotal s)

namespace SameImage

theorem sampleTotal_eq (h : SameImage p s s') : sampleTotal s' = sampleTotal s := by
  rw [sampleTotal, h.width, h.height, h.layout]; rfl

theorem pixels_eq (h : SameImage p s s') : pixels p s' (sampleTotal s') = pixels p s (sampleTotal s) := by
  rw [h.sampleTotal_eq, h.samples]

theorem pixCount_eq (h : SameImage p s s') : pixCount p s' (sampleTotal s') = pixCount p s (sampleTotal s) :=
  funext fun x => by rw [pixCount, h.pixels_eq]; rfl

end SameImage

/-- The tables that `ENCODE` leaves are those of the image. -/
theorem Encoded.tables_eq (h : Encoded p s t) (h' : Encoded p s' t') (same : SameImage p s s') :
    freqOf t' = freqOf t ∧ t'.len = t.len := by
  have freq : freqOf t' = freqOf t := funext fun x => by rw [h.coded.freq, h'.coded.freq, same.pixCount_eq]
  refine ⟨freq, table_ext fun x => BitVec.eq_of_toNat_eq ?_⟩
  have len : lenOf t' x = lenOf t x := by rw [h.coded.len, h'.coded.len, freq]
  exact len

theorem Encoded.sameContainer (h : Encoded p s t) (h' : Encoded p s' t') (same : SameImage p s s') :
    SameContainer p t t' := by
  obtain ⟨freq, len⟩ := h.tables_eq h' same
  have lens : lenOf t' = lenOf t := by unfold lenOf; rw [len]
  have syms : codedSyms t' = codedSyms t := by rw [codedSyms, lens]; rfl
  have vbc : validBitCount t' = validBitCount t := by rw [validBitCount, freq, lens]; rfl
  have header : headerBytes t' = headerBytes t := by
    rw [headerBytes, pairBytes, syms, vbc, len, h'.coded.width, h'.coded.height, h'.coded.layout, same.width,
      same.height, same.layout, ← h.coded.width, ← h.coded.height, ← h.coded.layout]
    rfl
  have wbits : t'.wbits.toNat = t.wbits.toNat := by rw [h.wbits, h'.wbits, vbc]
  have wbase : t'.wbase.toNat = t.wbase.toNat := by rw [h.wbase, h'.wbase, syms]
  refine ⟨BitVec.eq_of_toNat_eq (by rw [h.conlen, h'.conlen, wbits, wbase]), fun a ha => ?_⟩
  by_cases inHeader : a < payloadOffset (codedSyms t).length
  · have read := h'.header
    rw [syms, header, ← h.header] at read
    have bytes := List.map_inj_left.1 read a (List.mem_range.2 inHeader)
    rwa [Nat.zero_add] at bytes
  · rw [← h.wbase] at inHeader
    rw [h.conlen] at ha
    refine BitVec.eq_of_getLsbD_eq fun j hj => ?_
    have inside : 8 * (a - t.wbase.toNat) + (7 - j) < 8 * ceil8 t.wbits.toNat := by omega
    have bit' := h'.payloadBit (wbits ▸ inside)
    rw [lens, same.pixels_eq, ← h.payloadBit inside, wbase] at bit'
    rw [show a = t.wbase.toNat + (a - t.wbase.toNat) by omega, conByte_getLsbD _ _ hj, conByte_getLsbD _ _ hj, bit']

/-- Settles O56: the result of `ENCODE` names only the image, and so does every byte of the container. -/
theorem encodeDependsOnTheImageOnly : Obligations.EncodeDependsOnTheImageOnly := by
  intro s s' t t' width height layout samples h h'
  have same : SameImage Config.params s s' := by
    refine ⟨width.symm, height.symm, layout.symm, ?_⟩
    rw [samples, show sampleTotal s = sampleTotal s' by rw [sampleTotal, width, height, layout]; rfl]
  have code : t.err = t'.err := by
    rw [encodeResult s t h, encodeResult s' t' h', same.sampleTotal_eq, ← same.pixCount_eq, same.sampleTotal_eq, layout]
  refine ⟨code, fun h0 => ?_⟩
  have container := (encoded_of_exec h h0).sameContainer (encoded_of_exec h' (code ▸ h0)) same
  exact ⟨container.conlen.symm, fun a ha => (container.bytes a ha).symm⟩

/-! ### The round trip and its truncations (spec/46_container_codec.md R240, R242) -/

/-- Settles O55: the container of the image decodes to it (R236), and `DECODE` reads nothing else (R107). -/
theorem decodeAfterEncodeRestoresTheImage : Obligations.DecodeAfterEncodeRestoresTheImage := by
  intro s
  refine ⟨fun layout nonempty bound shallow => ?_, fun t r h h0 conlen bytes => ?_⟩
  · obtain ⟨t, encoded, ok, -⟩ := encodeMakesTheContainer s layout nonempty bound shallow
    exact ⟨t, encoded, ok⟩
  have e := encoded_of_exec h h0
  obtain ⟨v, decoded, ok, -, -, width, height, layout, -, -, -, -, -, -, samples, -⟩ :=
    decodeReadsTheContainer t _ _ e.holdsContainer
  obtain ⟨u, decodedSame⟩ := exec_next .decode r
  obtain ⟨code, same⟩ := decodeDependsOnTheContainerOnly t r v u conlen.symm (fun a ha => (bytes a ha).symm) decoded
    decodedSame
  obtain ⟨width', height', layout', -, -, -, -, -, -, samples'⟩ := same ok
  rw [pixels_length] at samples
  have width : v.width = s.width := BitVec.eq_of_toNat_eq (width.trans e.hdrWidth_eq)
  have height : v.height = s.height := BitVec.eq_of_toNat_eq (height.trans e.hdrHeight_eq)
  have layout : v.layout = s.layout := BitVec.eq_of_toNat_eq (layout.trans e.hdrLayout_eq)
  have total : sampleTotal v = sampleTotal s := by rw [sampleTotal, width, height, layout]; rfl
  refine ⟨u, decodedSame, code ▸ ok, width' ▸ width, height' ▸ height, layout' ▸ layout, ?_⟩
  rw [← samples, ← total, samples']

/-- Settles O58: `PARSE` refuses the container that is cut, and a refusal changes `ERR` alone. -/
theorem truncatedContainerIsRefused : Obligations.TruncatedContainerIsRefused := by
  intro s t c h h0 cut
  have e := encoded_of_exec h h0
  have c_eq : (BitVec.ofNat 64 c).toNat = c := Nat.mod_eq_of_lt (cut.trans t.conlen.isLt)
  have base : payloadOffset (presentSyms (lenOf t)).length = t.wbase.toNat := e.wbase.symm
  have bits : hdrBits Config.params t (presentSyms (lenOf t)).length = t.wbits.toNat := e.hdrBits_eq
  have refused := parseCmd_of_truncated e.holdsHeader (c := BitVec.ofNat 64 c)
    (by rw [c_eq, base, bits, ← e.conlen]; exact cut)
  rw [c_eq, base] at refused
  rw [exec_of_resultOf_error (i := .decode) (decodeCmd_of_parse_error refused)]
  unfold raise
  rw [apply_ite ErrKind.code]
  rfl

/-! ### Images of one symbol and of more (spec/46_container_codec.md R243, R245) -/

/-- An image of one symbol: its code is one bit, 0. -/
structure Uniform (p : Params) (s : State) (x : Sym) (t : State) : Prop where
  freq : freqOf t x = sampleTotal s
  len : lenOf t x = 1
  code : codeOf t x = 0
  syms : codedSyms t = [x]
  wbits : t.wbits.toNat = sampleTotal s
  conlen : t.conlen.toNat = 25 + ceil8 (sampleTotal s)

theorem presentSyms_eq_singleton {f : Sym → Nat} (h : ∀ y, f y ≠ 0 ↔ y = x) : presentSyms f = [x] :=
  sorted_ext (presentSyms_sorted f) (List.pairwise_singleton _ _) fun y => by
    rw [mem_presentSyms, h, List.mem_singleton]

theorem pixels_eq_replicate (h : ∀ i, i < n → pixByte p s i = x) : pixels p s n = List.replicate n x :=
  List.eq_replicate_iff.2 ⟨pixels_length p s n, fun y hy => by
    obtain ⟨i, hi, rfl⟩ := List.mem_map.1 hy
    exact h i (List.mem_range.1 hi)⟩

theorem Encoded.uniform (h : Encoded p s t) (one : ∀ i, i < sampleTotal s → pixByte p s i = x) : Uniform p s x t := by
  have image := pixels_eq_replicate one
  have freq (y : Sym) : freqOf t y = if x = y then sampleTotal s else 0 := by
    rw [h.coded.freq, pixCount, image, List.count_replicate]
    simp only [beq_iff_eq]
  have present (y : Sym) : freqOf t y ≠ 0 ↔ y = x := by
    rw [freq]
    split
    · exact ⟨fun _ => by symm; assumption, fun _ => h.coded.nonempty⟩
    · exact ⟨fun no => absurd rfl no, fun same => absurd same.symm ‹_›⟩
  have lone : presentSyms (freqOf t) = [x] := presentSyms_eq_singleton present
  have syms : codedSyms t = [x] := (presentSyms_congr h.coded.counted).symm.trans lone
  have len : lenOf t x = 1 := by rw [h.coded.len, huffmanLengths_of_lone lone, if_pos rfl]
  have coded : lenOf t x ≠ 0 := by rw [len]; decide
  have code : codeOf t x = 0 := by
    rw [(h.coded.code h.coded.cv).2.2]
    refine canonicalCode_of_first (canonOrder_first coded fun z hz => .inl ?_)
    rw [← h.coded.counted] at hz
    exact (present z).1 hz
  have wbits : t.wbits.toNat = sampleTotal s := by
    rw [h.wbits, h.coded.validBitCount_eq, image, List.map_replicate, List.sum_replicate, len, smul_eq_mul, Nat.mul_one]
  refine { freq := by rw [freq, if_pos rfl], len, code, syms, wbits, conlen := ?_ }
  rw [h.conlen, h.wbase, syms, wbits]
  rfl

/-- 46 R243: the payload of an image of one symbol is zeros. -/
theorem Encoded.payload_zero (h : Encoded p s t) (one : ∀ i, i < sampleTotal s → pixByte p s i = x) {a : Nat}
    (ha : t.wbase.toNat ≤ a) (inside : a < t.conlen.toNat) : conByte p t a = 0 := by
  have u := h.uniform one
  have zeros : ∀ b ∈ streamOf (lenOf t) (pixels p s (sampleTotal s)), b = false := by
    intro b hb
    rw [pixels_eq_replicate one] at hb
    obtain ⟨y, hy, hb⟩ := List.mem_flatMap.1 hb
    rw [List.eq_of_mem_replicate hy, codeBits_of_valid h.coded.code h.coded.cv, u.code, u.len] at hb
    exact List.mem_singleton.1 hb
  rw [h.conlen] at inside
  refine BitVec.eq_of_getLsbD_eq fun j hj => ?_
  rw [show a = t.wbase.toNat + (a - t.wbase.toNat) by omega, conByte_getLsbD _ _ hj, h.payloadBit (by omega)]
  refine Eq.trans ?_ BitVec.getLsbD_zero.symm
  cases bit : (streamOf (lenOf t) (pixels p s (sampleTotal s)))[8 * (a - t.wbase.toNat) + (7 - j)]? with
  | none => rfl
  | some b => exact zeros b (List.mem_of_getElem? bit)

/-- 46 R154, R244: an image of one symbol has code depth 1. -/
theorem imageDepth_of_one (one : ∀ i, i < sampleTotal s → pixByte p s i = x) (y : Sym) : imageDepth p s y ≤ 1 := by
  have counts (z : Sym) (hz : pixCount p s (sampleTotal s) z ≠ 0) : z = x := by
    have listed := List.count_pos_iff.1 (Nat.pos_of_ne_zero hz)
    rw [pixels_eq_replicate one] at listed
    exact List.eq_of_mem_replicate listed
  rw [imageDepth]
  rcases presentSyms_cases (pixCount p s (sampleTotal s)) with none | ⟨z, lone⟩ | two
  · rw [huffmanLengths_of_empty none]; exact Nat.zero_le 1
  · rw [huffmanLengths_of_lone lone]; split <;> omega
  · have all : ∀ z ∈ presentSyms (pixCount p s (sampleTotal s)), z = x := fun z hz => counts z (mem_presentSyms.1 hz)
    have few : (presentSyms (pixCount p s (sampleTotal s))).length ≤ 1 := by
      have nodup := presentSyms_nodup (pixCount p s (sampleTotal s))
      rw [List.eq_replicate_iff.2 ⟨rfl, all⟩, List.nodup_replicate] at nodup
      exact nodup
    omega

/-- Settles O59: the image has depth 1, so it is encoded, with a code of one bit; and its container decodes. -/
theorem singleSymbolImage : Obligations.SingleSymbolImage := by
  intro s x layout nonempty bound one
  obtain ⟨t, encoded, ok, -⟩ := encodeMakesTheContainer s layout nonempty bound fun y =>
    (imageDepth_of_one one y).trans (by decide)
  have e := encoded_of_exec encoded ok
  have u := e.uniform one
  have count : (codedSyms t).length = 1 := by rw [u.syms]; rfl
  have base : t.wbase.toNat = 25 := by rw [e.wbase, count]; rfl
  obtain ⟨v, decoded, decodedOk, -, -, -, -, -, -, -, -, -, -, -, samples, -⟩ :=
    decodeReadsTheContainer t _ _ e.holdsContainer
  rw [pixels_length] at samples
  refine ⟨t, encoded, ok, u.freq, u.len, u.code, e.headerOf.count.trans count, ?bits, u.conlen,
    fun a ha inside => e.payload_zero one (by rw [base]; exact ha) inside, v, decoded, decodedOk, fun i hi => ?_⟩
  · rw [← u.wbits, ← e.hdrBits_eq, count]
  · rw [pixels_eq_iff.1 samples i hi, one i hi]

/-- Two different symbols in the image are two pairs in the header. -/
theorem Encoded.two_le_codedSyms (h : Encoded p s t) {i j : Nat} (hi : i < sampleTotal s) (hj : j < sampleTotal s)
    (differ : pixByte p s i ≠ pixByte p s j) : 2 ≤ (codedSyms t).length := by
  have listed {a : Nat} (ha : a < sampleTotal s) : pixByte p s a ∈ codedSyms t :=
    mem_presentSyms.2 (h.coded.coded (List.mem_map.2 ⟨a, List.mem_range.2 ha, rfl⟩))
  rcases presentSyms_cases (lenOf t) with none | ⟨y, lone⟩ | two
  · exact absurd none h.codedSyms_ne_nil
  · have only {a : Nat} (ha : a < sampleTotal s) : pixByte p s a = y := by
      have := listed ha
      rw [codedSyms, lone] at this
      exact List.mem_singleton.1 this
    exact absurd ((only hi).trans (only hj).symm) differ
  · exact two

/-- Settles O60: one symbol needs one pair and a bit for each sample; two need two pairs and no fewer bits. -/
theorem uniformImagesAreSmallest : Obligations.UniformImagesAreSmallest := by
  intro p s t h
  have e := encoded_of_encodeCmd h
  have syms : presentSyms (freqOf t) = codedSyms t := presentSyms_congr e.coded.counted
  refine ⟨?size, fun uniform => ?uniform, fun ⟨i, j, hi, hj, differ⟩ => ?differ⟩
  case size => rw [e.conlen, e.wbase, syms]; rfl
  case uniform =>
    have u := e.uniform fun i hi => uniform i 0 hi (Nat.pos_of_ne_zero e.coded.nonempty)
    refine ⟨u.conlen, fun total => ?_⟩
    rw [u.conlen, total]
    rfl
  case differ =>
    have two := e.two_le_codedSyms hi hj differ
    have many := e.coded.validBitCount_bounds.1
    rw [← e.wbits] at many
    rw [e.conlen, e.wbase]
    unfold payloadOffset ceil8
    omega

end Sys2Proof.Machine

/-! ### `ENCODE` as its micro commands (spec/46_container_codec.md R234, spec/00_scope.md R13) -/

namespace Sys2Proof.Machine

variable {p : Params} {s t u : State} {xs : List Sym}

/-! #### The micro commands after `STAT` neither read nor write the result code -/

section WithErr

variable (k : BitVec 4)

theorem setCon_withErr (a : Nat) (b : Byte) : setCon p { s with err := k } a b = { setCon p s a b with err := k } := by
  unfold setCon
  split
  · rfl
  · rfl

theorem storeCon_withErr (a : Nat) (bs : List Byte) :
    storeCon p { s with err := k } a bs = { storeCon p s a bs with err := k } := by
  induction bs generalizing s a with
  | nil => rfl
  | cons b bs ih => rw [storeCon, setCon_withErr, ih]; rfl

theorem pushBit_withErr (b : Bool) : pushBit p { s with err := k } b = { pushBit p s b with err := k } := by
  by_cases full : (s.wbits.toNat + 1) % 8 = 0
  · rw [pushBit_of_full full, pushBit_of_full (s := { s with err := k }) full]
    exact congrArg (fun v => advance v 0) (setCon_withErr k _ _)
  · rw [pushBit_of_not_full full, pushBit_of_not_full (s := { s with err := k }) full]
    rfl

theorem pushBits_withErr (v n : Nat) : pushBits p v n { s with err := k } = { pushBits p v n s with err := k } := by
  induction n generalizing s with
  | zero => rfl
  | succ n ih => rw [pushBits, pushBit_withErr, ih]; rfl

theorem buildCmd_withErr (h : buildCmd s = .ok t) : buildCmd { s with err := k } = .ok { t with err := k } := by
  obtain ⟨nonempty, rfl⟩ := buildCmd_ok h
  exact if_neg nonempty

theorem assignCmd_withErr (h : assignCmd s = .ok t) : assignCmd { s with err := k } = .ok { t with err := k } := by
  obtain ⟨h32, kraft, rfl⟩ := assignCmd_ok h
  exact assignCmd_of_kraft (s := { s with err := k }) h32 kraft

theorem wrhdrCmd_withErr (h : wrhdrCmd p s = .ok t) : wrhdrCmd p { s with err := k } = .ok { t with err := k } := by
  obtain ⟨valid, layout, bound, nonempty, total, counted, rfl⟩ := wrhdrCmd_ok h
  rw [wrhdrCmd_of_coded (s := { s with err := k }) valid layout bound nonempty total counted, storeCon_withErr]
  rfl

theorem putsCmd_withErr {x : Sym} (h : putsCmd p x s = .ok t) :
    putsCmd p x { s with err := k } = .ok { t with err := k } := by
  obtain ⟨valid, coded, notFinal, appended⟩ := putsCmd_ok h
  obtain ⟨room, rfl⟩ := append_ok appended
  refine (putsCmd_eq_append (s := { s with err := k }) valid coded notFinal).trans ?_
  exact (append_total (s := { s with err := k }) room).trans (congrArg Except.ok (pushBits_withErr k _ _))

theorem finCmd_withErr (h : finCmd p s = .ok t) : finCmd p { s with err := k } = .ok { t with err := k } := by
  obtain ⟨notFinal, ⟨aligned, rfl⟩ | ⟨partialByte, room, rfl⟩⟩ := finCmd_ok h
  · exact finCmd_of_aligned (s := { s with err := k }) notFinal aligned
  · rw [finCmd_of_partial (s := { s with err := k }) notFinal partialByte room]
    exact congrArg (fun v => Except.ok (finalise v)) (setCon_withErr k _ _)

end WithErr

/-! #### The run -/

/-- A sequence of `PUTS`, each with its result code committed, in front of other commands. -/
theorem execAll_puts (h : putAll Config.params xs s = .ok t) (is : List Instr) :
    execAll (xs.map .puts ++ is) { s with err := 0 } = execAll is { t with err := 0 } := by
  induction xs generalizing s with
  | nil => cases h; rfl
  | cons x xs ih =>
    obtain ⟨u, first, rest⟩ := bind_eq_ok.1 h
    rw [List.map_cons, List.cons_append, execAll_cons (exec_of_resultOf_ok (i := .puts x) (putsCmd_withErr 0 first))]
    exact ih (s := u) rest

/-- Settles O51: the commit of a code between two commands is lost in the commit at the end. -/
theorem encodeIsItsMicroCommands : Obligations.EncodeIsItsMicroCommands := by
  intro s t h h0
  obtain ⟨u, encoded, rfl⟩ := resultOf_of_exec h h0
  obtain ⟨s1, s2, s3, s4, s5, h1, h2, h3, h4, h5, h6⟩ := encodeCmd_ok encoded
  have coded : Coded Config.params s s4 :=
    (coded_of_assignCmd h1 h2 h3).of_others (by rw [(frame_wrhdrCmd h4).1])
  rw [putImage_eq_putAll, coded.total, coded.pixels_eq] at h5
  rw [List.append_assoc, List.cons_append, List.cons_append, List.cons_append, List.cons_append, List.nil_append,
    execAll_cons (exec_of_resultOf_ok (i := .stat) h1),
    execAll_cons (exec_of_resultOf_ok (i := .build) (buildCmd_withErr 0 h2)),
    execAll_cons (exec_of_resultOf_ok (i := .assign) (assignCmd_withErr 0 h3)),
    execAll_cons (exec_of_resultOf_ok (i := .wrhdr) (wrhdrCmd_withErr 0 h4))]
  calc execAll ((pixels Config.params s (sampleTotal s)).map .puts ++ [.fin]) { s4 with err := 0 }
    _ = execAll [.fin] { s5 with err := 0 } := execAll_puts h5 [.fin]
    _ = .next { u with err := 0 } := execAll_cons (exec_of_resultOf_ok (t := { u with err := 0 }) (finCmd_withErr 0 h6))

end Sys2Proof.Machine

/-! PROOFS of the family `60_exceptions.md`: how a command and a step end, and the kinds each command can end with. -/

/-! ### Which errors each command can end with (spec/60_exceptions.md R271) -/

namespace Sys2Proof.Machine

variable {p : Params} {s : State}

/-- The two tests of `SampleCount` (46 R231). -/
theorem sampleCount_errsIn (w h l : Nat) : ErrsIn [.formatMismatch, .dimensionOverflow] (sampleCount p w h l) := by
  intro k hk
  rcases sampleCount_error.1 hk with ⟨-, rfl⟩ | ⟨-, -, rfl⟩ <;> decide

theorem accCmd_errsIn (x : Sym) : ErrsIn [.dimensionOverflow] (accCmd p x s) :=
  .ite (fun _ => .error (by decide)) fun _ => .ok _

theorem statCmd_errsIn : ErrsIn [.formatMismatch, .dimensionOverflow, .emptyInput] (statCmd p s) :=
  .bind ((sampleCount_errsIn _ _ _).mono (by decide)) fun _ _ => .ite (fun _ => .error (by decide)) fun _ => .ok _

theorem buildCmd_errsIn : ErrsIn [.emptyInput] (buildCmd s) := .ite (fun _ => .error (by decide)) fun _ => .ok _

theorem append_errsIn (v n : Nat) : ErrsIn [.stateError] (append p v n s) :=
  .ite (fun _ => .error (by decide)) fun _ => .ok _

/-- `PUTB` raises `IllegalCommand` as an ill-formed term only (log 12). -/
theorem putbCmd_errsIn {len : BitVec 6} (legal : len.toNat ≤ 32) : ErrsIn [.stateError] (putbCmd p len s) :=
  .ite (fun long => absurd long (Nat.not_lt.2 legal)) fun _ =>
    .ite (fun _ => .error (by decide)) fun _ => append_errsIn _ _

theorem putsCmd_errsIn (x : Sym) : ErrsIn [.stateError] (putsCmd p x s) :=
  .ite (fun _ => .error (by decide)) fun _ => .ite (fun _ => .error (by decide)) fun _ =>
    .ite (fun _ => .error (by decide)) fun _ => append_errsIn _ _

theorem finCmd_errsIn : ErrsIn [.stateError] (finCmd p s) :=
  .ite (fun _ => .error (by decide)) fun _ => .ite (fun _ => .ok _) fun _ =>
    .ite (fun _ => .error (by decide)) fun _ => .ok _

theorem getbCmd_errsIn : ErrsIn [.truncatedStream, .stateError] (getbCmd p s) :=
  .bind (.ite (fun _ => .error (by decide)) fun _ => .ite (fun _ => .error (by decide)) fun _ => .ok _) fun _ _ => .ok _

/-- The kinds of `GETS` whatever the code and the stream are; `getsCmd_errsIn` leaves out `StateError`. -/
theorem getsCmd_errsIn_kindsOf : ErrsIn (kindsOf .gets) (getsCmd p s) := by
  refine .ite (fun _ => .error (by decide)) fun _ => .bind (fun k walked => ?_) fun _ _ => .ok _
  rcases walk_error (by decide) (by decide) walked with rfl | rfl | ⟨rfl, -⟩ <;> decide

/-- The kinds of `PARSE` whatever `CONLEN` is; `parseCmd_errsIn` leaves out `StateError`. -/
theorem parseCmd_errsIn_kindsOf : ErrsIn (kindsOf .parse) (parseCmd p s) := by
  by_cases tooLong : s.conlen.toNat > p.conCap
  · rw [parseCmd_of_conlen tooLong]; exact .error (by decide)
  · exact (parseCmd_errsIn (Nat.not_lt.1 tooLong)).mono (by decide)

/-- The kinds of `DECODE` whatever `CONLEN` is; `decodeCmd_errsIn` leaves out `StateError`. -/
theorem decodeCmd_errsIn_kindsOf : ErrsIn (kindsOf .decode) (decodeCmd p s) := by
  by_cases tooLong : s.conlen.toNat > p.conCap
  · rw [decodeCmd_of_parse_error (parseCmd_of_conlen tooLong)]; exact .error (by decide)
  · exact (decodeCmd_errsIn (Nat.not_lt.1 tooLong)).mono (by decide)

theorem wrhdrCmd_errsIn : ErrsIn [.stateError, .formatMismatch, .dimensionOverflow, .emptyInput] (wrhdrCmd p s) :=
  .ite (fun _ => .error (by decide)) fun _ => .bind ((sampleCount_errsIn _ _ _).mono (by decide)) fun _ _ =>
    .ite (fun _ => .error (by decide)) fun _ => .ite (fun _ => .error (by decide)) fun _ =>
      .ite (fun _ => .error (by decide)) fun _ => .ok _

/-- `ENCODE` ends with an error of its `STAT` or with a depth above 32: of an image no deeper it makes a container, so
none of the kinds of the commands inside is added (46 R246). -/
theorem encodeCmd_errsIn :
    ErrsIn [.formatMismatch, .dimensionOverflow, .emptyInput, .codeLengthOverflow] (encodeCmd p s) := by
  cases counted : statCmd p s with
  | error k =>
    rw [encodeCmd_of_stat_error counted]
    exact .error (List.mem_append_left [ErrKind.codeLengthOverflow] (statCmd_errsIn k counted))
  | ok t =>
    obtain ⟨layout, bound, nonempty, -⟩ := statCmd_ok counted
    by_cases deep : ∃ x, imageDepth p s x > 32
    · rw [encodeCmd_of_deep layout bound nonempty deep]
      exact .error (by decide)
    · obtain ⟨u, encoded⟩ := encodeCmd_of_image layout bound nonempty fun x => Nat.not_lt.1 fun hx => deep ⟨x, hx⟩
      rw [encoded]
      exact .ok u

/-- The table of 60 R271, row by row. -/
theorem resultOf_errsIn {i : Instr} (legal : i.wellFormed = true) : ErrsIn (kindsOf i) (resultOf i s) := by
  cases i with
  | nop | clr | winit | rinit => exact .ok _
  | acc x => exact accCmd_errsIn x
  | stat => exact statCmd_errsIn
  | build => exact buildCmd_errsIn
  | assign => exact assignCmd_errsIn s
  | putb len => exact putbCmd_errsIn (of_decide_eq_true legal)
  | puts x => exact putsCmd_errsIn x
  | fin => exact finCmd_errsIn
  | getb => exact getbCmd_errsIn
  | gets => exact getsCmd_errsIn_kindsOf
  | parse => exact parseCmd_errsIn_kindsOf
  | decode => exact decodeCmd_errsIn_kindsOf
  | wrhdr => exact wrhdrCmd_errsIn
  | encode => exact encodeCmd_errsIn

/-- Settles O13: a success commits 0, an error the code of a kind that the command's result can be. -/
theorem errorKindsOfEachCommand : Obligations.ErrorKindsOfEachCommand := by
  intro i s t legal h
  rcases exec_cases i s with ⟨u, -, he⟩ | ⟨k, failed, he⟩
  · rw [he] at h; cases h; exact .inl rfl
  · rw [he] at h; cases h; exact .inr ⟨k, resultOf_errsIn legal k failed, rfl⟩

/-! ### How a command ends (spec/60_exceptions.md R273, R286) -/

/-- Settles O11: only an error leaves a code that is not 0, and taking one changes `ERR` alone. -/
theorem failedCommandChangesOnlyErr : Obligations.FailedCommandChangesOnlyErr := by
  intro i s t h failed
  rcases exec_cases i s with ⟨u, -, he⟩ | ⟨k, -, he⟩
  · rw [he] at h; cases h; exact absurd rfl failed
  · rw [he] at h; cases h; exact ⟨rfl, k, rfl⟩

/-- Settles O12: every command is committed or raises its kind. -/
theorem everyCommandHasANextState : Obligations.EveryCommandHasANextState := exec_next

/-! ### How a step ends (spec/60_exceptions.md R286, spec/20_memory.md R61) -/

/-- The script is in no command's columns (20 R76). -/
theorem Frame.script_eq {i : Instr} {t : State} (h : Frame p i s t) : t.script = s.script := by
  cases i with
  | nop | acc | stat | build | assign | winit | rinit | getb | gets | parse => exact (congrArg State.script h :)
  | clr =>
    obtain ⟨-, -, -, script, -⟩ := h
    exact script
  | putb | puts | fin | wrhdr | encode | decode =>
    obtain ⟨others, -⟩ := h
    exact (congrArg State.script others :)

/-- A write to `CMD` has a next state whatever the word, and takes no event off the script. -/
theorem runCommand_answers (w : CmdWord) (s : State) : ∃ t, runCommand w s = .next t ∧ t.script = s.script := by
  cases decoded : decodeWord w with
  | error e => exact ⟨_, runCommand_error decoded, rfl⟩
  | ok i =>
    obtain ⟨t, ht⟩ := exec_next i s
    exact ⟨t, (runCommand_ok decoded).trans ht, (commandsChangeOnlyTheirColumns i s t ht).script_eq⟩

/-- The event is a read or a write of the host at this address of this memory. -/
def IsHostAccess (m : MemId) (a : Nat) (e : Event) : Prop := e = .memRead m a ∨ ∃ b, e = .memWrite m a b

/-- An event has a next state on an idle block unless it is an access outside a memory, which is refused (log 8). -/
theorem performIdle_answers (e : Event) (s : State) :
    (∃ t, performIdle Config.params e s = .next t ∧ t.script = s.script) ∨
      ∃ m a, Config.params.memSize m ≤ a ∧ IsHostAccess m a e ∧
        performIdle Config.params e s = .refused (.noSuchAddress m a) := by
  cases e with
  | regRead n => exact .inl ⟨_, rfl, rfl⟩
  | tblRead T i => exact .inl ⟨_, rfl, rfl⟩
  | reset => exact .inl ⟨_, rfl, rfl⟩
  | regWrite n v =>
    by_cases command : n = 1
    · subst command
      exact .inl (runCommand_answers (commandWord v) s)
    · exact .inl ⟨_, performIdle_regWrite command v, by rw [regStore_eq]⟩
  | memRead m a =>
    rcases Nat.lt_or_ge a (Config.params.memSize m) with inside | outside
    · exact .inl ⟨_, performIdle_memRead inside, rfl⟩
    · exact .inr ⟨m, a, outside, .inl rfl, performIdle_memRead_outside outside⟩
  | memWrite m a b =>
    rcases Nat.lt_or_ge a (Config.params.memSize m) with inside | outside
    · exact .inl ⟨_, performIdle_memWrite inside b, by rw [setMem_eq]⟩
    · exact .inr ⟨m, a, outside, .inr ⟨b, rfl⟩, performIdle_memWrite_outside outside b⟩

/-- Settles O6: the step is the first event of the script, performed with the others still to come. -/
theorem stepAnswersUnlessOutsideAMemory : Obligations.StepAnswersUnlessOutsideAMemory := by
  intro s idle
  cases script : s.script with
  | nil => exact .inl ⟨rfl, step_idle script⟩
  | cons e rest =>
    rw [step_of_idle idle script]
    rcases performIdle_answers e { s with script := rest } with
      ⟨t, next, kept⟩ | ⟨m, a, outside, rfl | ⟨b, rfl⟩, refused⟩
    · exact .inr (.inl ⟨e, rest, t, rfl, next, kept⟩)
    · exact .inr (.inr ⟨m, a, rest, outside, .inl rfl, refused⟩)
    · exact .inr (.inr ⟨m, a, rest, outside, .inr ⟨b, rfl⟩, refused⟩)

end Sys2Proof.Machine

/-! PROOFS of the family `70_reset_and_hazards.md`: the flow of micro commands beside `ENCODE`, and the first commands
on the reset state. -/

/-! ### `ACC` in sequence does what `STAT` does (spec/41_symbol_statistics.md R140, R143) -/

namespace Sys2Proof.Machine

variable {s t : State} {is : List Instr} {ys : List Sym}

theorem execAll_append (h : execAll is s = .next t) (js : List Instr) : execAll (is ++ js) s = execAll js t := by
  induction is generalizing s with
  | nil => cases h; rfl
  | cons i is ih =>
    obtain ⟨u, first⟩ := exec_next i s
    rw [execAll_cons first] at h
    rw [List.cons_append, execAll_cons first, ih h]

/-- The columns of `ACC` (20 R76) are those of a sequence of them. -/
theorem execAll_acc_others (h : execAll (ys.map .acc) s = .next t) :
    t = { s with freq := t.freq, total := t.total, err := t.err } := by
  induction ys generalizing s with
  | nil => cases h; rfl
  | cons y ys ih =>
    obtain ⟨u, first⟩ := exec_next (.acc y) s
    rw [List.map_cons, execAll_cons first] at h
    have others : u = { s with freq := u.freq, total := u.total, err := u.err } :=
      commandsChangeOnlyTheirColumns (.acc y) s u first
    rw [ih h, others]

/-- 70 R303: with nothing counted yet, `ACC` of the samples in any order leaves the very state that `STAT` leaves. -/
theorem execAll_acc_eq_stat (counts : CountsOk Config.params s) (empty : s.total = 0) (ok : s.err = 0)
    (order : ys.Perm (pixels Config.params s (sampleTotal s))) (h : statCmd Config.params s = .ok t) :
    execAll (ys.map .acc) s = .next { t with err := 0 } := by
  have zero : s.total.toNat = 0 := by rw [empty]; rfl
  have size : ys.length = sampleTotal s := by rw [order.length_eq, pixels_length]
  obtain ⟨-, bound, -, others⟩ := statCmd_ok h
  obtain ⟨u, done, committed, counted⟩ := execAll_acc (xs := ys) counts ok (by rwa [zero, Nat.zero_add, size])
  have total : u.total = t.total := BitVec.eq_of_toNat_eq <| by
    rw [counted.total, zero, Nat.zero_add, size, statCmd_total h]
  have freq : u.freq = t.freq := table_ext fun x => BitVec.eq_of_toNat_eq <| by
    have none : freqOf s x = 0 := Nat.le_zero.1 (zero ▸ counts.freqOf_le x)
    calc freqOf u x
      _ = ys.count x := by rw [counted.freq, none, Nat.zero_add]
      _ = pixCount Config.params s (sampleTotal s) x := order.count_eq x
      _ = freqOf t x := (statCmd_counts h x).symm
  rw [done, execAll_acc_others done, total, freq, committed, others]

end Sys2Proof.Machine

/-! ### The flow of micro commands (spec/70_reset_and_hazards.md R303) -/

namespace Sys2Proof.Machine

/-- The cleared block with the dimensions of `s`: where the flow begins (70 R303). -/
def dimensioned (s : State) : State :=
  { clearBlock s with width := s.width, height := s.height, layout := s.layout }

theorem sameImage_dimensioned (p : Params) (s : State) : SameImage p s (dimensioned s) :=
  ⟨rfl, rfl, rfl, pixels_congr rfl rfl _⟩

theorem countsOk_dimensioned (p : Params) (s : State) : CountsOk p (dimensioned s) := countsOk_clearBlock p s

/-- Settles O52: `ENCODE` of the cleared block makes the same container (R241) and is its micro commands (R234), of
which the `ACC` do what `STAT` does. -/
theorem microFlowMakesTheSameContainer : Obligations.MicroFlowMakesTheSameContainer := by
  intro s t ys h h0 order
  have same := sameImage_dimensioned Config.params s
  obtain ⟨u, encoded⟩ := exec_next .encode (dimensioned s)
  obtain ⟨code, container⟩ :=
    encodeDependsOnTheImageOnly s (dimensioned s) t u rfl rfl rfl same.samples.symm h encoded
  have ok : u.err = 0 := code ▸ h0
  obtain ⟨conlen, bytes⟩ := container h0
  obtain ⟨v, result, -⟩ := resultOf_of_exec encoded ok
  obtain ⟨s1, -, -, -, -, counted, -⟩ := encodeCmd_ok result
  have accumulated := execAll_acc_eq_stat (countsOk_dimensioned _ s) rfl rfl (same.pixels_eq ▸ order) counted
  have micro := encodeIsItsMicroCommands (dimensioned s) u encoded ok
  rw [same.pixels_eq, List.append_assoc] at micro
  refine ⟨u, ?_, ok, conlen.symm, fun a ha => (bytes a ha).symm⟩
  rw [List.append_assoc, List.append_assoc]
  calc execAll (ys.map .acc ++ ([.build, .assign, .wrhdr] ++
        ((pixels Config.params s (sampleTotal s)).map .puts ++ [.fin]))) (dimensioned s)
    _ = execAll ([.build, .assign, .wrhdr] ++ ((pixels Config.params s (sampleTotal s)).map .puts ++ [.fin]))
        { s1 with err := 0 } := execAll_append accumulated _
    _ = execAll (.stat :: ([.build, .assign, .wrhdr] ++
        ((pixels Config.params s (sampleTotal s)).map .puts ++ [.fin]))) (dimensioned s) :=
      (execAll_cons (exec_of_resultOf_ok (i := .stat) counted)).symm
    _ = .next u := micro

end Sys2Proof.Machine

/-! ### The first commands on the reset state (spec/70_reset_and_hazards.md R304) -/

namespace Sys2Proof.Machine

variable {p : Params} {s : State}

@[simp] theorem lenOf_clearBlock (s : State) (x : Sym) : lenOf (clearBlock s) x = 0 :=
  congrArg BitVec.toNat (tableGet_tableZero 8 x)

/-- 43 R171 of lengths that are all 0: the Kraft sum is 0, and every code is 0. -/
theorem assignCmd_of_uncoded (uncoded : ∀ x, lenOf s x = 0) :
    assignCmd s = .ok { s with code := tableZero 32, cv := true } := by
  have kraft : kraftSum (lenOf s) = 0 := by
    rw [kraftSum, sumSyms_congr fun x => if_pos (uncoded x), sumSyms_zero]
  have codes : (tableOf fun x => BitVec.ofNat 32 (canonicalCode (lenOf s) x)) = tableZero 32 := table_ext fun x => by
    rw [tableGet_tableOf, canonicalCode_of_length_zero (uncoded x), tableGet_tableZero]
    rfl
  rw [assignCmd_of_kraft (fun x => uncoded x ▸ Nat.zero_le _) (kraft ▸ Nat.zero_le _), codes]

/-- 44 R193: a length of 0 appends nothing where the writer's place is inside `CON`. -/
theorem putbCmd_zero (notFinal : s.wfin = false) (room : s.wbase.toNat + ceil8 s.wbits.toNat ≤ p.conCap) :
    putbCmd p 0 s = .ok s :=
  (putbCmd_eq_append (Nat.zero_le _) notFinal).trans (append_total room)

/-- 46 R235: no byte of `CON` is read for a container shorter than its magic. -/
theorem parseCmd_of_noMagic (short : s.conlen.toNat < 4) : parseCmd p s = .error .formatMismatch := by
  have fits : ¬ s.conlen.toNat > p.conCap := by rw [conCap_eq]; omega
  rw [parseCmd, if_neg fits, if_pos (.inl short)]

theorem wrhdrCmd_of_invalid (invalid : s.cv = false) : wrhdrCmd p s = .error .stateError := if_pos invalid

theorem buildCmd_of_empty (empty : s.total = 0) : buildCmd s = .error .emptyInput := if_pos empty

/-- 41 R141 on the cleared block: the one count is that of the symbol. -/
theorem exec_acc_clearBlock (s : State) (x : Sym) : ∃ t, exec (.acc x) (clearBlock s) = .next t ∧
    t = { clearBlock s with freq := t.freq, total := 1 } ∧ ∀ y, freqOf t y = if y = x then 1 else 0 := by
  obtain ⟨t, accepted, -, counted⟩ :=
    exec_acc (countsOk_clearBlock _ s) (Nat.ne_of_lt (maxSamples_pos Config.params)) x
  have total : t.total = 1 := BitVec.eq_of_toNat_eq counted.total
  refine ⟨t, accepted, ?_, fun y => ?_⟩
  · rw [← total]; exact counted.others
  · rw [counted.freq, freqOf_clearBlock]

/-- Settles O15: the reset state is a cleared block, on which each command takes the branch that R304 names before it
reads a byte of either memory. -/
theorem firstCommandsOnTheResetState : Obligations.FirstCommandsOnTheResetState := by
  intro pix con epoch script reads F
  have cleared : F = clearBlock F := rfl
  clear_value F
  rw [cleared]
  have room : (clearBlock F).wbase.toNat + ceil8 (clearBlock F).wbits.toNat ≤ Config.params.conCap := by simp [ceil8]
  have illegal : ¬ legalLayout (clearBlock F).layout.toNat := by rw [clearBlock_layout]; decide
  have short : (clearBlock F).conlen.toNat < 4 := by rw [clearBlock_conlen]; decide
  refine ⟨exec_nop _, exec_clr _, exec_winit _, exec_rinit _, ?putb, ?assign, ?fin, exec_acc_clearBlock F, ?build,
    ?stat, ?encode, ?parse, ?decode, fun x => ?puts, ?gets, ?wrhdr, ?getb⟩
  case putb => exact exec_of_resultOf_ok (i := .putb 0) (putbCmd_zero rfl room)
  case assign => exact exec_of_resultOf_ok (i := .assign) (assignCmd_of_uncoded (lenOf_clearBlock F))
  case fin => exact exec_of_resultOf_ok (i := .fin) (finCmd_of_aligned rfl rfl)
  case build => exact exec_of_resultOf_error (i := .build) (buildCmd_of_empty rfl)
  case stat => exact exec_of_resultOf_error (i := .stat) (statCmd_of_illegalLayout illegal)
  case encode =>
    exact exec_of_resultOf_error (i := .encode) (encodeCmd_of_stat_error (statCmd_of_illegalLayout illegal))
  case parse => exact exec_of_resultOf_error (i := .parse) (parseCmd_of_noMagic short)
  case decode => exact exec_of_resultOf_error (i := .decode) (decodeCmd_of_parse_error (parseCmd_of_noMagic short))
  case puts => exact exec_of_resultOf_error (i := .puts x) (putsCmd_of_unready (.inl rfl))
  case gets => exact exec_of_resultOf_error (i := .gets) (getsCmd_of_invalid rfl)
  case wrhdr => exact exec_of_resultOf_error (i := .wrhdr) (wrhdrCmd_of_invalid rfl)
  case getb => exact exec_of_resultOf_error (i := .getb) (getbCmd_of_noBit (readBit_of_end (Nat.zero_le _)))

end Sys2Proof.Machine
